-- ==== Sys2Proof/Word.lean ====
section
/-! DEFINITION. The word types of the block: bytes, 16-bit fields, 32-bit fields (00_scope.md R16: every value is unsigned). -/

namespace Sys2Proof

/-- A byte, 0..255 (R16). -/
abbrev Byte := BitVec 8

/-- A 16-bit field (lengths, checksums, start code). -/
abbrev Half := BitVec 16

/-- A 32-bit field (module addresses, watchdog counters, register reads). -/
abbrev Word32 := BitVec 32

end Sys2Proof
end

