-- ==== Sys2Proof/Config.lean ====
section
/-! DEFINITION. What a block instance fixes: the parameters of 00_scope.md R8 to R15, the frame constants, and the open
constants that no rule uses. -/

namespace Sys2Proof

/-- How the length field enters the checksum (00_scope.md R13, 41_checksum_validator.md R161). -/
inductive CsumLenMode where
  /-- `L` is added as one 16-bit number: the value of this hardware. -/
  | value16
  /-- the two bytes of `L` are added: an admitted parameter value. -/
  | byteSum
  deriving DecidableEq, Repr

namespace Config

/-- The parameters of one block instance (R49: configuration, fixed for the instance, written by no operation). -/
structure Params where
  /-- `MAX_PAYLOAD` (R8). -/
  maxPayload : Nat
  /-- `START_CODE` (R10), a parameter left open. -/
  startCode : Half
  /-- `CSUM_LEN_MODE` (R13). -/
  csumLenMode : CsumLenMode
  deriving DecidableEq, Repr

/-- `HDR_LEN` (R11). -/
abbrev hdrLen : Nat := 9
/-- `CSUM_LEN` (R11). -/
abbrev csumLen : Nat := 2
/-- `OVERHEAD` (R11). -/
abbrev overhead : Nat := 11
/-- `BROADCAST_ADDR` (R12); the block treats it like any address (R107). -/
def broadcastAddr : Word32 := 0xFFFFFFFF
/-- `BAUD_BASE` (43_command_catalog.md R238), used by the host's decoding alone. -/
abbrev baudBase : Nat := 9600

/-- `RX_CAPACITY = MAX_PAYLOAD + 11` (R9). -/
def Params.rxCapacity (p : Params) : Nat := p.maxPayload + overhead

/-- The bound R8 puts on `MAX_PAYLOAD`, so that every length register fits 16 bits. -/
abbrev Params.wf (p : Params) : Prop := p.maxPayload ≤ 65524

/-- The parameters of this hardware (R15). PRESUMED (log 1): the start code is the default 0xEF01 that R10 permits; the
source gives none, and no statement rests on it. -/
def hw : Params := { maxPayload := 254, startCode := 0xEF01, csumLenMode := .value16 }

/-- `TICK_PERIOD` (R14), open: the duration of one `TICK`; no rule depends on it (log 16). -/
opaque tickPeriod : Nat

/-- `BUS_BASE` (20_memory.md R78), open: where a platform places the block; no rule uses it (log 16). -/
opaque busBase : Nat

end Config

end Sys2Proof
end

