-- ==== Sys2Proof/Syntax.lean ====
section
/-! DEFINITION. The instructions: one constructor for each row of spec/opcode_table.json, and the three forms in which an
agent issues one (30_encoding.md R100, R111, 43_command_catalog.md R221). -/

namespace Sys2Proof

/-- One constructor per row of the opcode table. Widths are those of 30_encoding.md R115; a payload is a byte sequence. -/
inductive Instr where
  /- Format OP: an operation record (R110, R111). -/
  | encode (addr : Word32) (ptype : Byte) (payload : List Byte)
  | decode (bs : List Byte)
  | checksum (ptype : Byte) (len : Half) (payload : List Byte)
  | verify (start : Half) (addr : Word32) (ptype : Byte) (len : Half) (payload : List Byte) (csum : Half)
  | rxByte (b : Byte)
  | arm (limit : Word32)
  | tick
  | take
  | readReg (index : Byte)
  | reset
  /- Format FRAME: a wire frame, told apart by its type byte (R100, R103); `L = N + 2` is not an operand (R102). -/
  | frameCommand (start : Half) (addr : Word32) (payload : List Byte) (csum : Half)
  | frameData (start : Half) (addr : Word32) (payload : List Byte) (csum : Half)
  | frameAck (start : Half) (addr : Word32) (payload : List Byte) (csum : Half)
  | frameEndOfData (start : Half) (addr : Word32) (payload : List Byte) (csum : Half)
  /- Format CMD: a catalog command to the module at `addr`, told apart by its payload's first byte (R109, R223 to R236). -/
  | getImage (addr : Word32)
  | extractFeatures (addr : Word32) (slot : Byte)
  | search (addr : Word32) (slot : Byte) (start : Half) (count : Half)
  | mergeFeatures (addr : Word32)
  | storeTemplate (addr : Word32) (slot : Byte) (page : Half)
  | loadTemplate (addr : Word32) (slot : Byte) (page : Half)
  | deleteTemplate (addr : Word32) (page : Half) (count : Half)
  | emptyLibrary (addr : Word32)
  | readParameters (addr : Word32)
  | setPassword (addr : Word32) (password : Word32)
  | verifyPassword (addr : Word32) (password : Word32)
  | enumerateTemplateCount (addr : Word32)
  | ledControl50 (addr : Word32)
  | ledControl51 (addr : Word32)
  deriving DecidableEq, Repr

/-- The form in which an agent issues an instruction: what the decoder reads. -/
inductive Issue where
  /-- operation records, one after another (R111). -/
  | records (bs : List Byte)
  /-- received bytes delivered in one burst (42_reassembler.md R193): a whole wire frame is a FRAME row. -/
  | burst (bs : List Byte)
  /-- a command payload to be sent to the module at `addr` (R221, R241): a catalog payload is a CMD row. -/
  | command (addr : Word32) (payload : List Byte)
  deriving DecidableEq, Repr

/-- The fields of the 9 header bytes of a frame (R100, R101). -/
structure FrameHeader where
  startCode : Half
  address : Word32
  ptype : Byte
  length : Half
  deriving DecidableEq, Repr

end Sys2Proof
end

