-- ==== Sys2Proof/Machine/State.lean ====
section
/-! DEFINITION. The state: the block's own elements (10_state.md R31 to R47, nothing else: R30), and beside them the
instance's parameters, the agents' pending operations and the values the latest operation returned. -/

namespace Sys2Proof.Machine

/-! ## The elements of the block -/

/-- `rx_state` (R32), 2 bits; the values 0 to 3 are in Flags.lean. -/
inductive RxState where
  | idle
  | accumulatingHeader
  | accumulatingPayload
  | complete
  deriving DecidableEq, Repr

/-- `slot.result` (R38), 3 bits; the codes 0 to 7 are in Flags.lean. Codes 6 and 7 are reserved and never written. -/
inductive Result where
  | none
  | ok
  | checksumMismatch
  | frameTooLarge
  | framingTimeout
  | frameMalformed
  | reserved6
  | reserved7
  deriving DecidableEq, Repr

/-- The record of the result slot (R37), also what `DECODE` and `TAKE` return. `payload` holds exactly the specified bytes,
`payload[0 .. payload_len)` (log 10). -/
structure Record where
  result : Result
  startCode : Half
  address : Word32
  ptype : Byte
  length : Half
  payloadLen : Half
  payload : List Byte
  rxChecksum : Half
  calcChecksum : Half
  deriving DecidableEq, Repr

/-- The complete architectural state of the block (R30): the elements of R31 to R47. -/
structure Block where
  /-- `rx_state` (R32). -/
  rxState : RxState
  /-- `rx_count` (R33). -/
  rxCount : Half
  /-- `rx_expected` (R35). -/
  rxExpected : Half
  /-- `rx_buf` (R34, R70): the bytes written so far, by index; an unlisted index has no value (U1, log 9). -/
  rxBuf : List Host.Cell
  /-- the result slot (R37). -/
  slot : Record
  /-- `DONE` (R39). -/
  done : Bool
  /-- `WAITING` (R40). -/
  waiting : Bool
  /-- `OVERRUN` (R41). -/
  overrun : Bool
  /-- `wdt_count` (R43). -/
  wdtCount : Word32
  /-- `wdt_limit` (R44). -/
  wdtLimit : Word32
  /-- `tx_stream` (R47). -/
  txStream : List Byte
  deriving DecidableEq, Repr

/-! ## The agents (the model's own, log 3) -/

/-- The three agents (60_exceptions.md R280). -/
inductive Agent where
  | transport
  | host
  | tickSource
  deriving DecidableEq, Repr

/-- One command a host asks for (43_command_catalog.md R241): the module's address, the request payload (its opcode and
arguments, R221) and the caller's timeout in ticks. -/
structure CommandRequest where
  addr : Word32
  payload : List Byte
  limit : Word32
  deriving DecidableEq, Repr

/-- Which operation of a command's cycle comes next (R241): step 1, step 2, or steps 3 and 4. -/
inductive CycleStep where
  | arm
  | send
  | take
  deriving DecidableEq, Repr

/-- What an agent has pending. -/
inductive Item where
  /-- an instruction, or several records or received bytes one after another. -/
  | issue (w : Issue)
  /-- the pseudo-operation `WAIT` (R117, R272): the agent is held until `DONE = 1`, then takes the result. -/
  | wait
  /-- a command whose cycle (R241) has come as far as `next` says (log 18). -/
  | cycle (c : CommandRequest) (next : CycleStep)
  deriving DecidableEq, Repr

/-- The agents' pending items, oldest first, and whose turn comes next: the order the environment chose (R80). -/
structure Agents where
  transport : List Item
  host : List Item
  tickSource : List Item
  turns : List Agent
  deriving DecidableEq, Repr

/-! ## Returned values (the model's own, log 5) -/

/-- Why `ENCODE` returns `InvalidRequest` (40_frame_codec.md R142). -/
inductive EncodeReason where
  | payloadTooLong
  | badType
  deriving DecidableEq, Repr

/-- The values an operation returns (R21). -/
inductive Ret where
  /-- `RX_BYTE`, `ARM`, `TICK`, `RESET` return nothing. -/
  | nothing
  /-- `ENCODE`: `(ENC_OK, frame)` (R141). -/
  | encoded (frame : List Byte)
  /-- `ENCODE`: `(INVALID_REQUEST, reason)` (R142). -/
  | invalidRequest (reason : EncodeReason)
  /-- `DECODE` and `TAKE`: a result record (R144, R191). -/
  | record (r : Record)
  /-- `CHECKSUM` (R162). -/
  | sum (v : Half)
  /-- `VERIFY` (R163): true for a match. -/
  | verdict (b : Bool)
  /-- `READ_REG` (R192). -/
  | word (v : Word32)
  deriving DecidableEq, Repr

/-! ## The machine -/

structure State where
  /-- the instance's parameters: configuration, not state, written by no step (R49, log 2). -/
  params : Config.Params
  /-- the block's own state. -/
  block : Block
  /-- what the agents have pending (log 3). -/
  agents : Agents
  /-- what the latest operation returned (log 5). -/
  ret : Ret
  deriving DecidableEq, Repr

/-- Why the machine stops. Each is a "fault" of 93_implementation_defined.md or a read outside what the spec defines, safe
(the machine stops where the hardware has no defined value), and none is reachable from a state that meets the invariant of
Safety.lean (log 14); the last two are raised only by the host-side decodings of Machine/Catalog.lean. -/
inductive Fault where
  /-- U1: `MemRead` of a byte of `rx_buf` that the current frame has not written; raised by `RX_BYTE` and FRAME rows. Safe. -/
  | unspecifiedByte (index : Nat)
  /-- R195: `MemWrite` outside `rx_buf`; raised by `RX_BYTE` and FRAME rows. Safe. -/
  | bufferIndex (index : Nat)
  /-- U2: `TAKE` of a slot that holds fewer payload bytes than `payload_len` says. Safe. -/
  | unspecifiedPayload (index : Nat)
  /-- U5: a reserved result code found in the slot by `TAKE` or `READ_REG`. Safe. -/
  | reservedResult
  /-- U7: `rx_state = Complete` found between operations by `RX_BYTE`, `READ_REG` or a FRAME row. Safe. -/
  | completeHeld
  /-- R145, R185: `rec_full` of bytes that are not one whole frame; raised by `RX_BYTE`, FRAME rows and `DECODE`. Safe. -/
  | brokenFrame
  /-- U18: a field read that a response does not carry; host-side decodings only. Safe. -/
  | notMeaningful
  /-- U19: a packet-size code above 3 converted; host-side decodings only. Safe. -/
  | packetSizeCode (code : Half)
  deriving DecidableEq, Repr

/-- What has no meaning and is refused by name (R21, R269): all of them safe. -/
inductive Refusal where
  /-- an instruction without a meaning yet, raised by exec's arms alone; safe. -/
  | notModelled (mnemonic : String)
  /-- R112: a reserved operation selector; raised when an agent issues the record; safe. -/
  | reservedSelector (sel : Byte)
  /-- a record shorter than its selector and count say; raised when an agent issues it; safe (log 12). -/
  | truncatedRecord
  /-- R192: a `READ_REG` index above 7; raised by `READ_REG`; safe. -/
  | unassignedRegister (index : Byte)
  deriving DecidableEq, Repr

/-- The block at power-on (R50, R301): the state after `RESET` with `tx_stream` empty. No byte of `rx_buf` or of
`slot.payload` has a value (U1, U2). -/
def Block.reset : Block :=
  { rxState := .idle, rxCount := 0, rxExpected := 0, rxBuf := [],
    slot := { result := .none, startCode := 0, address := 0, ptype := 0, length := 0, payloadLen := 0, payload := [],
              rxChecksum := 0, calcChecksum := 0 },
    done := false, waiting := false, overrun := false, wdtCount := 0, wdtLimit := 0, txStream := [] }

/-- The machine right after power-on: no agent has anything pending and nothing has been returned (log 3, log 5). -/
def State.reset : State :=
  { params := Config.hw, block := Block.reset,
    agents := { transport := [], host := [], tickSource := [], turns := [] }, ret := .nothing }

end Sys2Proof.Machine
end

