-- ==== Sys2Proof/Machine/Flags.lean ====
section
/-! DEFINITION. Codes and computed values: the numbers of `rx_state`, the result codes and the encode statuses, the `STATUS`
word, the state as a function of the count, and the checksum. -/

namespace Sys2Proof.Machine

/-- The values of R32. -/
def RxState.bits : RxState → BitVec 2
  | .idle => 0
  | .accumulatingHeader => 1
  | .accumulatingPayload => 2
  | .complete => 3

/-- `rx_state` as the function of `rx_count` that R32 gives between operations. -/
def RxState.ofCount (c : Nat) : RxState :=
  if c = 0 then .idle else if c ≤ 8 then .accumulatingHeader else .accumulatingPayload

/-- The codes of R38. -/
def Result.code : Result → BitVec 3
  | .none => 0
  | .ok => 1
  | .checksumMismatch => 2
  | .frameTooLarge => 3
  | .framingTimeout => 4
  | .frameMalformed => 5
  | .reserved6 => 6
  | .reserved7 => 7

/-- A code that is never written (R38, U5). -/
def Result.isReserved : Result → Bool
  | .reserved6 => true
  | .reserved7 => true
  | _ => false

/-- The reason codes of R142. -/
def EncodeReason.code : EncodeReason → Nat
  | .payloadTooLong => 1
  | .badType => 2

/-- The status `ENCODE` returns: `ENC_OK = 0`, `INVALID_REQUEST = 1` (R142, R261); no other operation returns one. -/
def Ret.encodeStatus : Ret → Option Nat
  | .encoded _ => some 0
  | .invalidRequest _ => some 1
  | _ => none

/-- The `STATUS` fields of R46: `RX_STATE` 1:0, `DONE` 2, `WAITING` 3, `OVERRUN` 4, 31:5 read 0. -/
def statusWord (st : RxState) (done waiting overrun : Bool) : Word32 :=
  BitVec.ofNat 32 (st.bits.toNat + 4 * done.toNat + 8 * waiting.toNat + 16 * overrun.toNat)

/-! ## The checksum (41_checksum_validator.md R161) -/

/-- How `L` enters the sum. -/
def lengthTerm (mode : CsumLenMode) (len : Half) : Nat :=
  match mode with
  | .value16 => len.toNat
  | .byteSum => len.toNat / 256 + len.toNat % 256

/-- The sum of a byte sequence, each byte unsigned. -/
def sumBytes : List Byte → Nat
  | [] => 0
  | b :: bs => b.toNat + sumBytes bs

/-- The sum before it is reduced: the type, the length value and the payload; never the start code, the address or the
checksum field (R164). -/
def checksumSum (mode : CsumLenMode) (ptype : Byte) (len : Half) (payload : List Byte) : Nat :=
  ptype.toNat + lengthTerm mode len + sumBytes payload

/-- `Checksum(type, L, p)`: the sum modulo 2^16. -/
def checksum (mode : CsumLenMode) (ptype : Byte) (len : Half) (payload : List Byte) : Half :=
  BitVec.ofNat 16 (checksumSum mode ptype len payload)

end Sys2Proof.Machine
end

