-- ==== Sys2Proof/Machine/Operands.lean ====
section
/-! DEFINITION. Operand forms: big-endian assembly and splitting of fields (00_scope.md R18, 20_memory.md R72), the wire
frame and its fields (30_encoding.md R100 to R102), and the request payloads of the command catalog (43_command_catalog.md
R221, R223 to R236). -/

namespace Sys2Proof.Machine

/-! ## Byte order -/

/-- `be16(a, b) = a*256 + b` (R18). -/
def be16 (a b : Byte) : Half := BitVec.ofNat 16 (a.toNat * 256 + b.toNat)

/-- `be32(a, b, c, d)` (R18). -/
def be32 (a b c d : Byte) : Word32 :=
  BitVec.ofNat 32 (a.toNat * 16777216 + b.toNat * 65536 + c.toNat * 256 + d.toNat)

/-- `bytes16(v) = [v[15:8], v[7:0]]` (R18). -/
def bytes16 (v : Half) : List Byte := [v.extractLsb' 8 8, v.extractLsb' 0 8]

/-- `bytes32(v) = [v[31:24], v[23:16], v[15:8], v[7:0]]` (R18). -/
def bytes32 (v : Word32) : List Byte :=
  [v.extractLsb' 24 8, v.extractLsb' 16 8, v.extractLsb' 8 8, v.extractLsb' 0 8]

/-- The first `n` bytes and the rest, or nothing where there are fewer. -/
def takeBytes (n : Nat) (bs : List Byte) : Option (List Byte × List Byte) :=
  if n ≤ bs.length then some (bs.take n, bs.drop n) else none

/-! ## The wire frame -/

/-- The packet types that may be sent (R103, R104). -/
def isPacketType (t : Byte) : Bool := t == 1 || t == 2 || t == 7 || t == 8

/-- `L = N + 2` (R102) as the 16-bit field of the frame. -/
def lengthField (payload : List Byte) : Half := BitVec.ofNat 16 (payload.length + 2)

/-- The bytes of a frame in wire order (R100). -/
def frameBytes (start : Half) (addr : Word32) (ptype : Byte) (payload : List Byte) (csum : Half) : List Byte :=
  bytes16 start ++ bytes32 addr ++ [ptype] ++ bytes16 (lengthField payload) ++ payload ++ bytes16 csum

/-- The header fields of a byte sequence and the bytes after them (R101), or nothing where it has fewer than 9 bytes. -/
def parseHeader : List Byte → Option (FrameHeader × List Byte)
  | s1 :: s0 :: a3 :: a2 :: a1 :: a0 :: t :: l1 :: l0 :: body =>
    some ({ startCode := be16 s1 s0, address := be32 a3 a2 a1 a0, ptype := t, length := be16 l1 l0 }, body)
  | _ => none

/-- Payload and checksum of a frame whose header is read (R101): defined where `L >= 2` and exactly `L` bytes follow. -/
def parseBody (h : FrameHeader) (body : List Byte) : Option (List Byte × Half) :=
  if 2 ≤ h.length.toNat ∧ body.length = h.length.toNat then
    match body.drop (h.length.toNat - 2) with
    | [c1, c0] => some (body.take (h.length.toNat - 2), be16 c1 c0)
    | _ => none
  else none

/-! ## Request payloads of the catalog. The layouts are the spec's, from general knowledge where it marks them so (G5, log 7) -/

/-- `[0x01]` (R223). -/
def getImagePayload : List Byte := [0x01]
/-- `[0x02, slot]` (R224). -/
def extractFeaturesPayload (slot : Byte) : List Byte := [0x02, slot]
/-- `[0x04, slot, start_hi, start_lo, count_hi, count_lo]` (R225). -/
def searchPayload (slot : Byte) (start count : Half) : List Byte := [0x04, slot] ++ bytes16 start ++ bytes16 count
/-- `[0x05]` (R226). -/
def mergeFeaturesPayload : List Byte := [0x05]
/-- `[0x06, slot, page_hi, page_lo]` (R227). -/
def storeTemplatePayload (slot : Byte) (page : Half) : List Byte := [0x06, slot] ++ bytes16 page
/-- `[0x07, slot, page_hi, page_lo]` (R228). -/
def loadTemplatePayload (slot : Byte) (page : Half) : List Byte := [0x07, slot] ++ bytes16 page
/-- `[0x0C, page_hi, page_lo, n_hi, n_lo]` (R229). -/
def deleteTemplatePayload (page count : Half) : List Byte := [0x0C] ++ bytes16 page ++ bytes16 count
/-- `[0x0D]` (R230). -/
def emptyLibraryPayload : List Byte := [0x0D]
/-- `[0x0F]` (R231). -/
def readParametersPayload : List Byte := [0x0F]
/-- `[0x12, p3, p2, p1, p0]` (R232). -/
def setPasswordPayload (password : Word32) : List Byte := [0x12] ++ bytes32 password
/-- `[0x13, p3, p2, p1, p0]` (R233). -/
def verifyPasswordPayload (password : Word32) : List Byte := [0x13] ++ bytes32 password
/-- `[0x1D]` (R234). -/
def enumerateTemplateCountPayload : List Byte := [0x1D]
/-- `[0x50]` (R235). -/
def ledControl50Payload : List Byte := [0x50]
/-- `[0x51]` (R236). -/
def ledControl51Payload : List Byte := [0x51]

end Sys2Proof.Machine
end

