-- ==== Sys2Proof/Machine/Ops.lean ====
section
/-! DEFINITION. The shared operations: the reassembly buffer, the result records, the result latch (the hardware's exception
entry) and the return from it, the named updates of the block, and how an operation ends. -/

namespace Sys2Proof.Machine

/-! ## The reassembly buffer (R19, R34, R70) -/

/-- The canonical form: addresses strictly rising. An unlisted address has no value, so no entry can equal it. -/
abbrev Memory.wf (m : List Host.Cell) : Prop := (m.map Prod.fst).Pairwise (· < ·)

/-- The byte at an index, if one has been written. -/
def Memory.lookup : List Host.Cell → Nat → Option Byte
  | [], _ => none
  | (a, b) :: m, i => if a = i then some b else Memory.lookup m i

/-- The buffer with byte `b` at index `i`. -/
def Memory.insert : List Host.Cell → Nat → Byte → List Host.Cell
  | [], i, b => [(i, b)]
  | (a, c) :: m, i, b =>
    if i < a then (i, b) :: (a, c) :: m
    else if i = a then (i, b) :: m
    else (a, c) :: Memory.insert m i b

/-- `MemWrite(i, 1, b)` on a buffer of `cap` bytes. -/
def memWrite (cap : Nat) (m : List Host.Cell) (i : Nat) (b : Byte) : Except Fault (List Host.Cell) :=
  if i < cap then .ok (Memory.insert m i b) else .error (.bufferIndex i)

/-- `MemRead(i, n)` where the current frame has written the indices below `valid`: the bytes at and above it are
unspecified, left from earlier frames or never written, and reading one faults (R34, U1). -/
def memRead (valid : Nat) (m : List Host.Cell) : Nat → Nat → Except Fault (List Byte)
  | _, 0 => .ok []
  | i, n + 1 =>
    if i < valid then
      match Memory.lookup m i with
      | none => .error (.unspecifiedByte i)
      | some b =>
        match memRead valid m (i + 1) n with
        | .ok bs => .ok (b :: bs)
        | .error f => .error f
    else .error (.unspecifiedByte i)

/-! ## Result records (40_frame_codec.md R145) -/

/-- `rec_empty(res)`. -/
def recEmpty (res : Result) : Record :=
  { result := res, startCode := 0, address := 0, ptype := 0, length := 0, payloadLen := 0, payload := [],
    rxChecksum := 0, calcChecksum := 0 }

/-- `rec_header(res, h)`. -/
def recHeader (res : Result) (h : FrameHeader) : Record :=
  { result := res, startCode := h.startCode, address := h.address, ptype := h.ptype, length := h.length,
    payloadLen := 0, payload := [], rxChecksum := 0, calcChecksum := 0 }

/-- `rec_full(f)` of a frame whose header is `h`, whose payload is `p` and whose last two bytes are `rxc`. -/
def recFull (mode : CsumLenMode) (h : FrameHeader) (p : List Byte) (rxc : Half) : Record :=
  let computed := checksum mode h.ptype h.length p
  { result := if computed = rxc then .ok else .checksumMismatch,
    startCode := h.startCode, address := h.address, ptype := h.ptype, length := h.length,
    payloadLen := BitVec.ofNat 16 (h.length.toNat - 2), payload := p, rxChecksum := rxc, calcChecksum := computed }

/-- `rec_full(f)`, defined on one whole frame alone (R145: `len(f) = 9 + L`, `L >= 2`). -/
def recFrame (mode : CsumLenMode) (f : List Byte) : Except Fault Record :=
  match parseHeader f with
  | none => .error .brokenFrame
  | some (h, body) =>
    match parseBody h body with
    | none => .error .brokenFrame
    | some (p, rxc) => .ok (recFull mode h p rxc)

/-! ## Named updates of the block -/

/-- The buffer "reset to empty": its count, expected length and state, never its bytes (R34, D18). -/
def Block.emptyBuffer (k : Block) : Block := { k with rxState := .idle, rxCount := 0, rxExpected := 0 }

/-- A byte stored in the buffer. -/
def Block.withBuf (k : Block) (m : List Host.Cell) : Block := { k with rxBuf := m }

/-- The count and the state after a stored byte. -/
def Block.countTo (k : Block) (c : Nat) (st : RxState) : Block :=
  { k with rxCount := BitVec.ofNat 16 c, rxState := st }

/-- The header accepted: `rx_count <- 9`, `rx_expected <- n`, `rx_state <- AccumulatingPayload` (R181). -/
def Block.expect (k : Block) (n : Nat) : Block :=
  { k with rxCount := 9, rxExpected := BitVec.ofNat 16 n, rxState := .accumulatingPayload }

/-- A result delivered: `slot <- r`, `DONE <- 1`, `WAITING <- 0` (R262). -/
def Block.deliver (k : Block) (r : Record) : Block := { k with slot := r, done := true, waiting := false }

/-- `OVERRUN <- 1` (R262). -/
def Block.markOverrun (k : Block) : Block := { k with overrun := true }

/-- `slot <- rec_empty(NONE)`, `DONE <- 0` (R189, R191, R300). -/
def Block.clearSlot (k : Block) : Block := { k with slot := recEmpty .none, done := false }

/-- `OVERRUN <- 0`. -/
def Block.clearOverrun (k : Block) : Block := { k with overrun := false }

/-- The watchdog's three elements. -/
def Block.setWatchdog (k : Block) (waiting : Bool) (count limit : Word32) : Block :=
  { k with waiting := waiting, wdtCount := count, wdtLimit := limit }

/-- `wdt_count <- w`. -/
def Block.countTick (k : Block) (w : Nat) : Block := { k with wdtCount := BitVec.ofNat 32 w }

/-- `emit(s)`: the bytes appended to `tx_stream` (R19, R47). -/
def Block.emit (k : Block) (bs : List Byte) : Block := { k with txStream := k.txStream ++ bs }

/-! ## Taking a condition, and the return from it -/

/-- The result latch `finish(r)` (R262): the only way a condition is taken. The frame in flight ends; the result is
delivered where the slot is free, and dropped with `OVERRUN` set where it is not (R268). -/
def Block.finish (k : Block) (r : Record) : Block :=
  if k.done then k.emptyBuffer.markOverrun else k.emptyBuffer.deliver r

/-- What `TAKE` returns of the slot: every field and `payload[0 .. payload_len)` (R37, U2); a reserved code faults (U5). -/
def Record.returned (r : Record) : Except Fault Record :=
  if r.result.isReserved then .error .reservedResult
  else if r.payload.length < r.payloadLen.toNat then .error (.unspecifiedPayload r.payload.length)
  else .ok { r with payload := r.payload.take r.payloadLen.toNat }

/-- `TAKE()` (R191), the return from a condition (R275). -/
def Block.take (k : Block) : Except Fault (Block × Ret) :=
  if k.done then
    match k.slot.returned with
    | .ok r => .ok (k.clearSlot, .record r)
    | .error f => .error f
  else .ok (k, .record (recEmpty .none))

/-- `ARM(limit)` (R189), the start of the next cycle (R275). -/
def Block.arm (k : Block) (limit : Word32) : Block :=
  k.emptyBuffer.clearSlot.clearOverrun.setWatchdog true 0 limit

/-- `RESET()` (R300): every element to its reset value; the bytes of `rx_buf` and `tx_stream` are not written. -/
def Block.resetOp (k : Block) : Block :=
  k.emptyBuffer.clearSlot.clearOverrun.setWatchdog false 0 0

/-! ## Reception (42_reassembler.md R181) -/

/-- The ninth byte (R183): the length checks on unbounded naturals, in the rule's order. -/
def Block.headerDone (p : Config.Params) (k : Block) (h : FrameHeader) : Block :=
  if h.length.toNat < 2 then k.finish (recHeader .frameMalformed h)
  else if p.rxCapacity < 9 + h.length.toNat then k.finish (recHeader .frameTooLarge h)
  else k.expect (9 + h.length.toNat)

/-- The header in the buffer, read at the ninth byte. -/
def Block.readHeader (p : Config.Params) (k : Block) : Except Fault Block :=
  match memRead 9 k.rxBuf 0 9 with
  | .error f => .error f
  | .ok bs =>
    match parseHeader bs with
    | none => .error .brokenFrame
    | some (h, _) => .ok (k.headerDone p h)

/-- The frame in the buffer, read at its last byte, the `c`-th (R184, R185). -/
def Block.readFrame (p : Config.Params) (k : Block) (c : Nat) : Except Fault Block :=
  match memRead c k.rxBuf 0 k.rxExpected.toNat with
  | .error f => .error f
  | .ok f =>
    match recFrame p.csumLenMode f with
    | .error e => .error e
    | .ok r => .ok (k.finish r)

/-- `RX_BYTE(b)` (R181), after the byte is in the buffer; `c` is the count with it. -/
def Block.byteStored (p : Config.Params) (k : Block) (c : Nat) : Except Fault Block :=
  if c < 9 then .ok (k.countTo c .accumulatingHeader)
  else if c = 9 then k.readHeader p
  else if c < k.rxExpected.toNat then .ok (k.countTo c k.rxState)
  else k.readFrame p c

/-- `RX_BYTE(b)` (R181). `Complete` between operations is unreachable and faults (U7). -/
def Block.rxByte (p : Config.Params) (k : Block) (b : Byte) : Except Fault Block :=
  if k.rxState = .complete then .error .completeHeld
  else
    match memWrite p.rxCapacity k.rxBuf k.rxCount.toNat b with
    | .error f => .error f
    | .ok m => (k.withBuf m).byteStored p (k.rxCount.toNat + 1)

/-- Bytes received one after another with no other operation between them (R193). -/
def Block.rxBytes (p : Config.Params) (k : Block) : List Byte → Except Fault Block
  | [] => .ok k
  | b :: bs =>
    match k.rxByte p b with
    | .error f => .error f
    | .ok k' => k'.rxBytes p bs

/-! ## The watchdog (R190) -/

/-- `TICK()`. The count is compared before it is stored, on unbounded naturals; it never passes `max(wdt_limit, 1)`, so
storing it loses no bit in any state that meets the invariant (R43, log 15). -/
def Block.tick (k : Block) : Block :=
  if k.waiting then
    let w := k.wdtCount.toNat + 1
    if k.wdtLimit.toNat ≤ w then (k.countTick w).finish (recEmpty .framingTimeout) else k.countTick w
  else k

/-! ## Codec -/

/-- The frame `ENCODE` builds (R141). -/
def encodeFrame (p : Config.Params) (addr : Word32) (ptype : Byte) (payload : List Byte) : List Byte :=
  frameBytes p.startCode addr ptype payload (checksum p.csumLenMode ptype (lengthField payload) payload)

/-- Why a request is invalid, if it is: the length is checked before the type (R142). -/
def encodeRefusal (p : Config.Params) (ptype : Byte) (payload : List Byte) : Option EncodeReason :=
  if p.maxPayload < payload.length then some .payloadTooLong
  else if isPacketType ptype then none
  else some .badType

/-- `ENCODE(addr, type, payload)` (R141, R142). -/
def Block.encode (p : Config.Params) (k : Block) (addr : Word32) (ptype : Byte) (payload : List Byte) : Block × Ret :=
  match encodeRefusal p ptype payload with
  | some reason => (k, .invalidRequest reason)
  | none => (k.emit (encodeFrame p addr ptype payload), .encoded (encodeFrame p addr ptype payload))

/-- `DECODE(bs)` (R144), with the checks in the rule's order. -/
def decodeBytes (p : Config.Params) (bs : List Byte) : Except Fault Record :=
  match parseHeader bs with
  | none => .ok (recEmpty .frameMalformed)
  | some (h, _) =>
    if h.length.toNat < 2 then .ok (recHeader .frameMalformed h)
    else if p.rxCapacity < 9 + h.length.toNat then .ok (recHeader .frameTooLarge h)
    else if bs.length ≠ 9 + h.length.toNat then .ok (recHeader .frameMalformed h)
    else recFrame p.csumLenMode bs

/-! ## The register view (R45) -/

/-- The content of a register of the view, zero-extended to 32 bits; no register has an index above 7. -/
def Block.register (p : Config.Params) (k : Block) : Nat → Option (Except Fault Word32)
  | 0 => some (if k.rxState = .complete then .error .completeHeld
               else .ok (statusWord k.rxState k.done k.waiting k.overrun))
  | 1 => some (.ok (k.rxCount.setWidth 32))
  | 2 => some (.ok (k.rxExpected.setWidth 32))
  | 3 => some (if k.slot.result.isReserved then .error .reservedResult else .ok (k.slot.result.code.setWidth 32))
  | 4 => some (.ok k.wdtCount)
  | 5 => some (.ok k.wdtLimit)
  | 6 => some (.ok ((BitVec.ofNat 16 p.rxCapacity).setWidth 32))
  | 7 => some (.ok (p.startCode.setWidth 32))
  | _ => none

/-! ## How an operation ends (R21) -/

/-- An operation that is done: the block after it and the values it returns. -/
def State.finishOp (s : State) (k : Block) (r : Ret) : State := { s with block := k, ret := r }

/-- An operation that cannot fault. -/
def State.done (s : State) (kr : Block × Ret) : Host.Outcome State Fault Refusal :=
  .next (s.finishOp kr.1 kr.2)

/-- An operation whose reads may meet an unspecified value. -/
def State.doneOrFault (s : State) : Except Fault (Block × Ret) → Host.Outcome State Fault Refusal
  | .ok kr => s.done kr
  | .error f => .fault f

/-- An operation that changes the block and returns nothing. -/
def State.doneBlock (s : State) : Except Fault Block → Host.Outcome State Fault Refusal
  | .ok k => s.done (k, .nothing)
  | .error f => .fault f

/-- A catalog command: the `ENCODE` of a Command packet with this payload (43_command_catalog.md R241 step 2, log 7). -/
def State.sendCommand (s : State) (addr : Word32) (payload : List Byte) : Host.Outcome State Fault Refusal :=
  s.done (s.block.encode s.params addr 0x01 payload)

/-- A wire frame delivered to the receiver in one burst (R193, log 6). -/
def State.deliverFrame (s : State) (start : Half) (addr : Word32) (ptype : Byte) (payload : List Byte) (csum : Half) :
    Host.Outcome State Fault Refusal :=
  s.doneBlock (s.block.rxBytes s.params (frameBytes start addr ptype payload csum))

end Sys2Proof.Machine
end

