-- ==== Sys2Proof/Machine/Catalog.lean ====
section
/-! DEFINITION. The CMD rows (43_command_catalog.md R223 to R236): each is the `ENCODE` of its Command frame (R241 step 2, log
7); the block never reads the payload (R109), and what the module does with it is outside. After them the host's decodings of
response payloads (R237 to R242), pure functions over what `TAKE` returns (log 13). -/

namespace Sys2Proof.Machine

/-- `getImage` (R223). -/
def execGetImage (addr : Word32) (s : State) : Host.Outcome State Fault Refusal :=
  s.sendCommand addr getImagePayload

/-- `extractFeatures` (R224). -/
def execExtractFeatures (addr : Word32) (slot : Byte) (s : State) : Host.Outcome State Fault Refusal :=
  s.sendCommand addr (extractFeaturesPayload slot)

/-- `search` (R225). -/
def execSearch (addr : Word32) (slot : Byte) (start count : Half) (s : State) : Host.Outcome State Fault Refusal :=
  s.sendCommand addr (searchPayload slot start count)

/-- `mergeFeatures` (R226). -/
def execMergeFeatures (addr : Word32) (s : State) : Host.Outcome State Fault Refusal :=
  s.sendCommand addr mergeFeaturesPayload

/-- `storeTemplate` (R227). -/
def execStoreTemplate (addr : Word32) (slot : Byte) (page : Half) (s : State) : Host.Outcome State Fault Refusal :=
  s.sendCommand addr (storeTemplatePayload slot page)

/-- `loadTemplate` (R228). -/
def execLoadTemplate (addr : Word32) (slot : Byte) (page : Half) (s : State) : Host.Outcome State Fault Refusal :=
  s.sendCommand addr (loadTemplatePayload slot page)

/-- `deleteTemplate` (R229). -/
def execDeleteTemplate (addr : Word32) (page count : Half) (s : State) : Host.Outcome State Fault Refusal :=
  s.sendCommand addr (deleteTemplatePayload page count)

/-- `emptyLibrary` (R230). -/
def execEmptyLibrary (addr : Word32) (s : State) : Host.Outcome State Fault Refusal :=
  s.sendCommand addr emptyLibraryPayload

/-- `readParameters` (R231). -/
def execReadParameters (addr : Word32) (s : State) : Host.Outcome State Fault Refusal :=
  s.sendCommand addr readParametersPayload

/-- `setPassword` (R232). -/
def execSetPassword (addr password : Word32) (s : State) : Host.Outcome State Fault Refusal :=
  s.sendCommand addr (setPasswordPayload password)

/-- `verifyPassword` (R233). -/
def execVerifyPassword (addr password : Word32) (s : State) : Host.Outcome State Fault Refusal :=
  s.sendCommand addr (verifyPasswordPayload password)

/-- `enumerateTemplateCount` (R234). -/
def execEnumerateTemplateCount (addr : Word32) (s : State) : Host.Outcome State Fault Refusal :=
  s.sendCommand addr enumerateTemplateCountPayload

/-- `ledControl` opcode 0x50 (R235). -/
def execLedControl50 (addr : Word32) (s : State) : Host.Outcome State Fault Refusal :=
  s.sendCommand addr ledControl50Payload

/-- `ledControl` opcode 0x51 (R236). -/
def execLedControl51 (addr : Word32) (s : State) : Host.Outcome State Fault Refusal :=
  s.sendCommand addr ledControl51Payload

/-! ## Host-side decoding of responses -/

/-- The meanings of status bytes (R237): `0x00` and `0x09` from the source, the others from general knowledge (G4, log 13). -/
inductive StatusMeaning where
  | success | receiveError | noFinger | captureFailed | imageDisordered | tooFewPoints | noMatch | notFound
  | enrollMismatch | badLocation | templateReadError | templateUploadError | dataPacketsError | imageUploadError
  | deleteFailed | dbClearFailed | wrongPassword | noPrimaryImage | flashError | invalidRegister
  deriving DecidableEq, Repr

/-- The table of R237; a byte it does not list has no meaning the spec gives. -/
def statusMeaning (b : Byte) : Option StatusMeaning :=
  if b = 0x00 then some .success
  else if b = 0x01 then some .receiveError
  else if b = 0x02 then some .noFinger
  else if b = 0x03 then some .captureFailed
  else if b = 0x06 then some .imageDisordered
  else if b = 0x07 then some .tooFewPoints
  else if b = 0x08 then some .noMatch
  else if b = 0x09 then some .notFound
  else if b = 0x0A then some .enrollMismatch
  else if b = 0x0B then some .badLocation
  else if b = 0x0C then some .templateReadError
  else if b = 0x0D then some .templateUploadError
  else if b = 0x0E then some .dataPacketsError
  else if b = 0x0F then some .imageUploadError
  else if b = 0x10 then some .deleteFailed
  else if b = 0x11 then some .dbClearFailed
  else if b = 0x13 then some .wrongPassword
  else if b = 0x15 then some .noPrimaryImage
  else if b = 0x18 then some .flashError
  else if b = 0x1A then some .invalidRegister
  else none

/-- `SearchResult` (R239): the fields are there on success alone, `none` is the "not meaningful" sentinel. -/
structure SearchResult where
  statusCode : Byte
  slotAndConfidence : Option (Half × Half)
  deriving DecidableEq, Repr

/-- The decode of a search response (R239); nothing is read past a status other than success. -/
def decodeSearch : List Byte → Except Fault SearchResult
  | [] => .error .notMeaningful
  | st :: rest =>
    if st = 0 then
      match rest with
      | s1 :: s0 :: c1 :: c0 :: _ => .ok { statusCode := st, slotAndConfidence := some (be16 s1 s0, be16 c1 c0) }
      | _ => .error .notMeaningful
    else .ok { statusCode := st, slotAndConfidence := none }

/-- Reading the slot of a search result: a fault where it is not meaningful (U18). -/
def SearchResult.slot (r : SearchResult) : Except Fault Half :=
  match r.slotAndConfidence with
  | some (s, _) => .ok s
  | none => .error .notMeaningful

/-- Reading the confidence of a search result: a fault where it is not meaningful (U18). -/
def SearchResult.confidence (r : SearchResult) : Except Fault Half :=
  match r.slotAndConfidence with
  | some (_, c) => .ok c
  | none => .error .notMeaningful

/-- The template count of a response (R240): `be16(p[1], p[2])`, on success alone (R222). -/
def decodeTemplateCount : List Byte → Except Fault Half
  | st :: c1 :: c0 :: _ => if st = 0 then .ok (be16 c1 c0) else .error .notMeaningful
  | _ => .error .notMeaningful

/-- `SensorParameters` (R238). -/
structure SensorParameters where
  statusRegister : Half
  systemId : Half
  libraryCapacity : Half
  securityLevel : Half
  deviceAddress : Word32
  packetSizeCode : Half
  baudMultiplier : Half
  deriving DecidableEq, Repr

/-- The decode of a `readParameters` response of 17 bytes (R231, R238), on success alone (R222). DESIGN CHOICE (log 13, safe): a
payload of any other length, shorter or longer, has no decode in the spec and is `notMeaningful`, never a value. -/
def decodeSensorParameters : List Byte → Except Fault SensorParameters
  | [st, r1, r0, i1, i0, c1, c0, s1, s0, a3, a2, a1, a0, p1, p0, b1, b0] =>
    if st = 0 then
      .ok { statusRegister := be16 r1 r0, systemId := be16 i1 i0, libraryCapacity := be16 c1 c0,
            securityLevel := be16 s1 s0, deviceAddress := be32 a3 a2 a1 a0, packetSizeCode := be16 p1 p0,
            baudMultiplier := be16 b1 b0 }
    else .error .notMeaningful
  | _ => .error .notMeaningful

/-- The packet size `32 << code` for codes 0 to 3 (R238); a code above 3 has no meaning (U19). -/
def SensorParameters.packetSize (p : SensorParameters) : Except Fault Nat :=
  if p.packetSizeCode.toNat ≤ 3 then .ok (32 * 2 ^ p.packetSizeCode.toNat) else .error (.packetSizeCode p.packetSizeCode)

/-- `baud = 9600 * multiplier` (R238). -/
def SensorParameters.baud (p : SensorParameters) : Nat := Config.baudBase * p.baudMultiplier.toNat

/-- A response decoded by its operation's catalog entry (R222). -/
inductive Response where
  /-- a status and nothing further: the simple confirmations. -/
  | confirmation (status : Byte)
  | search (r : SearchResult)
  | templateCount (n : Half)
  | parameters (p : SensorParameters)
  deriving DecidableEq, Repr

/-- The opcodes whose response is `[status]` (R223, R224, R226 to R230, R232, R233, R235, R236). -/
def confirmationOpcodes : List Byte := [0x01, 0x02, 0x05, 0x06, 0x07, 0x0C, 0x0D, 0x12, 0x13, 0x50, 0x51]

/-- The decode of a simple confirmation (R222): its status, and nothing further. -/
def decodeConfirmation : List Byte → Except Fault Byte
  | [] => .error .notMeaningful
  | st :: _ => .ok st

/-- The decoder that the catalog has for an opcode (R223 to R236), on a response payload. DESIGN CHOICE (log 13,
safe): an opcode the catalog does not list has none (U20), and its response is `notMeaningful`. -/
def decodeByOpcode (op : Byte) (payload : List Byte) : Except Fault Response :=
  if op = 0x04 then (decodeSearch payload).map .search
  else if op = 0x0F then (decodeSensorParameters payload).map .parameters
  else if op = 0x1D then (decodeTemplateCount payload).map .templateCount
  else if op ∈ confirmationOpcodes then (decodeConfirmation payload).map .confirmation
  else .error .notMeaningful

/-- The decode of a response by the catalog entry of the request it answers: the request's first byte picks it (R221, R241
step 5). -/
def CommandRequest.decodeResponse (c : CommandRequest) (payload : List Byte) : Except Fault Response :=
  match c.payload with
  | [] => .error .notMeaningful
  | op :: _ => decodeByOpcode op payload

/-- The three kinds of a command's result (R242). -/
inductive CommandResult where
  /-- an Acknowledge with status `0x00`, decoded by the catalog entry. -/
  | success (response : Except Fault Response)
  /-- an Acknowledge with another status, an expected outcome, with what the catalog entry's decode gives of it. -/
  | deviceStatus (status : Byte) (response : Except Fault Response)
  /-- a transport-level condition. -/
  | transportError (result : Result)
  deriving DecidableEq, Repr

/-- What a command returns: the `InvalidRequest` of its `ENCODE`, or a result (R241 steps 2 and 5). -/
inductive CommandReturn where
  | invalidRequest (reason : EncodeReason)
  | result (r : CommandResult)
  deriving DecidableEq, Repr

/-- What a taken record is to the command that waited for it (R241 step 5, R242). Nothing is given for an `OK` frame that is
no Acknowledge, for an Acknowledge without a status byte, and for an empty slot: the spec leaves those open (log 13). -/
def CommandRequest.result (c : CommandRequest) (r : Record) : Option CommandResult :=
  match r.result with
  | .ok =>
    if r.ptype = 7 then
      match r.payload with
      | [] => none
      | st :: _ =>
        some (if st = 0 then .success (c.decodeResponse r.payload) else .deviceStatus st (c.decodeResponse r.payload))
    else none
  | .checksumMismatch => some (.transportError .checksumMismatch)
  | .frameTooLarge => some (.transportError .frameTooLarge)
  | .framingTimeout => some (.transportError .framingTimeout)
  | .frameMalformed => some (.transportError .frameMalformed)
  | .none => none
  | .reserved6 => none
  | .reserved7 => none

/-- What a command returns, by what the operation that ends its cycle returned: the `ENCODE` where the request is invalid, the
`TAKE` otherwise (R241). -/
def CommandRequest.returned (c : CommandRequest) : Ret → Option CommandReturn
  | .invalidRequest reason => some (.invalidRequest reason)
  | .record r => (c.result r).map .result
  | .nothing => none
  | .encoded _ => none
  | .sum _ => none
  | .verdict _ => none
  | .word _ => none

end Sys2Proof.Machine
end

