-- ==== Sys2Proof/Machine/ChecksumValidator.lean ====
section
/-! DEFINITION. The checksum_validator's operations (41_checksum_validator.md). -/

namespace Sys2Proof.Machine

/-- `CHECKSUM` (R162): `L` need not be the payload's; total; changes nothing. -/
def execChecksum (ptype : Byte) (len : Half) (payload : List Byte) (s : State) : Host.Outcome State Fault Refusal :=
  s.done (s.block, .sum (checksum s.params.csumLenMode ptype len payload))

/-- `VERIFY` (R163): the start code and the address do not enter (R164), the structure is not checked (D31). -/
def execVerify (_start : Half) (_addr : Word32) (ptype : Byte) (len : Half) (payload : List Byte) (csum : Half)
    (s : State) : Host.Outcome State Fault Refusal :=
  s.done (s.block, .verdict (decide (checksum s.params.csumLenMode ptype len payload = csum)))

end Sys2Proof.Machine
end

