-- ==== Sys2Proof/Machine/FrameCodec.lean ====
section
/-! DEFINITION. The frame_codec's operations (40_frame_codec.md). -/

namespace Sys2Proof.Machine

/-- `ENCODE` (R141): writes `tx_stream` alone, and only where the request is valid (R142). -/
def execEncode (addr : Word32) (ptype : Byte) (payload : List Byte) (s : State) : Host.Outcome State Fault Refusal :=
  s.done (s.block.encode s.params addr ptype payload)

/-- `DECODE` (R144): returns a record and changes nothing. -/
def execDecode (bs : List Byte) (s : State) : Host.Outcome State Fault Refusal :=
  match decodeBytes s.params bs with
  | .ok r => s.done (s.block, .record r)
  | .error f => .fault f

end Sys2Proof.Machine
end

