-- ==== Sys2Proof/Machine/Frames.lean ====
section
/-! DEFINITION. The FRAME rows (30_encoding.md R100, R103): a wire frame of each packet type delivered to the receiver, byte
by byte, with no other operation between (42_reassembler.md R181, R193, log 6). The reassembler filters on none of the start
code, the address and the type (R186). -/

namespace Sys2Proof.Machine

/-- A Command frame, type 0x01. -/
def execFrameCommand (start : Half) (addr : Word32) (payload : List Byte) (csum : Half) (s : State) :
    Host.Outcome State Fault Refusal :=
  s.deliverFrame start addr 1 payload csum

/-- A Data frame, type 0x02. -/
def execFrameData (start : Half) (addr : Word32) (payload : List Byte) (csum : Half) (s : State) :
    Host.Outcome State Fault Refusal :=
  s.deliverFrame start addr 2 payload csum

/-- An Acknowledge frame, type 0x07. -/
def execFrameAck (start : Half) (addr : Word32) (payload : List Byte) (csum : Half) (s : State) :
    Host.Outcome State Fault Refusal :=
  s.deliverFrame start addr 7 payload csum

/-- An EndOfData frame, type 0x08. -/
def execFrameEndOfData (start : Half) (addr : Word32) (payload : List Byte) (csum : Half) (s : State) :
    Host.Outcome State Fault Refusal :=
  s.deliverFrame start addr 8 payload csum

end Sys2Proof.Machine
end

