-- ==== Sys2Proof/Machine/Reassembler.lean ====
section
/-! DEFINITION. The packet_reassembler's operations (42_reassembler.md) and `RESET` (70_reset_and_hazards.md). -/

namespace Sys2Proof.Machine

/-- `RX_BYTE` (R181). -/
def execRxByte (b : Byte) (s : State) : Host.Outcome State Fault Refusal :=
  s.doneBlock (s.block.rxByte s.params b)

/-- `ARM` (R189). -/
def execArm (limit : Word32) (s : State) : Host.Outcome State Fault Refusal :=
  s.done (s.block.arm limit, .nothing)

/-- `TICK` (R190). -/
def execTick (s : State) : Host.Outcome State Fault Refusal :=
  s.done (s.block.tick, .nothing)

/-- `TAKE` (R191). -/
def execTake (s : State) : Host.Outcome State Fault Refusal :=
  s.doneOrFault s.block.take

/-- `READ_REG` (R192): an index above 7 is refused (R269). -/
def execReadReg (index : Byte) (s : State) : Host.Outcome State Fault Refusal :=
  match s.block.register s.params index.toNat with
  | none => .refused (.unassignedRegister index)
  | some (.ok v) => s.done (s.block, .word v)
  | some (.error f) => .fault f

/-- `RESET` (R300). -/
def execReset (s : State) : Host.Outcome State Fault Refusal :=
  s.done (s.block.resetOp, .nothing)

end Sys2Proof.Machine
end

