-- ==== Sys2Proof/Machine/Dispatch.lean ====
section
/-! DEFINITION. One arm for each row of the opcode table. -/

namespace Sys2Proof.Machine

def exec (i : Instr) (s : State) : Host.Outcome State Fault Refusal :=
  match i with
  | .encode addr ptype payload => Sys2Proof.Machine.execEncode addr ptype payload s
  | .decode bs => Sys2Proof.Machine.execDecode bs s
  | .checksum ptype len payload => Sys2Proof.Machine.execChecksum ptype len payload s
  | .verify start addr ptype len payload csum => Sys2Proof.Machine.execVerify start addr ptype len payload csum s
  | .rxByte b => Sys2Proof.Machine.execRxByte b s
  | .arm limit => Sys2Proof.Machine.execArm limit s
  | .tick => Sys2Proof.Machine.execTick s
  | .take => Sys2Proof.Machine.execTake s
  | .readReg index => Sys2Proof.Machine.execReadReg index s
  | .reset => Sys2Proof.Machine.execReset s
  | .frameCommand start addr payload csum => Sys2Proof.Machine.execFrameCommand start addr payload csum s
  | .frameData start addr payload csum => Sys2Proof.Machine.execFrameData start addr payload csum s
  | .frameAck start addr payload csum => Sys2Proof.Machine.execFrameAck start addr payload csum s
  | .frameEndOfData start addr payload csum => Sys2Proof.Machine.execFrameEndOfData start addr payload csum s
  | .getImage addr => Sys2Proof.Machine.execGetImage addr s
  | .extractFeatures addr slot => Sys2Proof.Machine.execExtractFeatures addr slot s
  | .search addr slot start count => Sys2Proof.Machine.execSearch addr slot start count s
  | .mergeFeatures addr => Sys2Proof.Machine.execMergeFeatures addr s
  | .storeTemplate addr slot page => Sys2Proof.Machine.execStoreTemplate addr slot page s
  | .loadTemplate addr slot page => Sys2Proof.Machine.execLoadTemplate addr slot page s
  | .deleteTemplate addr page count => Sys2Proof.Machine.execDeleteTemplate addr page count s
  | .emptyLibrary addr => Sys2Proof.Machine.execEmptyLibrary addr s
  | .readParameters addr => Sys2Proof.Machine.execReadParameters addr s
  | .setPassword addr password => Sys2Proof.Machine.execSetPassword addr password s
  | .verifyPassword addr password => Sys2Proof.Machine.execVerifyPassword addr password s
  | .enumerateTemplateCount addr => Sys2Proof.Machine.execEnumerateTemplateCount addr s
  | .ledControl50 addr => Sys2Proof.Machine.execLedControl50 addr s
  | .ledControl51 addr => Sys2Proof.Machine.execLedControl51 addr s

end Sys2Proof.Machine
end

