-- ==== Sys2Proof/WellFormed.lean ====
section
/-! DEFINITION. Which instructions have an encoding: the counts and length fields must hold their values in 16 bits. -/

namespace Sys2Proof

/-- A payload whose count fits the 16-bit `n` of its record (30_encoding.md R115: `n <= 65535`). -/
def countFits (p : List Byte) : Bool := decide (p.length ≤ 65535)

/-- A payload whose length field `L = N + 2` fits 16 bits (R100, R102). -/
def frameFits (p : List Byte) : Bool := decide (p.length ≤ 65533)

/-- The check, one line for each constructor. Every other operand has its width from its type. -/
def Instr.wf : Instr → Bool
  | .encode _ _ p => countFits p
  | .decode bs => countFits bs
  | .checksum _ _ p => countFits p
  | .verify _ _ _ _ p _ => countFits p
  | .rxByte _ => true
  | .arm _ => true
  | .tick => true
  | .take => true
  | .readReg _ => true
  | .reset => true
  | .frameCommand _ _ p _ => frameFits p
  | .frameData _ _ p _ => frameFits p
  | .frameAck _ _ p _ => frameFits p
  | .frameEndOfData _ _ p _ => frameFits p
  | .getImage _ => true
  | .extractFeatures _ _ => true
  | .search _ _ _ _ => true
  | .mergeFeatures _ => true
  | .storeTemplate _ _ _ => true
  | .loadTemplate _ _ _ => true
  | .deleteTemplate _ _ _ => true
  | .emptyLibrary _ => true
  | .readParameters _ => true
  | .setPassword _ _ => true
  | .verifyPassword _ _ => true
  | .enumerateTemplateCount _ => true
  | .ledControl50 _ => true
  | .ledControl51 _ => true

/-- An instruction that has an encoding. -/
abbrev WellFormed (i : Instr) : Prop := i.wf = true

end Sys2Proof
end

