-- ==== Sys2Proof/Decode.lean ====
section
/-! DEFINITION. The decoder, total on any bytes and rejecting by name, and after it the encoder, from the same tables
(30_encoding.md R100, R103, R110, R111; 43_command_catalog.md R223 to R236). The three formats of the opcode table are told
apart by the form in which the instruction is issued, never by its bits. -/

namespace Sys2Proof

open Sys2Proof.Machine

/-- Why bytes are no instruction. -/
inductive DecodeError where
  /-- no byte at all. -/
  | empty
  /-- a selector outside R110 (R112). -/
  | reservedSelector (sel : Byte)
  /-- a record shorter than its selector and its count say (log 12). -/
  | truncated
  /-- bytes after the one record that a strict reading takes. -/
  | trailing
  /-- not one whole frame: no header, `L < 2`, or another number of bytes than `9 + L`. -/
  | notOneFrame
  /-- a type byte outside R103 (R104): no FRAME row. -/
  | reservedType (t : Byte)
  /-- an opcode outside R223 to R236: no CMD row. -/
  | unlistedOpcode (op : Byte)
  /-- a listed opcode with another argument layout than its rule's. -/
  | badArguments (op : Byte)
  deriving DecidableEq, Repr

/-! ## Format OP: operation records (R110, R111) -/

/-- `addr`:4, `type`:1, `n`:2, `payload`:n. -/
def decodeEncodeOperands : List Byte → Except DecodeError (Instr × List Byte)
  | a3 :: a2 :: a1 :: a0 :: t :: n1 :: n0 :: rest =>
    match takeBytes (be16 n1 n0).toNat rest with
    | some (p, rest') => .ok (.encode (be32 a3 a2 a1 a0) t p, rest')
    | none => .error .truncated
  | _ => .error .truncated

/-- `n`:2, `bytes`:n. -/
def decodeDecodeOperands : List Byte → Except DecodeError (Instr × List Byte)
  | n1 :: n0 :: rest =>
    match takeBytes (be16 n1 n0).toNat rest with
    | some (p, rest') => .ok (.decode p, rest')
    | none => .error .truncated
  | _ => .error .truncated

/-- `type`:1, `L`:2, `n`:2, `payload`:n. -/
def decodeChecksumOperands : List Byte → Except DecodeError (Instr × List Byte)
  | t :: l1 :: l0 :: n1 :: n0 :: rest =>
    match takeBytes (be16 n1 n0).toNat rest with
    | some (p, rest') => .ok (.checksum t (be16 l1 l0) p, rest')
    | none => .error .truncated
  | _ => .error .truncated

/-- `start`:2, `addr`:4, `type`:1, `L`:2, `n`:2, `payload`:n, `csum`:2. -/
def decodeVerifyOperands : List Byte → Except DecodeError (Instr × List Byte)
  | s1 :: s0 :: a3 :: a2 :: a1 :: a0 :: t :: l1 :: l0 :: n1 :: n0 :: rest =>
    match takeBytes (be16 n1 n0).toNat rest with
    | some (p, c1 :: c0 :: rest') =>
      .ok (.verify (be16 s1 s0) (be32 a3 a2 a1 a0) t (be16 l1 l0) p (be16 c1 c0), rest')
    | _ => .error .truncated
  | _ => .error .truncated

/-- `b`:1. -/
def decodeRxByteOperands : List Byte → Except DecodeError (Instr × List Byte)
  | b :: rest => .ok (.rxByte b, rest)
  | _ => .error .truncated

/-- `limit`:4. -/
def decodeArmOperands : List Byte → Except DecodeError (Instr × List Byte)
  | l3 :: l2 :: l1 :: l0 :: rest => .ok (.arm (be32 l3 l2 l1 l0), rest)
  | _ => .error .truncated

/-- `index`:1; an index above 7 is an instruction all the same, and its meaning refuses it (R192). -/
def decodeReadRegOperands : List Byte → Except DecodeError (Instr × List Byte)
  | index :: rest => .ok (.readReg index, rest)
  | _ => .error .truncated

/-- The operands by the selector (R110); every other selector is reserved (R112). -/
def decodeOperands (sel : Byte) (rest : List Byte) : Except DecodeError (Instr × List Byte) :=
  if sel = 0x01 then decodeEncodeOperands rest
  else if sel = 0x02 then decodeDecodeOperands rest
  else if sel = 0x03 then decodeChecksumOperands rest
  else if sel = 0x04 then decodeVerifyOperands rest
  else if sel = 0x10 then decodeRxByteOperands rest
  else if sel = 0x11 then decodeArmOperands rest
  else if sel = 0x12 then .ok (.tick, rest)
  else if sel = 0x13 then .ok (.take, rest)
  else if sel = 0x14 then decodeReadRegOperands rest
  else if sel = 0x1F then .ok (.reset, rest)
  else .error (.reservedSelector sel)

/-- The first record of a listing, and the bytes after it (R111). -/
def decodeRecord : List Byte → Except DecodeError (Instr × List Byte)
  | [] => .error .empty
  | sel :: rest => decodeOperands sel rest

/-! ## Format FRAME: whole wire frames (R100, R103) -/

/-- The FRAME row by the type byte (R103); other type bytes are reserved (R104). -/
def frameInstr (h : FrameHeader) (payload : List Byte) (csum : Half) : Except DecodeError Instr :=
  if h.ptype = 1 then .ok (.frameCommand h.startCode h.address payload csum)
  else if h.ptype = 2 then .ok (.frameData h.startCode h.address payload csum)
  else if h.ptype = 7 then .ok (.frameAck h.startCode h.address payload csum)
  else if h.ptype = 8 then .ok (.frameEndOfData h.startCode h.address payload csum)
  else .error (.reservedType h.ptype)

/-- One whole frame (R101, R102). -/
def decodeFrame (bs : List Byte) : Except DecodeError Instr :=
  match parseHeader bs with
  | none => .error .notOneFrame
  | some (h, body) =>
    match parseBody h body with
    | none => .error .notOneFrame
    | some (p, c) => frameInstr h p c

/-! ## Format CMD: catalog payloads (R223 to R236) -/

/-- How many argument bytes follow a listed opcode (R223 to R236). -/
def catalogArgs (op : Byte) : Option Nat :=
  if op = 0x01 then some 0
  else if op = 0x02 then some 1
  else if op = 0x04 then some 5
  else if op = 0x05 then some 0
  else if op = 0x06 then some 3
  else if op = 0x07 then some 3
  else if op = 0x0C then some 4
  else if op = 0x0D then some 0
  else if op = 0x0F then some 0
  else if op = 0x12 then some 4
  else if op = 0x13 then some 4
  else if op = 0x1D then some 0
  else if op = 0x50 then some 0
  else if op = 0x51 then some 0
  else none

/-- The CMD rows without arguments. -/
def commandNoArgs (addr : Word32) (op : Byte) : Except DecodeError Instr :=
  if op = 0x01 then .ok (.getImage addr)
  else if op = 0x05 then .ok (.mergeFeatures addr)
  else if op = 0x0D then .ok (.emptyLibrary addr)
  else if op = 0x0F then .ok (.readParameters addr)
  else if op = 0x1D then .ok (.enumerateTemplateCount addr)
  else if op = 0x50 then .ok (.ledControl50 addr)
  else if op = 0x51 then .ok (.ledControl51 addr)
  else .error (.badArguments op)

/-- The CMD row with a slot alone. -/
def commandSlot (addr : Word32) (op s : Byte) : Except DecodeError Instr :=
  if op = 0x02 then .ok (.extractFeatures addr s) else .error (.badArguments op)

/-- The CMD rows with a slot and a page. -/
def commandSlotPage (addr : Word32) (op s p1 p0 : Byte) : Except DecodeError Instr :=
  if op = 0x06 then .ok (.storeTemplate addr s (be16 p1 p0))
  else if op = 0x07 then .ok (.loadTemplate addr s (be16 p1 p0))
  else .error (.badArguments op)

/-- The CMD rows with four argument bytes: a page and a count, or a password. -/
def commandFour (addr : Word32) (op a b c d : Byte) : Except DecodeError Instr :=
  if op = 0x0C then .ok (.deleteTemplate addr (be16 a b) (be16 c d))
  else if op = 0x12 then .ok (.setPassword addr (be32 a b c d))
  else if op = 0x13 then .ok (.verifyPassword addr (be32 a b c d))
  else .error (.badArguments op)

/-- The CMD row with a slot, a start and a count. -/
def commandSearch (addr : Word32) (op s a1 a0 n1 n0 : Byte) : Except DecodeError Instr :=
  if op = 0x04 then .ok (.search addr s (be16 a1 a0) (be16 n1 n0)) else .error (.badArguments op)

/-- The CMD row of a payload, by its first byte (R109) and its argument layout. -/
def decodeCommand (addr : Word32) : List Byte → Except DecodeError Instr
  | [] => .error .empty
  | op :: args =>
    match catalogArgs op with
    | none => .error (.unlistedOpcode op)
    | some _ =>
      match args with
      | [] => commandNoArgs addr op
      | [s] => commandSlot addr op s
      | [s, p1, p0] => commandSlotPage addr op s p1 p0
      | [a, b, c, d] => commandFour addr op a b c d
      | [s, a1, a0, n1, n0] => commandSearch addr op s a1 a0 n1 n0
      | _ => .error (.badArguments op)

/-! ## The decoder -/

/-- One instruction and nothing more, in any of the three forms. -/
def decodeIssue : Issue → Except DecodeError Instr
  | .records bs =>
    match decodeRecord bs with
    | .ok (i, []) => .ok i
    | .ok (_, _ :: _) => .error .trailing
    | .error e => .error e
  | .burst bs => decodeFrame bs
  | .command addr payload => decodeCommand addr payload

/-! ## The encoder -/

/-- `n`:2, `payload`:n. -/
def countedBytes (p : List Byte) : List Byte := bytes16 (BitVec.ofNat 16 p.length) ++ p

/-- The form and the bytes of an instruction, one line for each constructor. -/
def encode : Instr → Issue
  | .encode addr t p => .records ([0x01] ++ bytes32 addr ++ [t] ++ countedBytes p)
  | .decode bs => .records ([0x02] ++ countedBytes bs)
  | .checksum t l p => .records ([0x03, t] ++ bytes16 l ++ countedBytes p)
  | .verify s addr t l p c =>
    .records ([0x04] ++ bytes16 s ++ bytes32 addr ++ [t] ++ bytes16 l ++ countedBytes p ++ bytes16 c)
  | .rxByte b => .records [0x10, b]
  | .arm limit => .records ([0x11] ++ bytes32 limit)
  | .tick => .records [0x12]
  | .take => .records [0x13]
  | .readReg index => .records [0x14, index]
  | .reset => .records [0x1F]
  | .frameCommand s addr p c => .burst (frameBytes s addr 1 p c)
  | .frameData s addr p c => .burst (frameBytes s addr 2 p c)
  | .frameAck s addr p c => .burst (frameBytes s addr 7 p c)
  | .frameEndOfData s addr p c => .burst (frameBytes s addr 8 p c)
  | .getImage addr => .command addr getImagePayload
  | .extractFeatures addr slot => .command addr (extractFeaturesPayload slot)
  | .search addr slot start count => .command addr (searchPayload slot start count)
  | .mergeFeatures addr => .command addr mergeFeaturesPayload
  | .storeTemplate addr slot page => .command addr (storeTemplatePayload slot page)
  | .loadTemplate addr slot page => .command addr (loadTemplatePayload slot page)
  | .deleteTemplate addr page count => .command addr (deleteTemplatePayload page count)
  | .emptyLibrary addr => .command addr emptyLibraryPayload
  | .readParameters addr => .command addr readParametersPayload
  | .setPassword addr pw => .command addr (setPasswordPayload pw)
  | .verifyPassword addr pw => .command addr (verifyPasswordPayload pw)
  | .enumerateTemplateCount addr => .command addr enumerateTemplateCountPayload
  | .ledControl50 addr => .command addr ledControl50Payload
  | .ledControl51 addr => .command addr ledControl51Payload

/-! ## The opcode table's words (log 11) -/

/-- The first `n` bytes of a table word: bits 7..0 are the first byte. -/
def wordBytes : Nat → Nat → List Byte
  | 0, _ => []
  | n + 1, w => BitVec.ofNat 8 w :: wordBytes n (w / 256)

/-- The length in bytes of the record that begins with these bytes (R111: from its selector and its count). -/
def recordLength (bs : List Byte) : Option Nat :=
  let sel := bs.getD 0 0
  let countAt (k : Nat) : Nat := (be16 (bs.getD k 0) (bs.getD (k + 1) 0)).toNat
  if sel = 0x01 then some (8 + countAt 6)
  else if sel = 0x02 then some (3 + countAt 1)
  else if sel = 0x03 then some (6 + countAt 4)
  else if sel = 0x04 then some (14 + countAt 10)
  else if sel = 0x10 ∨ sel = 0x14 then some 2
  else if sel = 0x11 then some 5
  else if sel = 0x12 ∨ sel = 0x13 ∨ sel = 0x1F then some 1
  else none

/-- A table word as an agent issues it, its operand bytes above `nbits` zero. The word of a row is byte 0 of a record
(format OP), byte 6 of a frame (FRAME) or byte 0 of a payload (CMD); eight words stand in rows of two or three formats, and
the first of OP, FRAME, CMD is taken (log 11). -/
def tableIssue (nbits w : Nat) : Issue :=
  let bs := wordBytes (nbits / 8) w
  match recordLength bs with
  | some m => .records ((bs ++ List.replicate m 0).take m)
  | none =>
    if nbits = 8 ∧ isPacketType (bs.getD 0 0) then .burst (frameBytes 0 0 (bs.getD 0 0) [] 0)
    else
      match catalogArgs (bs.getD 0 0) with
      | some k => .command 0 ((bs ++ List.replicate k 0).take (k + 1))
      | none => .records bs

/-- The instruction the decoder reads from a table word. -/
def decodeTableWord (nbits w : Nat) : Option Instr :=
  match decodeIssue (tableIssue nbits w) with
  | .ok i => some i
  | .error _ => none

end Sys2Proof
end

