-- ==== Sys2Proof/Machine/Fetch.lean ====
section
/-! DEFINITION. How an agent's turn finds its next operation, and the program notation's expansions (30_encoding.md R117). -/

namespace Sys2Proof.Machine

/-- Which agent issues an instruction by convention (60_exceptions.md R280); nothing checks it (R277). -/
def issuer : Instr → Agent
  | .encode _ _ _ => .host
  | .decode _ => .host
  | .checksum _ _ _ => .host
  | .verify _ _ _ _ _ _ => .host
  | .rxByte _ => .transport
  | .arm _ => .host
  | .tick => .tickSource
  | .take => .host
  | .readReg _ => .host
  | .reset => .host
  | .frameCommand _ _ _ _ => .transport
  | .frameData _ _ _ _ => .transport
  | .frameAck _ _ _ _ => .transport
  | .frameEndOfData _ _ _ _ => .transport
  | .getImage _ => .host
  | .extractFeatures _ _ => .host
  | .search _ _ _ _ => .host
  | .mergeFeatures _ => .host
  | .storeTemplate _ _ _ => .host
  | .loadTemplate _ _ _ => .host
  | .deleteTemplate _ _ _ => .host
  | .emptyLibrary _ => .host
  | .readParameters _ => .host
  | .setPassword _ _ => .host
  | .verifyPassword _ _ => .host
  | .enumerateTemplateCount _ => .host
  | .ledControl50 _ => .host
  | .ledControl51 _ => .host

/-- The pending items of an agent. -/
def Agents.queue (g : Agents) : Agent → List Item
  | .transport => g.transport
  | .host => g.host
  | .tickSource => g.tickSource

/-- The agents with one agent's pending items replaced. -/
def Agents.setQueue (g : Agents) (a : Agent) (q : List Item) : Agents :=
  match a with
  | .transport => { g with transport := q }
  | .host => { g with host := q }
  | .tickSource => { g with tickSource := q }

/-- The state after agent `a` has used its turn: its pending items are `q`, the turns still to come are `ts`. -/
def State.afterTurn (s : State) (a : Agent) (q : List Item) (ts : List Agent) : State :=
  { s with agents := { s.agents.setQueue a q with turns := ts } }

/-- What a turn does. -/
inductive Turn where
  /-- nothing: the agent has nothing to issue, or is held (R272). -/
  | pass (rest : List Item)
  /-- the agent issues an instruction. -/
  | run (i : Instr) (rest : List Item)
  /-- what the agent issues has no meaning (R21). -/
  | refuse (r : Refusal)
  deriving DecidableEq, Repr

/-- The refusal of a record that does not decode. -/
def decodeRefusal : DecodeError → Refusal
  | .reservedSelector sel => .reservedSelector sel
  | _ => .truncatedRecord

/-- What is left of a listing of records stays pending. -/
def recordsThen (bs : List Byte) (q : List Item) : List Item :=
  match bs with
  | [] => q
  | b :: rest => .issue (.records (b :: rest)) :: q

/-- What is left of a burst stays pending. -/
def burstThen (bs : List Byte) (q : List Item) : List Item :=
  match bs with
  | [] => q
  | b :: rest => .issue (.burst (b :: rest)) :: q

/-- The next operation of an agent whose pending items are given, in an instance with parameters `p` where `DONE` is `done`.
- records: the first record is issued (R111); a reserved selector is refused (R112).
- a burst that is one whole frame of a listed type is its FRAME row; of any other burst the first byte is received, since
  every byte is accepted whatever it is (R104, R186, R187), and the rest stays pending (log 8).
- a command payload of a CMD row's layout is that row; any other payload is the `ENCODE` it stands for (R220, R241, log 8).
- `WAIT`: held while `DONE = 0`, and the item stays; with `DONE = 1` the agent takes the result (R117, R272, log 4).
- a command's cycle (R241, log 18): `ARM`; then `ENCODE`, after which the cycle is over where the request is invalid, since
  the command returns that condition; then it is held like `WAIT`, and takes the result. -/
def nextOperation (p : Config.Params) (done : Bool) : List Item → Turn
  | [] => .pass []
  | .wait :: q => if done then .run .take q else .pass (.wait :: q)
  | .issue (.records []) :: q => .pass q
  | .issue (.records (b :: bs)) :: q =>
    match decodeRecord (b :: bs) with
    | .ok (i, rest) => .run i (recordsThen rest q)
    | .error e => .refuse (decodeRefusal e)
  | .issue (.burst []) :: q => .pass q
  | .issue (.burst (b :: bs)) :: q =>
    match decodeFrame (b :: bs) with
    | .ok i => .run i q
    | .error _ => .run (.rxByte b) (burstThen bs q)
  | .issue (.command addr payload) :: q =>
    match decodeCommand addr payload with
    | .ok i => .run i q
    | .error _ => .run (.encode addr 0x01 payload) q
  | .cycle c .arm :: q => .run (.arm c.limit) (.cycle c .send :: q)
  | .cycle c .send :: q =>
    .run (.encode c.addr 0x01 c.payload) (if (encodeRefusal p 0x01 c.payload).isSome then q else .cycle c .take :: q)
  | .cycle c .take :: q => if done then .run .take q else .pass (.cycle c .take :: q)

/-! ## Pseudo-operations (R117) and the command cycle (R241) as pending items -/

/-- `RXS [b0, ..., bk]`: one `RX` record for each byte, in order. -/
def rxsItem (bs : List Byte) : Item := .issue (.records (bs.flatMap fun b => [0x10, b]))

/-- `TICKS n`: `TICK` repeated `n` times. -/
def ticksItem (n : Nat) : Item := .issue (.records (List.replicate n 0x12))

/-- `SEND a, t, [p...], lim`: `ARM lim`, then `ENCODE a, t, [p...]` (R304). -/
def sendItems (addr : Word32) (ptype : Byte) (payload : List Byte) (limit : Word32) : List Item :=
  [.issue (encode (.arm limit)), .issue (encode (.encode addr ptype payload))]

/-- The host's cycle for one command (R241), from its first step. -/
def commandCycle (addr : Word32) (payload : List Byte) (limit : Word32) : Item :=
  .cycle { addr := addr, payload := payload, limit := limit } .arm

end Sys2Proof.Machine
end

