-- ==== Sys2Proof/Machine/Step.lean ====
section
/-! DEFINITION. One step of the machine: the turn of the agent the environment's order names next (20_memory.md R80). -/

namespace Sys2Proof.Machine

/-- One turn. With no turn to come the block waits (70_reset_and_hazards.md R303, log 3). -/
def step (s : State) : Host.Outcome State Fault Refusal :=
  match s.agents.turns with
  | [] => .next s
  | a :: ts =>
    match nextOperation s.params s.block.done (s.agents.queue a) with
    | .pass q => .next (s.afterTurn a q ts)
    | .run i q => exec i (s.afterTurn a q ts)
    | .refuse r => .refused r

/-- `s` with an item put first in an agent's pending items, and that agent's turn first. -/
def State.withTurn (s : State) (a : Agent) (it : Item) : State :=
  s.afterTurn a (it :: s.agents.queue a) (a :: s.agents.turns)

/-- `s` with a table word's instruction pending and its issuer's turn next (log 3, log 11): the very next step runs it. -/
def State.withFetchWord (s : State) (nbits w : Nat) : State :=
  match decodeTableWord nbits w with
  | some i => s.withTurn (issuer i) (.issue (tableIssue nbits w))
  | none => s.withTurn .host (.issue (tableIssue nbits w))

end Sys2Proof.Machine
end

