-- ==== Sys2Proof/Safety.lean ====
section
/-! DEFINITION. What counts as safe: the invariant of the block between operations (10_state.md R42, with what R33 to R35, R37,
R38 and R43 say of single elements), and a step that does not fault. Beside it the terms the statements use: which rows
receive and which send, a run of instructions, and states that differ in unspecified bytes alone. -/

namespace Sys2Proof

/-- The rows that deliver bytes to the receiver: `RX_BYTE` and the FRAME rows. -/
def Instr.receives : Instr → Bool
  | .encode _ _ _ => false
  | .decode _ => false
  | .checksum _ _ _ => false
  | .verify _ _ _ _ _ _ => false
  | .rxByte _ => true
  | .arm _ => false
  | .tick => false
  | .take => false
  | .readReg _ => false
  | .reset => false
  | .frameCommand _ _ _ _ => true
  | .frameData _ _ _ _ => true
  | .frameAck _ _ _ _ => true
  | .frameEndOfData _ _ _ _ => true
  | .getImage _ => false
  | .extractFeatures _ _ => false
  | .search _ _ _ _ => false
  | .mergeFeatures _ => false
  | .storeTemplate _ _ _ => false
  | .loadTemplate _ _ _ => false
  | .deleteTemplate _ _ _ => false
  | .emptyLibrary _ => false
  | .readParameters _ => false
  | .setPassword _ _ => false
  | .verifyPassword _ _ => false
  | .enumerateTemplateCount _ => false
  | .ledControl50 _ => false
  | .ledControl51 _ => false

/-- The rows that may send a frame: `ENCODE` and the CMD rows. -/
def Instr.sends : Instr → Bool
  | .encode _ _ _ => true
  | .decode _ => false
  | .checksum _ _ _ => false
  | .verify _ _ _ _ _ _ => false
  | .rxByte _ => false
  | .arm _ => false
  | .tick => false
  | .take => false
  | .readReg _ => false
  | .reset => false
  | .frameCommand _ _ _ _ => false
  | .frameData _ _ _ _ => false
  | .frameAck _ _ _ _ => false
  | .frameEndOfData _ _ _ _ => false
  | .getImage _ => true
  | .extractFeatures _ _ => true
  | .search _ _ _ _ => true
  | .mergeFeatures _ => true
  | .storeTemplate _ _ _ => true
  | .loadTemplate _ _ _ => true
  | .deleteTemplate _ _ _ => true
  | .emptyLibrary _ => true
  | .readParameters _ => true
  | .setPassword _ _ => true
  | .verifyPassword _ _ => true
  | .enumerateTemplateCount _ => true
  | .ledControl50 _ => true
  | .ledControl51 _ => true

namespace Machine

/-- The buffer against the count: canonical, inside the capacity, and every byte of the frame in flight written (R34, R70). -/
structure Block.BufferInv (p : Config.Params) (k : Block) : Prop where
  canonical : Memory.wf k.rxBuf
  inside : ∀ c ∈ k.rxBuf, c.1 < p.rxCapacity
  written : ∀ i, i < k.rxCount.toNat → (Memory.lookup k.rxBuf i).isSome = true

/-- The length field of the frame in flight: bytes 7 and 8 of the buffer (R101). -/
def Block.lengthInFlight (k : Block) : Option Half :=
  match Memory.lookup k.rxBuf 7, Memory.lookup k.rxBuf 8 with
  | some a, some b => some (be16 a b)
  | _, _ => none

/-- Where the reassembler stands (R32, R33, R35, R42): the state is the function of the count, and the expected length is 0 in
the header phase and `9 + L`, at least 11 and at most the capacity, in the payload phase. -/
structure Block.PhaseInv (p : Config.Params) (k : Block) : Prop where
  stateOfCount : k.rxState = RxState.ofCount k.rxCount.toNat
  headerPhase : k.rxCount.toNat ≤ 8 → k.rxExpected = 0
  payloadPhase : 9 ≤ k.rxCount.toNat →
    k.rxCount.toNat < k.rxExpected.toNat ∧ 11 ≤ k.rxExpected.toNat ∧ k.rxExpected.toNat ≤ p.rxCapacity
  expectedLength : 9 ≤ k.rxCount.toNat → ∃ len, k.lengthInFlight = some len ∧ k.rxExpected.toNat = 9 + len.toNat

/-- The result slot and its flag (R37, R38, R39, R42). -/
structure Block.SlotInv (p : Config.Params) (k : Block) : Prop where
  emptyIff : k.done = false ↔ k.slot.result = .none
  legalCode : k.slot.result.isReserved = false
  payloadHeld : k.slot.payload.length = k.slot.payloadLen.toNat
  payloadFits : k.slot.payload.length ≤ p.maxPayload

/-- The watchdog (R40, R42, R43): a cycle that waits has no result, and the count is within its bound. -/
structure Block.WatchdogInv (k : Block) : Prop where
  waitingMeansEmpty : k.waiting = true → k.done = false
  countBound : k.wdtCount.toNat ≤ max k.wdtLimit.toNat 1
  countBelow : k.waiting = true → k.wdtCount.toNat < max k.wdtLimit.toNat 1

/-- The invariant of the block between operations. -/
structure Block.Inv (p : Config.Params) (k : Block) : Prop where
  buffer : k.BufferInv p
  phase : k.PhaseInv p
  slot : k.SlotInv p
  watchdog : k.WatchdogInv

/-- The invariant of the machine: parameters within R8's bound, and the block's invariant. -/
structure State.Inv (s : State) : Prop where
  params : s.params.wf
  block : s.block.Inv s.params

/-- A step, or an operation, that does not fault: it is done, or refused because it has no meaning (R21). -/
def NoFault (o : Host.Outcome State Fault Refusal) : Prop := ∀ f, o ≠ .fault f

/-- The byte of the buffer an address reads as, in the terms the frames are stated in: what `lookup` gives. -/
def State.bufByte (s : State) (i : Nat) : Option Byte := Memory.lookup s.block.rxBuf i

/-- Instructions executed one after another with no other operation between them. -/
def runInstrs : List Instr → State → Host.Outcome State Fault Refusal
  | [], s => .next s
  | i :: is, s =>
    match exec i s with
    | .next t => runInstrs is t
    | .fault f => .fault f
    | .refused r => .refused r

/-- Two blocks that differ in the unspecified bytes of the buffer alone: those at and above `rx_count` (R34, U1). -/
def Block.SameButStale (k k' : Block) : Prop :=
  k.withBuf [] = k'.withBuf [] ∧ ∀ j, j < k.rxCount.toNat → Memory.lookup k.rxBuf j = Memory.lookup k'.rxBuf j

/-- Two machines that differ in the unspecified bytes of the buffer alone. -/
def State.SameButStale (s s' : State) : Prop :=
  s.params = s'.params ∧ s.agents = s'.agents ∧ s.ret = s'.ret ∧ s.block.SameButStale s'.block

end Machine

end Sys2Proof
end

