-- ==== Sys2Proof/Certificates/Slice0/Obligations.lean ====
section
/-! DEFINITION. The statements for the provers. Each docstring names the rules or sections of spec/ it rests on, and the log
entries of notes/assumptions where a clause is the model's own choice. Every statement holds for every value of the
instance's parameters that its hypotheses admit, the open `START_CODE` among them. -/

open Sys2Proof Sys2Proof.Machine

/-! ## Issuing, decoding, encoding -/

/-- A turn runs the decoded instruction: an item of any of the three forms that decodes runs its instruction with the item
used up (R80), a listing of records runs its first record and keeps the rest (R111), and using a turn changes nothing but the
turns and that agent's pending items. How items come to an agent is the model's choice (log 3). -/
def Obligations.StepRunsTheIssuedInstruction : Prop :=
  (∀ (s : State) (a : Agent) (ts : List Agent) (w : Issue) (q : List Item) (i : Instr),
    s.agents.turns = a :: ts → s.agents.queue a = .issue w :: q → decodeIssue w = .ok i →
      step s = exec i (s.afterTurn a q ts)) ∧
  (∀ (s : State) (a : Agent) (ts : List Agent) (bs rest : List Byte) (q : List Item) (i : Instr),
    s.agents.turns = a :: ts → s.agents.queue a = .issue (.records bs) :: q → decodeRecord bs = .ok (i, rest) →
      rest ≠ [] → step s = exec i (s.afterTurn a (.issue (.records rest) :: q) ts)) ∧
  (∀ (s : State) (a : Agent) (ts : List Agent) (q : List Item),
    (s.afterTurn a q ts).block = s.block ∧ (s.afterTurn a q ts).params = s.params ∧
    (s.afterTurn a q ts).ret = s.ret ∧ (s.afterTurn a q ts).agents.turns = ts ∧
    (s.afterTurn a q ts).agents.queue a = q ∧
    ∀ b, b ≠ a → (s.afterTurn a q ts).agents.queue b = s.agents.queue b)

/-- What is pending and no row of the table: bytes received that are no whole frame of a listed type are received one by one
(R104, R186), a payload that is no catalog layout is the `ENCODE` it stands for (R220, R241). The model's choice of form: log 8. -/
def Obligations.UnlistedBurstsAndCommandsRun : Prop :=
  (∀ (s : State) (a : Agent) (ts : List Agent) (b : Byte) (bs : List Byte) (q : List Item) (e : DecodeError),
    s.agents.turns = a :: ts → s.agents.queue a = .issue (.burst (b :: bs)) :: q → decodeFrame (b :: bs) = .error e →
      step s = exec (.rxByte b) (s.afterTurn a (burstThen bs q) ts)) ∧
  (∀ (s : State) (a : Agent) (ts : List Agent) (addr : Word32) (p : List Byte) (q : List Item) (e : DecodeError),
    s.agents.turns = a :: ts → s.agents.queue a = .issue (.command addr p) :: q → decodeCommand addr p = .error e →
      step s = exec (.encode addr 0x01 p) (s.afterTurn a q ts))

/-- R112: every selector outside R110 is refused, whatever follows it; it is never a no-op. -/
def Obligations.ReservedSelectorIsRefused : Prop :=
  ∀ (s : State) (a : Agent) (ts : List Agent) (sel : Byte) (rest : List Byte) (q : List Item),
    sel ∉ ([0x01, 0x02, 0x03, 0x04, 0x10, 0x11, 0x12, 0x13, 0x14, 0x1F] : List Byte) →
    s.agents.turns = a :: ts → s.agents.queue a = .issue (.records (sel :: rest)) :: q →
      step s = .refused (.reservedSelector sel)

/-- Decoding the encoding of any well-formed instruction gives it back, with every operand (R100, R111, R221). -/
def Obligations.DecodeOfEncodeIsIdentity : Prop :=
  ∀ i : Instr, WellFormed i → decodeIssue (encode i) = .ok i

/-- Whatever decodes is the encoding of the instruction it decodes to, and that instruction is well formed: each
instruction has one encoding and no bit of it is dropped (R100, R111, R114). -/
def Obligations.EncodeOfDecodeIsIdentity : Prop :=
  ∀ (w : Issue) (i : Instr), decodeIssue w = .ok i → encode i = w ∧ WellFormed i

/-- Words written out from the spec's encodings: records of 30_encoding.md R111 (the programs of 95_test_vectors.md), frames
of R100 and payloads of R223 to R236. -/
def Obligations.SpecWordsDecode : Prop :=
  decodeIssue (.records [0x11, 0x00, 0x00, 0x00, 0x64]) = .ok (.arm 100) ∧
  decodeIssue (.records [0x01, 0xFF, 0xFF, 0xFF, 0xFF, 0x01, 0x00, 0x01, 0x1D]) = .ok (.encode 0xFFFFFFFF 0x01 [0x1D]) ∧
  decodeIssue (.records [0x10, 0xEF]) = .ok (.rxByte 0xEF) ∧
  decodeIssue (.records [0x14, 0x01]) = .ok (.readReg 1) ∧
  decodeIssue (.burst [0xEF, 0x01, 0xFF, 0xFF, 0xFF, 0xFF, 0x07, 0x00, 0x03, 0x09, 0x00, 0x13]) =
    .ok (.frameAck 0xEF01 0xFFFFFFFF [0x09] 0x0013) ∧
  decodeIssue (.command 0xFFFFFFFF [0x04, 0x01, 0x00, 0x00, 0x00, 0xA3]) = .ok (.search 0xFFFFFFFF 1 0 163)

/-! ## The frame codec -/

/-- R143 (derived by the spec) and the layout of R100, with the completion of `ENCODE` (R141): a valid request answers a state in which exactly the
frame is appended to `tx_stream` and returned and nothing else changes. The frame is start code, address, type, length,
payload, checksum, each multi-byte field most significant byte first: it has `11 + n` bytes, the start code in its first two
whatever the arguments, `n + 2` in bytes 7..8 and the checksum in its last two. -/
def Obligations.EncodeEmitsItsFrame : Prop :=
  ∀ (s : State) (addr : Word32) (t : Byte) (p : List Byte),
    s.params.wf → p.length ≤ s.params.maxPayload → t ∈ ([1, 2, 7, 8] : List Byte) →
    ∃ (f : List Byte) (b7 b8 : Byte),
      exec (.encode addr t p) s =
        .next (s.finishOp { s.block with txStream := s.block.txStream ++ f } (.encoded f)) ∧
      f = [s.params.startCode.extractLsb' 8 8, s.params.startCode.extractLsb' 0 8,
           addr.extractLsb' 24 8, addr.extractLsb' 16 8, addr.extractLsb' 8 8, addr.extractLsb' 0 8, t, b7, b8] ++ p ++
          [(checksum s.params.csumLenMode t (BitVec.ofNat 16 (p.length + 2)) p).extractLsb' 8 8,
           (checksum s.params.csumLenMode t (BitVec.ofNat 16 (p.length + 2)) p).extractLsb' 0 8] ∧
      b7.toNat * 256 + b8.toNat = p.length + 2 ∧ f.length = 11 + p.length

/-- R142: the length is checked first, then the type; the first that holds is reported, with its code; a successful encode
returns `ENC_OK = 0`. R267: an invalid request emits nothing and changes no state of the block. -/
def Obligations.InvalidEncodeRequests : Prop :=
  (∀ (s : State) (addr : Word32) (t : Byte) (p : List Byte),
    (s.params.maxPayload < p.length →
      exec (.encode addr t p) s = .next (s.finishOp s.block (.invalidRequest .payloadTooLong))) ∧
    (p.length ≤ s.params.maxPayload → t ∉ ([1, 2, 7, 8] : List Byte) →
      exec (.encode addr t p) s = .next (s.finishOp s.block (.invalidRequest .badType))) ∧
    (p.length ≤ s.params.maxPayload → t ∈ ([1, 2, 7, 8] : List Byte) →
      ∃ u, exec (.encode addr t p) s = .next u ∧ u.ret.encodeStatus = some 0)) ∧
  (Ret.invalidRequest .payloadTooLong).encodeStatus = some 1 ∧ (Ret.invalidRequest .badType).encodeStatus = some 1 ∧
  EncodeReason.code .payloadTooLong = 1 ∧ EncodeReason.code .badType = 2

/-- R144, the completion of `DECODE`: on every byte sequence it answers a state that differs in the returned record alone,
and the record is the one of the first check that holds, in the rule's order. -/
def Obligations.DecodeReportsByItsChecks : Prop :=
  ∀ (s : State) (bs : List Byte),
    (bs.length < 9 →
      exec (.decode bs) s = .next (s.finishOp s.block (.record
        { result := .frameMalformed, startCode := 0, address := 0, ptype := 0, length := 0, payloadLen := 0, payload := [],
          rxChecksum := 0, calcChecksum := 0 }))) ∧
    (∀ (sc : Half) (addr : Word32) (t : Byte) (len : Half) (body : List Byte),
      bs = bytes16 sc ++ bytes32 addr ++ [t] ++ bytes16 len ++ body →
      (len.toNat < 2 ∨ (len.toNat + 9 ≤ s.params.rxCapacity ∧ body.length ≠ len.toNat) →
        exec (.decode bs) s = .next (s.finishOp s.block (.record
          { result := .frameMalformed, startCode := sc, address := addr, ptype := t, length := len, payloadLen := 0,
            payload := [], rxChecksum := 0, calcChecksum := 0 }))) ∧
      (2 ≤ len.toNat → s.params.rxCapacity < 9 + len.toNat →
        exec (.decode bs) s = .next (s.finishOp s.block (.record
          { result := .frameTooLarge, startCode := sc, address := addr, ptype := t, length := len, payloadLen := 0,
            payload := [], rxChecksum := 0, calcChecksum := 0 }))) ∧
      (∀ (p : List Byte) (c : Half), body = p ++ bytes16 c → p.length + 2 = len.toNat →
        9 + len.toNat ≤ s.params.rxCapacity →
        exec (.decode bs) s = .next (s.finishOp s.block (.record
          { result := if checksum s.params.csumLenMode t len p = c then .ok else .checksumMismatch,
            startCode := sc, address := addr, ptype := t, length := len, payloadLen := BitVec.ofNat 16 p.length,
            payload := p, rxChecksum := c, calcChecksum := checksum s.params.csumLenMode t len p }))))

/-- R146 (derived by the spec): what `ENCODE` returns, `DECODE` parses back to the same fields, with the checksum verified. -/
def Obligations.EncodeDecodeRoundTrip : Prop :=
  ∀ (s : State) (addr : Word32) (t : Byte) (p : List Byte),
    s.params.wf → p.length ≤ s.params.maxPayload → t ∈ ([1, 2, 7, 8] : List Byte) →
    ∃ (u : State) (f : List Byte) (v : State) (r : Record),
      exec (.encode addr t p) s = .next u ∧ u.ret = .encoded f ∧
      exec (.decode f) u = .next v ∧ v.ret = .record r ∧
      r.result = .ok ∧ r.startCode = s.params.startCode ∧ r.address = addr ∧ r.ptype = t ∧
      r.length.toNat = p.length + 2 ∧ r.payloadLen.toNat = p.length ∧ r.payload = p ∧ r.rxChecksum = r.calcChecksum

/-! ## The checksum validator -/

/-- R161, with the completions of `CHECKSUM` (R162) and `VERIFY` (R163): the value returned is the sum modulo 2^16 of the
type, the length value (in either mode) and the payload bytes; `VERIFY` compares it; the block is unchanged. -/
def Obligations.ChecksumIsTheSum : Prop :=
  ∀ (s : State) (start : Half) (addr : Word32) (t : Byte) (len : Half) (p : List Byte) (c : Half),
    ∃ v : Half,
      v.toNat = (t.toNat +
        (match s.params.csumLenMode with
          | .value16 => len.toNat
          | .byteSum => (len.extractLsb' 8 8).toNat + (len.extractLsb' 0 8).toNat) +
        (p.map BitVec.toNat).sum) % 65536 ∧
      exec (.checksum t len p) s = .next (s.finishOp s.block (.sum v)) ∧
      exec (.verify start addr t len p c) s = .next (s.finishOp s.block (.verdict (decide (v = c))))

/-- R164: a frame whose start-code or address bytes were corrupted still verifies: neither enters `VERIFY`, and `DECODE` of a
frame reports the same result code whatever they are. -/
def Obligations.StartCodeAndAddressAreNotSummed : Prop :=
  (∀ (s : State) (st st' : Half) (a a' : Word32) (t : Byte) (len : Half) (p : List Byte) (c : Half),
    exec (.verify st a t len p c) s = exec (.verify st' a' t len p c) s) ∧
  (∀ (s : State) (st st' : Half) (a a' : Word32) (rest : List Byte), 3 ≤ rest.length →
    ∃ (r r' : Record),
      exec (.decode (bytes16 st ++ bytes32 a ++ rest)) s = .next (s.finishOp s.block (.record r)) ∧
      exec (.decode (bytes16 st' ++ bytes32 a' ++ rest)) s = .next (s.finishOp s.block (.record r')) ∧
      r.result = r'.result)

/-- R165 (derived by the spec): where a record verifies, flipping one bit of the type, of the length or of one payload byte makes `VERIFY` fail in
either mode, flipping one bit of the stored checksum does too, and flipping one of the start code or the address does not. -/
def Obligations.ChecksumSingleBitSensitivity : Prop :=
  ∀ (s : State) (st : Half) (a : Word32) (t : Byte) (len : Half) (p : List Byte) (c : Half),
    exec (.verify st a t len p c) s = .next (s.finishOp s.block (.verdict true)) →
    (∀ k, k < 8 → exec (.verify st a (t ^^^ BitVec.twoPow 8 k) len p c) s =
      .next (s.finishOp s.block (.verdict false))) ∧
    (∀ (j k : Nat) (b : Byte), k < 8 → p[j]? = some b →
      exec (.verify st a t len (p.set j (b ^^^ BitVec.twoPow 8 k)) c) s =
        .next (s.finishOp s.block (.verdict false))) ∧
    (∀ k, k < 16 → exec (.verify st a t (len ^^^ BitVec.twoPow 16 k) p c) s =
      .next (s.finishOp s.block (.verdict false))) ∧
    (∀ k, k < 16 → exec (.verify st a t len p (c ^^^ BitVec.twoPow 16 k)) s =
      .next (s.finishOp s.block (.verdict false))) ∧
    (∀ k, k < 16 → exec (.verify (st ^^^ BitVec.twoPow 16 k) a t len p c) s =
      .next (s.finishOp s.block (.verdict true))) ∧
    (∀ k, k < 32 → exec (.verify st (a ^^^ BitVec.twoPow 32 k) t len p c) s =
      .next (s.finishOp s.block (.verdict true)))

/-- R166 (derived by the spec): with `MAX_PAYLOAD = 254` the sum of an accepted frame never wraps: it is at most 65281 in `VALUE16` mode, which is
met, and at most 65280 in `BYTESUM` mode (a bound that no accepted frame meets, log 17); `CHECKSUM` with arbitrary `L` wraps. -/
def Obligations.AcceptedSumsNeverWrap : Prop :=
  (∀ (t : Byte) (p : List Byte), p.length ≤ 254 →
    checksumSum .value16 t (BitVec.ofNat 16 (p.length + 2)) p ≤ 65281 ∧
    checksumSum .byteSum t (BitVec.ofNat 16 (p.length + 2)) p ≤ 65280) ∧
  checksumSum .value16 255 256 (List.replicate 254 255) = 65281 ∧
  65536 ≤ checksumSum .value16 0xFF 0xFFFF [0x02]

/-- R167 (derived by the spec): the two readings of the length give the same checksum iff `L < 256`; among the lengths this hardware accepts
(`L <= 256`) only 256 tells them apart. -/
def Obligations.ChecksumModesAgreeBelow256 : Prop :=
  ∀ (t : Byte) (len : Half) (p : List Byte),
    (checksum .value16 t len p = checksum .byteSum t len p ↔ len.toNat < 256) ∧
    checksumSum .value16 t len p - checksumSum .byteSum t len p = 255 * (len.extractLsb' 8 8).toNat ∧
    (len.toNat ≤ 256 → checksum .value16 t len p ≠ checksum .byteSum t len p → len = 256)

/-! ## Reception -/

/-- R182, with the completion of `RX_BYTE` in the header phase: bytes 0..7 are stored, counted and not checked. -/
def Obligations.RxByteHeaderPhase : Prop :=
  ∀ (s : State) (b : Byte), s.Inv → s.block.rxCount.toNat < 8 →
    exec (.rxByte b) s = .next (s.finishOp
      { s.block with
        rxBuf := Memory.insert s.block.rxBuf s.block.rxCount.toNat b
        rxCount := s.block.rxCount + 1
        rxState := .accumulatingHeader } .nothing)

/-- R183 with R264 and R265: at the ninth byte the length field is checked on unbounded naturals; below 2 the header is
latched as `FRAME_MALFORMED`, above the capacity as `FRAME_TOO_LARGE`, and otherwise `rx_expected` is `9 + L`. -/
def Obligations.NinthByteChecksTheLength : Prop :=
  ∀ (s : State) (s1 s0 a3 a2 a1 a0 t l1 b : Byte), s.Inv → s.block.rxCount = 8 →
    (∀ i, i < 8 → s.bufByte i = [s1, s0, a3, a2, a1, a0, t, l1][i]?) →
    (((be16 l1 b).toNat < 2 →
      exec (.rxByte b) s = .next (s.finishOp
        (Block.finish { s.block with rxBuf := Memory.insert s.block.rxBuf 8 b }
          { result := .frameMalformed, startCode := be16 s1 s0, address := be32 a3 a2 a1 a0, ptype := t,
            length := be16 l1 b, payloadLen := 0, payload := [], rxChecksum := 0, calcChecksum := 0 }) .nothing)) ∧
    (s.params.rxCapacity < 9 + (be16 l1 b).toNat →
      exec (.rxByte b) s = .next (s.finishOp
        (Block.finish { s.block with rxBuf := Memory.insert s.block.rxBuf 8 b }
          { result := .frameTooLarge, startCode := be16 s1 s0, address := be32 a3 a2 a1 a0, ptype := t,
            length := be16 l1 b, payloadLen := 0, payload := [], rxChecksum := 0, calcChecksum := 0 }) .nothing)) ∧
    (2 ≤ (be16 l1 b).toNat → 9 + (be16 l1 b).toNat ≤ s.params.rxCapacity →
      exec (.rxByte b) s = .next (s.finishOp
        { s.block with
          rxBuf := Memory.insert s.block.rxBuf 8 b
          rxCount := 9
          rxExpected := BitVec.ofNat 16 (9 + (be16 l1 b).toNat)
          rxState := .accumulatingPayload } .nothing)))

/-- R184: payload bytes are stored, and the byte that makes the count reach `rx_expected` completes the frame in the same
operation: its type, length and payload are summed, compared with its last two bytes, and latched with every field. -/
def Obligations.PayloadBytesAndCompletion : Prop :=
  ∀ (s : State) (f : List Byte) (b : Byte), s.Inv → 9 ≤ s.block.rxCount.toNat → f.length = s.block.rxCount.toNat →
    (∀ i, i < f.length → s.bufByte i = f[i]?) →
    (s.block.rxCount.toNat + 1 < s.block.rxExpected.toNat →
      exec (.rxByte b) s = .next (s.finishOp
        { s.block with
          rxBuf := Memory.insert s.block.rxBuf s.block.rxCount.toNat b
          rxCount := s.block.rxCount + 1 } .nothing)) ∧
    (s.block.rxCount.toNat + 1 = s.block.rxExpected.toNat →
      ∃ (sc : Half) (addr : Word32) (t : Byte) (len : Half) (p : List Byte) (c : Half),
        f ++ [b] = bytes16 sc ++ bytes32 addr ++ [t] ++ bytes16 len ++ p ++ bytes16 c ∧ p.length + 2 = len.toNat ∧
        exec (.rxByte b) s = .next (s.finishOp
          (Block.finish { s.block with rxBuf := Memory.insert s.block.rxBuf s.block.rxCount.toNat b }
            { result := if checksum s.params.csumLenMode t len p = c then .ok else .checksumMismatch,
              startCode := sc, address := addr, ptype := t, length := len, payloadLen := BitVec.ofNat 16 p.length,
              payload := p, rxChecksum := c, calcChecksum := checksum s.params.csumLenMode t len p }) .nothing))

/-- R262, the result latch: the buffer is emptied; with the slot free the result is delivered, `DONE` set and `WAITING`
cleared; with the slot full the result is dropped and `OVERRUN` set. -/
def Obligations.ResultLatch : Prop :=
  ∀ (k : Block) (r : Record),
    (k.done = false → k.finish r =
      { k with rxState := .idle, rxCount := 0, rxExpected := 0, slot := r, done := true, waiting := false }) ∧
    (k.done = true → k.finish r = { k with rxState := .idle, rxCount := 0, rxExpected := 0, overrun := true })

/-- R268: a frame that completes or fails while `DONE = 1` is dropped: the slot keeps the older result, `OVERRUN` is set, and
no instruction but `ARM` and `RESET` clears it. -/
def Obligations.OverrunKeepsTheOlderResult : Prop :=
  (∀ (s t : State) (b : Byte), s.Inv → s.block.done = true → exec (.rxByte b) s = .next t → t.block.rxCount = 0 →
    t.block.slot = s.block.slot ∧ t.block.done = true ∧ t.block.overrun = true) ∧
  (∀ (i : Instr) (s t : State), s.Inv → exec i s = .next t → s.block.overrun = true → t.block.overrun = false →
    (∃ limit, i = .arm limit) ∨ i = .reset)

/-- R187: `Complete` is transient: no instruction leaves it, and the byte that completes a frame latches its result (where the
slot is free) and leaves the reassembler idle, so that the next byte is the first of a new frame, stored at index 0, and does
not reach the slot. -/
def Obligations.CompleteIsTransient : Prop :=
  (∀ (i : Instr) (s t : State), s.Inv → exec i s = .next t → t.block.rxState ≠ .complete) ∧
  (∀ (b c : Byte) (s t : State), s.Inv → 9 ≤ s.block.rxCount.toNat →
    s.block.rxCount.toNat + 1 = s.block.rxExpected.toNat → exec (.rxByte b) s = .next t →
    t.block.rxState = .idle ∧ t.block.rxCount = 0 ∧ t.block.done = true ∧
    (s.block.done = false → t.block.slot.result = .ok ∨ t.block.slot.result = .checksumMismatch) ∧
    ∃ u, exec (.rxByte c) t = .next u ∧ u.block.rxCount = 1 ∧ u.bufByte 0 = some c ∧ u.block.slot = t.block.slot)

/-- R195 (derived by the spec): the buffer never overflows, `RX_BYTE` always answers, and no accepted frame hangs: the bytes still awaited end it
and leave the reassembler idle with a result in the slot. -/
def Obligations.BufferNeverOverflows : Prop :=
  ∀ s : State, s.Inv →
    (s.block.rxCount.toNat ≤ 8 ∨
      (s.block.rxCount.toNat < s.block.rxExpected.toNat ∧ s.block.rxExpected.toNat ≤ s.params.rxCapacity)) ∧
    s.block.rxCount.toNat < s.params.rxCapacity ∧
    (∀ b : Byte, ∃ t, exec (.rxByte b) s = .next t) ∧
    (∀ bs : List Byte, 9 ≤ s.block.rxCount.toNat → bs.length + s.block.rxCount.toNat = s.block.rxExpected.toNat →
      ∃ t, runInstrs (bs.map .rxByte) s = .next t ∧ t.block.rxCount = 0 ∧ t.block.rxState = .idle ∧ t.block.done = true)

/-- Every byte of the buffer: `RX_BYTE` writes the index `rx_count` and no other; no instruction outside the rows that
receive writes any (R19, R33, R34). -/
def Obligations.BufferBytesFrame : Prop :=
  (∀ (b : Byte) (s t : State), exec (.rxByte b) s = .next t →
    ∀ j, t.bufByte j = if j = s.block.rxCount.toNat then some b else s.bufByte j) ∧
  (∀ (i : Instr) (s t : State), i.receives = false → exec i s = .next t → ∀ j, t.bufByte j = s.bufByte j)

/-! ## FRAME rows: that such a row is a delivery of its bytes is the model's choice (log 6) -/

/-- R193 (derived by the spec): a frame delivered at once is the same sequence of `RX_BYTE` operations as its bytes delivered one by one, and
reaches the same state, however the bytes are cut. -/
def Obligations.ChunkingDoesNotMatter : Prop :=
  (∀ (st : Half) (a : Word32) (p : List Byte) (c : Half) (s : State),
    exec (.frameCommand st a p c) s = runInstrs ((frameBytes st a 1 p c).map .rxByte) s ∧
    exec (.frameData st a p c) s = runInstrs ((frameBytes st a 2 p c).map .rxByte) s ∧
    exec (.frameAck st a p c) s = runInstrs ((frameBytes st a 7 p c).map .rxByte) s ∧
    exec (.frameEndOfData st a p c) s = runInstrs ((frameBytes st a 8 p c).map .rxByte) s) ∧
  (∀ (bs cs : List Byte) (s t : State), runInstrs (bs.map .rxByte) s = .next t →
    runInstrs ((bs ++ cs).map .rxByte) s = runInstrs (cs.map .rxByte) t)

/-- The completion of the FRAME rows (deliveries of their bytes, log 6): from an empty buffer and a free slot, a frame that fits is latched with every field,
whatever its start code, address and type (R186), its bytes stand in the buffer and no other byte of the buffer changes. -/
def Obligations.FrameRowsAreLatched : Prop :=
  ∀ (st : Half) (a : Word32) (p : List Byte) (c : Half) (s : State), s.Inv → s.block.rxCount = 0 →
    s.block.done = false → p.length ≤ s.params.maxPayload →
    ∀ row ∈ [((.frameCommand st a p c, 1) : Instr × Byte), (.frameData st a p c, 2), (.frameAck st a p c, 7),
      (.frameEndOfData st a p c, 8)],
    ∃ m : List Host.Cell,
      exec row.1 s = .next (s.finishOp
        { s.block with
          rxBuf := m
          slot :=
            { result := if checksum s.params.csumLenMode row.2 (lengthField p) p = c then .ok else .checksumMismatch,
              startCode := st, address := a, ptype := row.2, length := lengthField p,
              payloadLen := BitVec.ofNat 16 p.length, payload := p, rxChecksum := c,
              calcChecksum := checksum s.params.csumLenMode row.2 (lengthField p) p }
          done := true
          waiting := false } .nothing) ∧
      (∀ j, j < 11 + p.length → Memory.lookup m j = (frameBytes st a row.2 p c)[j]?) ∧
      (∀ j, 11 + p.length ≤ j → Memory.lookup m j = s.bufByte j)

/-- From every state that meets the invariant, whatever the buffer and the slot hold, a FRAME row (log 6) answers a state: it sends
nothing, touches neither the watchdog's limit nor its count, and keeps an untaken result. -/
def Obligations.FrameRowsCompleteAnywhere : Prop :=
  ∀ (st : Half) (a : Word32) (p : List Byte) (c : Half) (s : State), s.Inv →
    ∀ i ∈ [(.frameCommand st a p c : Instr), .frameData st a p c, .frameAck st a p c, .frameEndOfData st a p c],
    ∃ t, exec i s = .next t ∧ t.Inv ∧ t.params = s.params ∧ t.agents = s.agents ∧ t.ret = .nothing ∧
      t.block.txStream = s.block.txStream ∧ t.block.wdtCount = s.block.wdtCount ∧ t.block.wdtLimit = s.block.wdtLimit ∧
      (s.block.done = true → t.block.slot = s.block.slot ∧ t.block.done = true ∧ t.block.waiting = s.block.waiting)

/-- R147 (derived by the spec): `DECODE` and the reassembler agree. A whole frame of an accepted length is latched at its last byte and not
before, equal to `DECODE` of it; with a length that is not accepted, `DECODE` of the nine header bytes is latched at the
ninth byte and the bytes after them begin a new frame. -/
def Obligations.DecodeAgreesWithTheReassembler : Prop :=
  ∀ (s : State) (sc : Half) (a : Word32) (t : Byte) (len : Half) (body : List Byte),
    s.Inv → s.block.rxCount = 0 → s.block.done = false →
    (2 ≤ len.toNat → 9 + len.toNat ≤ s.params.rxCapacity → body.length = len.toNat →
      ∃ (u v : State) (r : Record),
        exec (.decode (bytes16 sc ++ bytes32 a ++ [t] ++ bytes16 len ++ body)) s = .next v ∧ v.ret = .record r ∧
        runInstrs ((bytes16 sc ++ bytes32 a ++ [t] ++ bytes16 len ++ body).map .rxByte) s = .next u ∧
        u.block.slot = r ∧ u.block.done = true ∧ u.block.overrun = s.block.overrun ∧ u.block.rxCount = 0 ∧
        (∀ n, n < (bytes16 sc ++ bytes32 a ++ [t] ++ bytes16 len ++ body).length →
          ∃ w, runInstrs (((bytes16 sc ++ bytes32 a ++ [t] ++ bytes16 len ++ body).take n).map .rxByte) s = .next w ∧
            w.block.done = false)) ∧
    (len.toNat < 2 ∨ s.params.rxCapacity < 9 + len.toNat →
      ∃ (u v : State) (r : Record),
        exec (.decode (bytes16 sc ++ bytes32 a ++ [t] ++ bytes16 len)) s = .next v ∧ v.ret = .record r ∧
        (r.result = .frameMalformed ∨ r.result = .frameTooLarge) ∧
        runInstrs ((bytes16 sc ++ bytes32 a ++ [t] ++ bytes16 len).map .rxByte) s = .next u ∧
        u.block.slot = r ∧ u.block.done = true ∧ u.block.rxCount = 0 ∧
        (∀ n, n < 9 → ∃ w, runInstrs (((bytes16 sc ++ bytes32 a ++ [t] ++ bytes16 len).take n).map .rxByte) s = .next w ∧
          w.block.done = false) ∧
        runInstrs ((bytes16 sc ++ bytes32 a ++ [t] ++ bytes16 len ++ body).map .rxByte) s =
          runInstrs (body.map .rxByte) u)

/-- R194 (derived by the spec): the bytes of a frame that `ENCODE` emits, delivered one by one from an empty buffer and a free slot, latch no
result before the last byte and exactly one at it: `OK`, with the fields `DECODE` gives. -/
def Obligations.ExactlyOneCompletionPerFrame : Prop :=
  ∀ (s : State) (addr : Word32) (t : Byte) (p : List Byte), s.Inv → s.block.rxCount = 0 → s.block.done = false →
    p.length ≤ s.params.maxPayload → t ∈ ([1, 2, 7, 8] : List Byte) →
    ∃ (e u v : State) (f : List Byte) (r : Record),
      exec (.encode addr t p) s = .next e ∧ e.ret = .encoded f ∧
      (∀ n, n < f.length → ∃ w, runInstrs ((f.take n).map .rxByte) s = .next w ∧ w.block.done = false) ∧
      runInstrs (f.map .rxByte) s = .next u ∧ u.block.done = true ∧ u.block.slot.result = .ok ∧
      u.block.overrun = s.block.overrun ∧
      exec (.decode f) s = .next v ∧ v.ret = .record r ∧ u.block.slot = r

/-! ## ARM, TICK, TAKE, READ_REG, RESET -/

/-- R189, the completion of `ARM`: the partial frame, the slot, `DONE` and `OVERRUN` are cleared, the watchdog is started
with the limit given; the bytes of the buffer and `tx_stream` are not written. -/
def Obligations.ArmStartsACycle : Prop :=
  ∀ (s : State) (limit : Word32),
    exec (.arm limit) s = .next (s.finishOp
      { s.block with
        rxCount := 0, rxExpected := 0, rxState := .idle
        slot := { result := .none, startCode := 0, address := 0, ptype := 0, length := 0, payloadLen := 0, payload := [],
                  rxChecksum := 0, calcChecksum := 0 }
        done := false, overrun := false, waiting := true, wdtCount := 0, wdtLimit := limit } .nothing)

/-- R300, the completion of `RESET`: every element to its reset value; the bytes of the buffer and `tx_stream` unchanged. -/
def Obligations.ResetWritesEveryElement : Prop :=
  ∀ s : State,
    exec .reset s = .next (s.finishOp
      { s.block with
        rxCount := 0, rxExpected := 0, rxState := .idle
        slot := { result := .none, startCode := 0, address := 0, ptype := 0, length := 0, payloadLen := 0, payload := [],
                  rxChecksum := 0, calcChecksum := 0 }
        done := false, overrun := false, waiting := false, wdtCount := 0, wdtLimit := 0 } .nothing)

/-- R301: the state at power-on is the state after `RESET` with `tx_stream` empty, the unspecified bytes of the buffer
apart. -/
def Obligations.PowerOnIsReset : Prop :=
  State.reset.block.txStream = [] ∧
  ∀ s : State, ∃ t, exec .reset s = .next t ∧
    { t.block with rxBuf := State.reset.block.rxBuf, txStream := [] } = State.reset.block

/-- R302 (derived by the spec): `ARM` sets `WAITING` and loads the limit where `RESET` clears both; both discard the partial frame, the slot,
`DONE` and `OVERRUN`, and neither writes the buffer's bytes or `tx_stream`. -/
def Obligations.ArmAndResetDiffer : Prop :=
  ∀ (s : State) (limit : Word32), ∃ a r, exec (.arm limit) s = .next a ∧ exec .reset s = .next r ∧
    a.block.waiting = true ∧ a.block.wdtLimit = limit ∧ r.block.waiting = false ∧ r.block.wdtLimit = 0 ∧
    (∀ t ∈ [a, r], t.block.rxCount = 0 ∧ t.block.rxExpected = 0 ∧ t.block.rxState = .idle ∧
      t.block.slot.result = .none ∧ t.block.done = false ∧ t.block.overrun = false ∧
      t.block.rxBuf = s.block.rxBuf ∧ t.block.txStream = s.block.txStream)

/-- R190, the completion of `TICK`: nothing while no cycle waits; the count moves on; on the tick whose incremented count
reaches the limit the partial frame is discarded and `FRAMING_TIMEOUT` latched, and never overruns. -/
def Obligations.TickCountsAndExpires : Prop :=
  ∀ s : State, s.Inv →
    (s.block.waiting = false → exec .tick s = .next (s.finishOp s.block .nothing)) ∧
    (s.block.waiting = true → s.block.wdtCount.toNat + 1 < s.block.wdtLimit.toNat →
      exec .tick s = .next (s.finishOp { s.block with wdtCount := s.block.wdtCount + 1 } .nothing)) ∧
    (s.block.waiting = true → s.block.wdtLimit.toNat ≤ s.block.wdtCount.toNat + 1 →
      exec .tick s = .next (s.finishOp
        { s.block with
          wdtCount := s.block.wdtCount + 1
          rxCount := 0, rxExpected := 0, rxState := .idle
          slot := { result := .framingTimeout, startCode := 0, address := 0, ptype := 0, length := 0, payloadLen := 0,
                    payload := [], rxChecksum := 0, calcChecksum := 0 }
          done := true, waiting := false } .nothing))

/-- R191, the completion of `TAKE`: with nothing latched it returns `NONE` and changes nothing; otherwise it returns the slot
and empties it, and a second `TAKE` returns `NONE`. `OVERRUN`, `WAITING` and a partial frame are not touched. -/
def Obligations.TakeReturnsTheResultOnce : Prop :=
  ∀ s : State,
    (s.block.done = false → exec .take s = .next (s.finishOp s.block (.record
      { result := .none, startCode := 0, address := 0, ptype := 0, length := 0, payloadLen := 0, payload := [],
        rxChecksum := 0, calcChecksum := 0 }))) ∧
    (s.Inv → s.block.done = true →
      ∃ t, t = s.finishOp
          { s.block with
            slot := { result := .none, startCode := 0, address := 0, ptype := 0, length := 0, payloadLen := 0,
                      payload := [], rxChecksum := 0, calcChecksum := 0 }
            done := false } (.record s.block.slot) ∧
        exec .take s = .next t ∧
        ∃ u r, exec .take t = .next u ∧ u.block = t.block ∧ u.ret = .record r ∧ r.result = .none)

/-- R45 and R46, the completion of `READ_REG`: the map of the register view, each register zero-extended to 32 bits, the
fields of `STATUS` in their places and its bits 31:5 zero; the block is unchanged; an index above 7 is refused. `RX_STATE` reads
0, 1 or 2 (R32) where `rx_count` is 0, within 1 to 8, or at least 9, and `RESULT` reads the code of R38. -/
def Obligations.RegisterView : Prop :=
  ∀ s : State, s.Inv →
    (∃ v : Word32, exec (.readReg 0) s = .next (s.finishOp s.block (.word v)) ∧
      (s.block.rxCount.toNat = 0 → v.extractLsb' 0 2 = 0) ∧
      (1 ≤ s.block.rxCount.toNat → s.block.rxCount.toNat ≤ 8 → v.extractLsb' 0 2 = 1) ∧
      (9 ≤ s.block.rxCount.toNat → v.extractLsb' 0 2 = 2) ∧
      v.extractLsb' 0 2 = s.block.rxState.bits ∧ v.getLsbD 2 = s.block.done ∧
      v.getLsbD 3 = s.block.waiting ∧ v.getLsbD 4 = s.block.overrun ∧ v.extractLsb' 5 27 = 0) ∧
    exec (.readReg 1) s = .next (s.finishOp s.block (.word (s.block.rxCount.setWidth 32))) ∧
    exec (.readReg 2) s = .next (s.finishOp s.block (.word (s.block.rxExpected.setWidth 32))) ∧
    (∃ code ∈ [((.none, 0) : Result × Word32), (.ok, 1), (.checksumMismatch, 2), (.frameTooLarge, 3),
        (.framingTimeout, 4), (.frameMalformed, 5)],
      s.block.slot.result = code.1 ∧ exec (.readReg 3) s = .next (s.finishOp s.block (.word code.2))) ∧
    exec (.readReg 4) s = .next (s.finishOp s.block (.word s.block.wdtCount)) ∧
    exec (.readReg 5) s = .next (s.finishOp s.block (.word s.block.wdtLimit)) ∧
    exec (.readReg 6) s = .next (s.finishOp s.block (.word (BitVec.ofNat 32 s.params.rxCapacity))) ∧
    exec (.readReg 7) s = .next (s.finishOp s.block (.word (s.params.startCode.setWidth 32))) ∧
    (∀ index : Byte, 7 < index.toNat → exec (.readReg index) s = .refused (.unassignedRegister index))

/-- The watchdog runs out exactly (R190, R278): from a waiting state, the ticks short of the bound `max(wdt_limit, 1)` latch
nothing and leave the cycle waiting, and the tick that reaches it latches `FRAMING_TIMEOUT`: a host held in `WAIT` is held
for no more ticks than that (R272). -/
def Obligations.WatchdogExpiresExactly : Prop :=
  ∀ (s : State) (n : Nat), s.Inv → s.block.waiting = true →
    (s.block.wdtCount.toNat + n < max s.block.wdtLimit.toNat 1 →
      ∃ t, runInstrs (List.replicate n .tick) s = .next t ∧ t.block.done = false ∧ t.block.waiting = true ∧
        t.block.wdtCount.toNat = s.block.wdtCount.toNat + n ∧ t.block.rxCount = s.block.rxCount) ∧
    (s.block.wdtCount.toNat + n = max s.block.wdtLimit.toNat 1 →
      ∃ t, runInstrs (List.replicate n .tick) s = .next t ∧ t.block.done = true ∧ t.block.waiting = false ∧
        t.block.slot.result = .framingTimeout ∧ t.block.rxCount = 0)

/-- R274: the last byte of a response and the expiring tick, in either order. Byte first: the response is latched and the
tick changes nothing. Tick first: `FRAMING_TIMEOUT` is latched, the partial response is lost, and the byte is byte 0 of a new
frame. -/
def Obligations.LastByteAgainstExpiringTick : Prop :=
  ∀ (s : State) (b : Byte), s.Inv → s.block.waiting = true → 9 ≤ s.block.rxCount.toNat →
    s.block.rxCount.toNat + 1 = s.block.rxExpected.toNat → s.block.wdtLimit.toNat ≤ s.block.wdtCount.toNat + 1 →
    (∃ t u, exec (.rxByte b) s = .next t ∧ exec .tick t = .next u ∧ u.block = t.block ∧ u.block.done = true ∧
      (u.block.slot.result = .ok ∨ u.block.slot.result = .checksumMismatch) ∧ u.block.waiting = false ∧
      u.block.wdtCount = s.block.wdtCount ∧ u.block.rxCount = 0) ∧
    (∃ t u, exec .tick s = .next t ∧ exec (.rxByte b) t = .next u ∧ u.block.done = true ∧
      u.block.slot.result = .framingTimeout ∧ u.block.waiting = false ∧ u.block.rxCount = 1 ∧ u.bufByte 0 = some b ∧
      u.block.rxState = .accumulatingHeader ∧ u.block.rxExpected = 0)

/-- R272: `WAIT` holds its agent while `DONE = 0`: its turns pass and the item stays; with `DONE = 1` the agent takes the
result. That a hold uses up a turn and that the take is in the same turn are the model's choice (log 4). A command's cycle
(R241) runs `ARM` with the caller's timeout, then `ENCODE` of a Command packet; where that request is invalid the cycle is over,
nothing is sent and the command returns the condition; otherwise it is held and takes the result as `WAIT` does. The form of
the cycle is the model's choice (log 18). -/
def Obligations.WaitHoldsUntilDone : Prop :=
  ∀ (s : State) (a : Agent) (ts : List Agent) (q : List Item),
    s.agents.turns = a :: ts →
    (s.agents.queue a = .wait :: q →
      (s.block.done = false → step s = .next (s.afterTurn a (.wait :: q) ts)) ∧
      (s.block.done = true → step s = exec .take (s.afterTurn a q ts))) ∧
    (∀ c : CommandRequest, s.agents.queue a = .cycle c .arm :: q →
      step s = exec (.arm c.limit) (s.afterTurn a (.cycle c .send :: q) ts)) ∧
    (∀ c : CommandRequest, s.agents.queue a = .cycle c .send :: q →
      (c.payload.length ≤ s.params.maxPayload →
        step s = exec (.encode c.addr 0x01 c.payload) (s.afterTurn a (.cycle c .take :: q) ts)) ∧
      (s.params.maxPayload < c.payload.length →
        ∃ t, step s = .next t ∧ t.block = s.block ∧ t.agents.queue a = q ∧
          c.returned t.ret = some (.invalidRequest .payloadTooLong))) ∧
    (∀ c : CommandRequest, s.agents.queue a = .cycle c .take :: q →
      (s.block.done = false → step s = .next (s.afterTurn a (.cycle c .take :: q) ts)) ∧
      (s.block.done = true → step s = exec .take (s.afterTurn a q ts)))

/-! ## Recovery -/

/-- R196 (derived by the spec): a header whose length exceeds the capacity latches `FRAME_TOO_LARGE` at its ninth byte and leaves the buffer empty;
after `TAKE` a well-formed frame latches `OK` with its fields; without it the frame's result is dropped and `OVERRUN` set. -/
def Obligations.DesynchronisationRecovery : Prop :=
  ∀ (s : State) (sc sc' : Half) (a a' : Word32) (t t' : Byte) (len : Half) (p : List Byte),
    s.Inv → s.block.rxCount = 0 → s.block.done = false → s.params.rxCapacity < 9 + len.toNat →
    p.length ≤ s.params.maxPayload →
    ∃ s1 s2 s3 : State,
      runInstrs ((bytes16 sc ++ bytes32 a ++ [t] ++ bytes16 len).map .rxByte) s = .next s1 ∧
      s1.block.slot.result = .frameTooLarge ∧ s1.block.done = true ∧ s1.block.rxCount = 0 ∧
      runInstrs (.take :: (frameBytes sc' a' t' p (checksum s.params.csumLenMode t' (lengthField p) p)).map .rxByte) s1 =
        .next s2 ∧
      s2.block.slot.result = .ok ∧ s2.block.slot.startCode = sc' ∧ s2.block.slot.address = a' ∧
      s2.block.slot.ptype = t' ∧ s2.block.slot.length = lengthField p ∧ s2.block.slot.payload = p ∧
      s2.block.done = true ∧
      runInstrs ((frameBytes sc' a' t' p (checksum s.params.csumLenMode t' (lengthField p) p)).map .rxByte) s1 = .next s3 ∧
      s3.block.slot = s1.block.slot ∧ s3.block.done = true ∧ s3.block.overrun = true ∧ s3.block.rxCount = 0

/-- R197 (derived by the spec): from any state that meets the invariant, after `ARM limit`, bytes that are fewer than a well-formed frame's and
ticks in any order, the tick that reaches the limit latches `FRAMING_TIMEOUT` and empties the buffer; then `TAKE`, `ARM` and a
complete response frame latch `OK` with its payload. -/
def Obligations.TimeoutRecovery : Prop :=
  ∀ (s : State) (limit limit' : Word32) (ops : List Instr) (f : List Byte) (sc sc' : Half) (a a' : Word32)
    (t t' : Byte) (p p' : List Byte) (c : Half),
    s.Inv → p.length ≤ s.params.maxPayload → p'.length ≤ s.params.maxPayload →
    (∀ i ∈ ops, i = .tick ∨ ∃ b, i = .rxByte b) →
    ops.filter (fun i => i.receives) = f.map .rxByte →
    f <+: frameBytes sc a t p c → f.length < (frameBytes sc a t p c).length →
    ops.count .tick + 1 = max limit.toNat 1 →
    ∃ s1 s2 : State,
      runInstrs (.arm limit :: ops ++ [.tick]) s = .next s1 ∧ s1.block.done = true ∧
      s1.block.slot.result = .framingTimeout ∧ s1.block.rxCount = 0 ∧ s1.block.waiting = false ∧
      runInstrs (.take :: .arm limit' ::
        (frameBytes sc' a' t' p' (checksum s.params.csumLenMode t' (lengthField p') p')).map .rxByte) s1 = .next s2 ∧
      s2.block.done = true ∧ s2.block.slot.result = .ok ∧ s2.block.slot.payload = p' ∧ s2.block.overrun = false

/-! ## The command catalog -/

/-- The completion of the CMD rows without arguments (R223, R226, R230, R231, R234 to R236): each sends the Command frame of
its payload and changes nothing else. That a row is the `ENCODE` of its frame is the model's choice (log 7). -/
def Obligations.CommandsWithoutArgumentsSend : Prop :=
  ∀ (s : State) (addr : Word32), 1 ≤ s.params.maxPayload →
    ∀ row ∈ [((.getImage addr, 0x01) : Instr × Byte), (.mergeFeatures addr, 0x05), (.emptyLibrary addr, 0x0D),
      (.readParameters addr, 0x0F), (.enumerateTemplateCount addr, 0x1D), (.ledControl50 addr, 0x50),
      (.ledControl51 addr, 0x51)],
    ∃ f : List Byte,
      f = bytes16 s.params.startCode ++ bytes32 addr ++ [0x01, 0x00, 0x03, row.2] ++
        bytes16 (checksum s.params.csumLenMode 0x01 3 [row.2]) ∧
      exec row.1 s = .next (s.finishOp { s.block with txStream := s.block.txStream ++ f } (.encoded f))

/-- The completion of the CMD rows with arguments (R224, R225, R227 to R229, R232, R233): each sends the Command frame of its
payload, its arguments big-endian, and changes nothing else. That a row is the `ENCODE` of its frame is the model's choice (log 7). -/
def Obligations.CommandsWithArgumentsSend : Prop :=
  ∀ (s : State) (addr : Word32) (slot : Byte) (x y : Half) (pw : Word32), 6 ≤ s.params.maxPayload →
    ∀ row ∈ [((.extractFeatures addr slot, [0x02, slot]) : Instr × List Byte),
      (.search addr slot x y, [0x04, slot, x.extractLsb' 8 8, x.extractLsb' 0 8, y.extractLsb' 8 8, y.extractLsb' 0 8]),
      (.storeTemplate addr slot x, [0x06, slot, x.extractLsb' 8 8, x.extractLsb' 0 8]),
      (.loadTemplate addr slot x, [0x07, slot, x.extractLsb' 8 8, x.extractLsb' 0 8]),
      (.deleteTemplate addr x y, [0x0C, x.extractLsb' 8 8, x.extractLsb' 0 8, y.extractLsb' 8 8, y.extractLsb' 0 8]),
      (.setPassword addr pw,
        [0x12, pw.extractLsb' 24 8, pw.extractLsb' 16 8, pw.extractLsb' 8 8, pw.extractLsb' 0 8]),
      (.verifyPassword addr pw,
        [0x13, pw.extractLsb' 24 8, pw.extractLsb' 16 8, pw.extractLsb' 8 8, pw.extractLsb' 0 8])],
    ∃ f : List Byte,
      f = bytes16 s.params.startCode ++ bytes32 addr ++ [0x01] ++ bytes16 (BitVec.ofNat 16 (row.2.length + 2)) ++ row.2 ++
        bytes16 (checksum s.params.csumLenMode 0x01 (BitVec.ofNat 16 (row.2.length + 2)) row.2) ∧
      exec row.1 s = .next (s.finishOp { s.block with txStream := s.block.txStream ++ f } (.encoded f))

/-- R239: on status `0x00` slot and confidence are the two 16-bit fields; on any other status they are not meaningful,
whatever bytes follow, and reading one is a fault, never a value. -/
def Obligations.SearchResultDecode : Prop :=
  (∀ (s1 s0 c1 c0 : Byte) (rest : List Byte), ∃ r, decodeSearch (0x00 :: s1 :: s0 :: c1 :: c0 :: rest) = .ok r ∧
    r.statusCode = 0x00 ∧ r.slot = .ok (be16 s1 s0) ∧ r.confidence = .ok (be16 c1 c0)) ∧
  (∀ (st : Byte) (rest : List Byte), st ≠ 0x00 → ∃ r, decodeSearch (st :: rest) = .ok r ∧
    decodeSearch [st] = .ok r ∧ r.statusCode = st ∧ r.slot = .error .notMeaningful ∧ r.confidence = .error .notMeaningful)

/-- R240 and R238: the template count is the big-endian pair after the status; of a 17-byte `SensorParameters` response the
packet-size codes 0 to 3 are 32, 64, 128 and 256, a code above 3 is no size, and the baud rate is 9600 times the multiplier.
The layout is from general knowledge (G6, log 13). The request's opcode picks the decoder (R241 step 5): search, parameters,
template count, or a status alone; a taken Acknowledge is a success or a device status with what that decoder gives, and a
transport-level result the command's transport error (R242). -/
def Obligations.CountAndParametersDecode : Prop :=
  (∀ (c1 c0 : Byte), decodeTemplateCount [0x00, c1, c0] = .ok (be16 c1 c0)) ∧
  decodeTemplateCount [0x00, 0x00, 0x05] = .ok 5 ∧
  (∀ (st sy lc sl pc bm : Half) (addr : Word32), ∃ r,
    decodeSensorParameters ([0x00] ++ bytes16 st ++ bytes16 sy ++ bytes16 lc ++ bytes16 sl ++ bytes32 addr ++
      bytes16 pc ++ bytes16 bm) = .ok r ∧
    r.statusRegister = st ∧ r.systemId = sy ∧ r.libraryCapacity = lc ∧ r.securityLevel = sl ∧ r.deviceAddress = addr ∧
    (pc = 0 → r.packetSize = .ok 32) ∧ (pc = 1 → r.packetSize = .ok 64) ∧ (pc = 2 → r.packetSize = .ok 128) ∧
    (pc = 3 → r.packetSize = .ok 256) ∧ (3 < pc.toNat → r.packetSize = .error (.packetSizeCode pc)) ∧
    r.baud = 9600 * bm.toNat) ∧
  (∀ (c : CommandRequest) (op : Byte) (args : List Byte) (r : Record), c.payload = op :: args →
    (op = 0x04 → c.decodeResponse r.payload = (decodeSearch r.payload).map .search) ∧
    (op = 0x0F → c.decodeResponse r.payload = (decodeSensorParameters r.payload).map .parameters) ∧
    (op = 0x1D → c.decodeResponse r.payload = (decodeTemplateCount r.payload).map .templateCount) ∧
    (∀ st rest, op ∈ ([0x01, 0x02, 0x05, 0x06, 0x07, 0x0C, 0x0D, 0x12, 0x13, 0x50, 0x51] : List Byte) →
      r.payload = st :: rest → c.decodeResponse r.payload = .ok (.confirmation st)) ∧
    (∀ st rest, r.result = .ok → r.ptype = 0x07 → r.payload = st :: rest →
      (st = 0x00 → c.returned (.record r) = some (.result (.success (c.decodeResponse r.payload)))) ∧
      (st ≠ 0x00 → c.returned (.record r) = some (.result (.deviceStatus st (c.decodeResponse r.payload))))) ∧
    (r.result ∈ [.checksumMismatch, .frameTooLarge, .framingTimeout, .frameMalformed] →
      c.returned (.record r) = some (.result (.transportError r.result))))

/-! ## Who writes what: rules over all instructions -/

/-- R39: `DONE` is 1 iff the slot holds an untaken result; it is set by the rows that receive and by `TICK` alone, and
cleared by `TAKE`, `ARM` and `RESET` alone. -/
def Obligations.WhoWritesDone : Prop :=
  ∀ (i : Instr) (s t : State), s.Inv → exec i s = .next t →
    (t.block.done = true ↔ t.block.slot.result ≠ .none) ∧
    (s.block.done = false → t.block.done = true → i.receives = true ∨ i = .tick) ∧
    (s.block.done = true → t.block.done = false → i = .take ∨ (∃ limit, i = .arm limit) ∨ i = .reset)

/-- R40: `WAITING` is set by `ARM` alone and cleared by a latched result, whichever it is, and by `RESET`, and by nothing else;
while it is 0 a `TICK` changes nothing. -/
def Obligations.WhoWritesWaiting : Prop :=
  (∀ (i : Instr) (s t : State), s.Inv → exec i s = .next t →
    (s.block.waiting = false → t.block.waiting = true → ∃ limit, i = .arm limit) ∧
    (s.block.waiting = true → t.block.waiting = false →
      i = .reset ∨ ((i.receives = true ∨ i = .tick) ∧ t.block.done = true)) ∧
    (t.block.done = true → t.block.waiting = false) ∧
    (i = .reset → t.block.waiting = false)) ∧
  (∀ (limit : Word32) (s : State), ∃ t, exec (.arm limit) s = .next t ∧ t.block.waiting = true) ∧
  (∀ s : State, s.block.waiting = false → exec .tick s = .next (s.finishOp s.block .nothing))

/-- R41: `OVERRUN` is set where a byte ends a frame while `DONE = 1`, cleared by `ARM` and `RESET` and by nothing else, and
kept by `TAKE`. -/
def Obligations.WhoWritesOverrun : Prop :=
  (∀ (b : Byte) (s t : State), s.Inv → exec (.rxByte b) s = .next t →
    (t.block.overrun = true ↔ s.block.overrun = true ∨ (s.block.done = true ∧ t.block.rxCount = 0))) ∧
  (∀ (i : Instr) (s t : State), s.Inv → exec i s = .next t →
    (s.block.overrun = false → t.block.overrun = true → i.receives = true) ∧
    (s.block.overrun = true → t.block.overrun = false → (∃ limit, i = .arm limit) ∨ i = .reset) ∧
    ((∃ limit, i = .arm limit) ∨ i = .reset → t.block.overrun = false) ∧
    (i = .take → t.block.overrun = s.block.overrun))

/-- R43 and R44: `wdt_count` counts the ticks since the last `ARM` while a cycle waits and is moved by nothing else but
`RESET`; it stays within `max(wdt_limit, 1)`, so that no tick wraps; `wdt_limit` is written by `ARM` and `RESET` alone. -/
def Obligations.WhoWritesTheWatchdog : Prop :=
  ∀ (i : Instr) (s t : State), s.Inv → exec i s = .next t →
    t.block.wdtCount.toNat ≤ max t.block.wdtLimit.toNat 1 ∧
    (∀ limit, i = .arm limit → t.block.wdtCount = 0 ∧ t.block.wdtLimit = limit) ∧
    (i = .reset → t.block.wdtCount = 0 ∧ t.block.wdtLimit = 0) ∧
    (i = .tick → t.block.wdtLimit = s.block.wdtLimit ∧
      t.block.wdtCount.toNat = s.block.wdtCount.toNat + (if s.block.waiting then 1 else 0)) ∧
    ((∀ limit, i ≠ .arm limit) → i ≠ .reset → i ≠ .tick →
      t.block.wdtCount = s.block.wdtCount ∧ t.block.wdtLimit = s.block.wdtLimit)

/-- R47: `tx_stream` is an output history: no instruction removes a byte, `ENCODE` and the CMD rows alone append, and what
they append is the frame they return; `RESET` keeps it. -/
def Obligations.WhoWritesTheTransmitStream : Prop :=
  ∀ (i : Instr) (s t : State), exec i s = .next t →
    ∃ bs, t.block.txStream = s.block.txStream ++ bs ∧ (bs ≠ [] → i.sends = true ∧ t.ret = .encoded bs)

/-- R33, R35, R32: the count, the expected length and the state of the reassembler are written by the rows that receive, by
`TICK` on expiry, by `ARM` and by `RESET` alone. -/
def Obligations.WhoWritesTheReassembler : Prop :=
  ∀ (i : Instr) (s t : State), exec i s = .next t → i.receives = false → (∀ limit, i ≠ .arm limit) → i ≠ .reset →
    (i = .tick → s.block.waiting = false ∨ s.block.wdtCount.toNat + 1 < s.block.wdtLimit.toNat) →
    t.block.rxCount = s.block.rxCount ∧ t.block.rxExpected = s.block.rxExpected ∧ t.block.rxState = s.block.rxState

/-- R77: `READ_REG`, `CHECKSUM`, `VERIFY` and `DECODE` change no state, only the value returned; repeated, each returns the
same. -/
def Obligations.ReadingChangesNothing : Prop :=
  ∀ (i : Instr) (s t : State), exec i s = .next t →
    ((∃ index, i = .readReg index) ∨ (∃ ty l p, i = .checksum ty l p) ∨ (∃ st a ty l p c, i = .verify st a ty l p c) ∨
      (∃ bs, i = .decode bs)) →
    t.block = s.block ∧ t.params = s.params ∧ t.agents = s.agents ∧ exec i t = .next t

/-- R49: the parameters of the instance are configuration: no step writes them. A step uses one turn, and touches no other
agent's pending items and no turn but its own (R80). -/
def Obligations.StepKeepsParametersAndOtherAgents : Prop :=
  ∀ (s t : State), step s = .next t →
    t.params = s.params ∧
    (∀ (a : Agent) (ts : List Agent), s.agents.turns = a :: ts →
      t.agents.turns = ts ∧ ∀ b, b ≠ a → t.agents.queue b = s.agents.queue b) ∧
    (s.agents.turns = [] → t = s)

/-! ## Invariants and whole-machine rules -/

/-- The invariant of Safety.lean holds at power-on (R50). -/
def Obligations.PowerOnMeetsTheInvariant : Prop := State.reset.Inv

/-- Every step from a state that meets the invariant leads to one that does. -/
def Obligations.EveryStepKeepsTheInvariant : Prop :=
  ∀ s t : State, s.Inv → step s = .next t → t.Inv

/-- No step from a state that meets the invariant faults: no unspecified byte is read, no reserved code or held `Complete`
is met, no byte is stored outside the buffer (R185, R195, U1, U2, U5, U7). -/
def Obligations.NoStepFaults : Prop :=
  ∀ s : State, s.Inv → NoFault (step s)

/-- R42 (derived by the spec), the invariants that hold between operations, after every step. -/
def Obligations.HandoffInvariantsAfterEveryStep : Prop :=
  ∀ s t : State, s.Inv → step s = .next t →
    (t.block.waiting = true → t.block.done = false) ∧
    (t.block.done = false ↔ t.block.slot.result = .none) ∧
    t.block.rxState =
      (if t.block.rxCount.toNat = 0 then .idle
       else if t.block.rxCount.toNat ≤ 8 then .accumulatingHeader else .accumulatingPayload) ∧
    (t.block.rxState ≠ .accumulatingPayload → t.block.rxExpected = 0) ∧
    (t.block.rxState = .accumulatingPayload →
      11 ≤ t.block.rxExpected.toNat ∧ t.block.rxExpected.toNat ≤ t.params.rxCapacity ∧
      9 ≤ t.block.rxCount.toNat ∧ t.block.rxCount.toNat < t.block.rxExpected.toNat)

/-- R81: the slot and `DONE` are written by one operation that leaves the reassembler idle, so that a byte after it is the
first of a fresh frame and does not reach the slot, and they are consumed by one `TAKE`; while a result is untaken, nothing but
`TAKE`, `ARM` and `RESET` changes the slot under its reader. -/
def Obligations.HandoffIsAtomic : Prop :=
  (∀ (i : Instr) (s t : State), s.Inv → exec i s = .next t → s.block.done = false →
    (i = .tick ∨ ∃ b, i = .rxByte b) →
    (t.block.done = false ∧ t.block.slot = s.block.slot) ∨
    (t.block.done = true ∧ t.block.slot.result ≠ .none ∧ t.block.rxState = .idle ∧ t.block.rxCount = 0 ∧
      ∀ b, ∃ u, exec (.rxByte b) t = .next u ∧ u.block.rxCount = 1 ∧ u.bufByte 0 = some b ∧
        u.block.slot = t.block.slot ∧ u.block.done = true)) ∧
  (∀ s : State, s.Inv → s.block.done = true → ∃ t, exec .take s = .next t ∧ t.ret = .record s.block.slot ∧
    t.block.done = false ∧ t.block.slot.result = .none) ∧
  (∀ (i : Instr) (s t : State), s.Inv → exec i s = .next t → s.block.done = true →
    i ≠ .take → (∀ limit, i ≠ .arm limit) → i ≠ .reset → t.block.slot = s.block.slot ∧ t.block.done = true)

/-- R277: no operation checks who issues it: the same item issued by another agent does the same to the block and returns
the same. -/
def Obligations.AnyAgentMayIssue : Prop :=
  ∀ (s : State) (a b : Agent) (it : Item),
    (∀ t, step (s.withTurn a it) = .next t →
      ∃ u, step (s.withTurn b it) = .next u ∧ u.block = t.block ∧ u.ret = t.ret ∧ u.params = t.params) ∧
    (∀ f, step (s.withTurn a it) = .fault f → step (s.withTurn b it) = .fault f) ∧
    (∀ r, step (s.withTurn a it) = .refused r → step (s.withTurn b it) = .refused r)

/-- R47 and D20: nothing reads `tx_stream`: two machines that differ in it alone run every instruction alike and still differ
in it alone. -/
def Obligations.TransmitStreamIsNeverRead : Prop :=
  ∀ (i : Instr) (s t : State) (tx : List Byte), exec i s = .next t →
    ∃ u tx', exec i { s with block := { s.block with txStream := tx } } = .next u ∧
      u = { t with block := { t.block with txStream := tx' } }

/-- R34, R36, R185 and U1: the bytes of the buffer at and above `rx_count` are never observed: two machines that differ in
them alone run every instruction alike, return the same and still differ in such bytes alone. -/
def Obligations.StaleBytesAreNeverObserved : Prop :=
  ∀ (i : Instr) (s s' t : State), s.Inv → s'.Inv → s.SameButStale s' → exec i s = .next t →
    ∃ t', exec i s' = .next t' ∧ t.SameButStale t'
end

