-- ==== Sys2Proof/Laws/Bytes.lean ====
section
/-! SUPPORT. Byte order and frames: splitting a field and assembling it again, and the fields of the bytes of a frame. -/

namespace Sys2Proof.Machine

/-- The value `be16` assembles. -/
theorem be16_toNat (a b : Byte) : (be16 a b).toNat = a.toNat * 256 + b.toNat := by
  have ha := a.isLt
  have hb := b.isLt
  simp only [be16, BitVec.toNat_ofNat]
  omega

/-- The value `be32` assembles. -/
theorem be32_toNat (a b c d : Byte) :
    (be32 a b c d).toNat = a.toNat * 16777216 + b.toNat * 65536 + c.toNat * 256 + d.toNat := by
  have ha := a.isLt
  have hb := b.isLt
  have hc := c.isLt
  have hd := d.isLt
  simp only [be32, BitVec.toNat_ofNat]
  omega

/-- A 16-bit field split into bytes and assembled again. -/
@[simp] theorem be16_bytes16 (v : Half) : be16 (v.extractLsb' 8 8) (v.extractLsb' 0 8) = v := by
  apply BitVec.eq_of_toNat_eq
  have hv := v.isLt
  simp only [be16_toNat, BitVec.extractLsb'_toNat, Nat.shiftRight_eq_div_pow]
  omega

/-- A 32-bit field split into bytes and assembled again. -/
@[simp] theorem be32_bytes32 (v : Word32) :
    be32 (v.extractLsb' 24 8) (v.extractLsb' 16 8) (v.extractLsb' 8 8) (v.extractLsb' 0 8) = v := by
  apply BitVec.eq_of_toNat_eq
  have hv := v.isLt
  simp only [be32_toNat, BitVec.extractLsb'_toNat, Nat.shiftRight_eq_div_pow]
  omega

/-- Two bytes assembled and split again. -/
@[simp] theorem bytes16_be16 (a b : Byte) : bytes16 (be16 a b) = [a, b] := by
  have ha := a.isLt
  have hb := b.isLt
  simp only [bytes16, List.cons.injEq, and_true]
  constructor <;> apply BitVec.eq_of_toNat_eq <;>
    simp only [be16_toNat, BitVec.extractLsb'_toNat, Nat.shiftRight_eq_div_pow] <;> omega

/-- The byte of a 32-bit value that stands `k` bytes above the lowest. -/
theorem byte_of_nat (v : Word32) (x : Byte) (k n r : Nat) (hk : (2 : Nat) ^ k = n) (hr : r < n)
    (u : Nat) (hv : v.toNat = u * (256 * n) + x.toNat * n + r) : v.extractLsb' k 8 = x := by
  apply BitVec.eq_of_toNat_eq
  have hx := x.isLt
  rw [BitVec.extractLsb'_toNat, Nat.shiftRight_eq_div_pow, hk, hv]
  have h1 : u * (256 * n) + x.toNat * n + r = n * (u * 256 + x.toNat) + r := by ring
  have h2 : (u * (256 * n) + x.toNat * n + r) / n = u * 256 + x.toNat := by
    rw [h1, Nat.mul_add_div (by omega), Nat.div_eq_of_lt hr, Nat.add_zero]
  rw [h2]
  omega

/-- Four bytes assembled and split again. -/
@[simp] theorem bytes32_be32 (a b c d : Byte) : bytes32 (be32 a b c d) = [a, b, c, d] := by
  have hb := b.isLt
  have hc := c.isLt
  have hd := d.isLt
  have hv := be32_toNat a b c d
  simp only [bytes32, List.cons.injEq, and_true]
  refine ⟨?_, ?_, ?_, ?_⟩
  · exact byte_of_nat _ a 24 16777216 (b.toNat * 65536 + c.toNat * 256 + d.toNat) (by norm_num) (by omega) 0 (by rw [hv]; ring)
  · exact byte_of_nat _ b 16 65536 (c.toNat * 256 + d.toNat) (by norm_num) (by omega) a.toNat (by rw [hv]; ring)
  · exact byte_of_nat _ c 8 256 d.toNat (by norm_num) (by omega) (a.toNat * 256 + b.toNat) (by rw [hv]; ring)
  · exact byte_of_nat _ d 0 1 0 (by norm_num) (by omega) (a.toNat * 65536 + b.toNat * 256 + c.toNat) (by rw [hv]; ring)

@[simp] theorem bytes16_length (v : Half) : (bytes16 v).length = 2 := rfl

@[simp] theorem bytes32_length (v : Word32) : (bytes32 v).length = 4 := rfl

/-- A 16-bit count holds the length of a payload that fits it. -/
theorem count_toNat (n : Nat) (h : n ≤ 65535) : (BitVec.ofNat 16 n : Half).toNat = n := by
  simp only [BitVec.toNat_ofNat]
  omega

/-- The length field holds `N + 2` where it fits (R102). -/
theorem lengthField_toNat (p : List Byte) (h : p.length ≤ 65533) : (lengthField p).toNat = p.length + 2 :=
  count_toNat _ (by omega)

/-- A frame has `11 + N` bytes (R102). -/
theorem frameBytes_length (s : Half) (a : Word32) (t : Byte) (p : List Byte) (c : Half) :
    (frameBytes s a t p c).length = 11 + p.length := by
  simp [frameBytes]
  omega

/-- The header of the bytes of a frame, and what follows it. -/
theorem parseHeader_frameBytes (s : Half) (a : Word32) (t : Byte) (p : List Byte) (c : Half) :
    parseHeader (frameBytes s a t p c) =
      some ({ startCode := s, address := a, ptype := t, length := lengthField p }, p ++ bytes16 c) := by
  simp [frameBytes, bytes16, bytes32, parseHeader]

/-- Payload and checksum of the bytes of a frame. -/
theorem parseBody_frame (h : FrameHeader) (p : List Byte) (c : Half) (hl : h.length.toNat = p.length + 2) :
    parseBody h (p ++ bytes16 c) = some (p, c) := by
  have hd : (p ++ bytes16 c).drop (h.length.toNat - 2) = bytes16 c := by simp [hl]
  simp only [parseBody, hd]
  simp [hl, bytes16]

/-- What `parseHeader` reads is a sequence of 9 bytes or more, and the rest of it. -/
theorem parseHeader_eq_some (bs body : List Byte) (h : FrameHeader) (hp : parseHeader bs = some (h, body)) :
    bs = bytes16 h.startCode ++ bytes32 h.address ++ [h.ptype] ++ bytes16 h.length ++ body := by
  unfold parseHeader at hp
  split at hp
  · simp only [Option.some.injEq, Prod.mk.injEq] at hp
    obtain ⟨rfl, rfl⟩ := hp
    simp
  · cases hp

/-- `parseHeader` reads every sequence of 9 bytes or more. -/
theorem parseHeader_total (bs : List Byte) (hl : 9 ≤ bs.length) :
    ∃ h, parseHeader bs = some (h, bs.drop 9) := by
  match bs, hl with
  | s1 :: s0 :: a3 :: a2 :: a1 :: a0 :: t :: l1 :: l0 :: body, _ => exact ⟨_, rfl⟩

/-- What `parseBody` reads is the payload and two checksum bytes. -/
theorem parseBody_eq_some (h : FrameHeader) (body p : List Byte) (c : Half) (hp : parseBody h body = some (p, c)) :
    body = p ++ bytes16 c ∧ h.length.toNat = p.length + 2 := by
  unfold parseBody at hp
  split at hp
  · rename_i hl
    split at hp
    · rename_i c1 c0 hd
      simp only [Option.some.injEq, Prod.mk.injEq] at hp
      obtain ⟨rfl, rfl⟩ := hp
      refine ⟨?_, ?_⟩
      · rw [bytes16_be16, ← hd, List.take_append_drop]
      · rw [List.length_take]
        omega
    · cases hp
  · cases hp

/-- `parseBody` reads every body of `L` bytes with `L >= 2`. -/
theorem parseBody_total (h : FrameHeader) (body : List Byte) (h2 : 2 ≤ h.length.toNat)
    (hl : body.length = h.length.toNat) : ∃ p c, parseBody h body = some (p, c) := by
  have hd : (body.drop (h.length.toNat - 2)).length = 2 := by simp [hl]; omega
  match hx : body.drop (h.length.toNat - 2), hd with
  | [c1, c0], _ => exact ⟨_, _, by simp [parseBody, h2, hl, hx]; exact ⟨rfl, rfl⟩⟩

end Sys2Proof.Machine
end

