-- ==== Sys2Proof/Laws/Memory.lean ====
section
/-! SUPPORT. The reassembly buffer: a read after a write, the canonical form, and what `memWrite` and `memRead` can do. -/

namespace Sys2Proof.Machine

/-- A read after a write to the same index gives the byte written. -/
@[simp] theorem Memory.lookup_insert_same (m : List Host.Cell) (i : Nat) (b : Byte) :
    Memory.lookup (Memory.insert m i b) i = some b := by
  induction m with
  | nil => simp [Memory.insert, Memory.lookup]
  | cons c m ih =>
    obtain ⟨a, d⟩ := c
    simp only [Memory.insert]
    split
    · simp [Memory.lookup]
    · split
      · simp [Memory.lookup]
      · rw [Memory.lookup, if_neg (by omega), ih]

/-- A write leaves every other index as it was. -/
theorem Memory.lookup_insert_other (m : List Host.Cell) (i j : Nat) (b : Byte) (h : j ≠ i) :
    Memory.lookup (Memory.insert m i b) j = Memory.lookup m j := by
  induction m with
  | nil => simp [Memory.insert, Memory.lookup, Ne.symm h]
  | cons c m ih =>
    obtain ⟨a, d⟩ := c
    simp only [Memory.insert]
    split
    · simp [Memory.lookup, Ne.symm h]
    · split
      · rename_i h1 h2
        subst h2
        simp [Memory.lookup, Ne.symm h]
      · simp only [Memory.lookup, ih]

/-- The addresses after a write: the old ones and the one written. -/
theorem Memory.mem_insert (m : List Host.Cell) (i : Nat) (b : Byte) (c : Host.Cell)
    (h : c ∈ Memory.insert m i b) : c = (i, b) ∨ c ∈ m := by
  induction m with
  | nil => simpa [Memory.insert] using h
  | cons d m ih =>
    obtain ⟨a, e⟩ := d
    simp only [Memory.insert] at h
    split at h
    · simpa using h
    · split at h
      · rcases List.mem_cons.mp h with h | h
        · exact .inl h
        · exact .inr (List.mem_cons_of_mem _ h)
      · rcases List.mem_cons.mp h with h | h
        · exact .inr (h ▸ List.mem_cons_self)
        · rcases ih h with h | h
          · exact .inl h
          · exact .inr (List.mem_cons_of_mem _ h)

/-- A write keeps the canonical form. -/
theorem Memory.wf_insert (m : List Host.Cell) (i : Nat) (b : Byte) (h : Memory.wf m) :
    Memory.wf (Memory.insert m i b) := by
  induction m with
  | nil => simp [Memory.insert, Memory.wf]
  | cons d m ih =>
    obtain ⟨a, e⟩ := d
    have hm : (∀ x ∈ m.map Prod.fst, a < x) ∧ Memory.wf m := by simpa [Memory.wf] using h
    simp only [Memory.insert]
    split
    · rename_i hi
      refine List.pairwise_cons.mpr ⟨?_, h⟩
      intro x hx
      rcases List.mem_cons.mp hx with rfl | hx
      · exact hi
      · exact lt_trans hi (hm.1 x hx)
    · split
      · rename_i h1 h2
        subst h2
        exact List.pairwise_cons.mpr hm
      · refine List.pairwise_cons.mpr ⟨?_, ih hm.2⟩
        intro x hx
        obtain ⟨c, hc, rfl⟩ := List.mem_map.mp hx
        rcases Memory.mem_insert m i b c hc with rfl | hc
        · show a < i
          omega
        · exact hm.1 _ (List.mem_map_of_mem hc)

/-- Everything `memWrite` can do. -/
theorem memWrite_eq_ok (cap : Nat) (m m' : List Host.Cell) (i : Nat) (b : Byte) :
    memWrite cap m i b = .ok m' ↔ i < cap ∧ m' = Memory.insert m i b := by
  unfold memWrite
  split <;> simp_all [eq_comm]

/-- Everything `memRead` can do: it gives the bytes of written indices of the current frame and nothing else. -/
theorem memRead_eq_ok (valid : Nat) (m : List Host.Cell) (n : Nat) : ∀ (i : Nat) (bs : List Byte),
    memRead valid m i n = .ok bs ↔
      bs.length = n ∧ ∀ j, j < n → i + j < valid ∧ Memory.lookup m (i + j) = bs[j]? := by
  induction n with
  | zero =>
    intro i bs
    cases bs <;> simp [memRead]
  | succ n ih =>
    intro i bs
    constructor
    · intro h
      simp only [memRead] at h
      split at h
      · rename_i hi
        split at h
        · cases h
        · rename_i b hb
          split at h
          · rename_i cs hcs
            have he : b :: cs = bs := by simpa using h
            subst he
            obtain ⟨hl, hj⟩ := (ih _ _).mp hcs
            refine ⟨by simp [hl], ?_⟩
            intro j hjn
            cases j with
            | zero => exact ⟨hi, by simpa using hb⟩
            | succ j =>
              have := hj j (by omega)
              simpa [Nat.add_assoc, Nat.add_comm 1 j] using this
          · cases h
      · cases h
    · rintro ⟨hl, hj⟩
      cases bs with
      | nil => simp at hl
      | cons b cs =>
        have h0 := hj 0 (by omega)
        have hcs : memRead valid m (i + 1) n = .ok cs := by
          refine (ih _ _).mpr ⟨by simpa using hl, ?_⟩
          intro j hjn
          have := hj (j + 1) (by omega)
          simpa [Nat.add_assoc, Nat.add_comm 1 j] using this
        have hb : Memory.lookup m i = some b := by simpa using h0.2
        have hi : i < valid := by simpa using h0.1
        simp [memRead, hi, hb, hcs]

/-- Where every index is written and of the current frame, `memRead` answers. -/
theorem memRead_total (valid : Nat) (m : List Host.Cell) (n i : Nat) (hv : i + n ≤ valid)
    (hw : ∀ j, i ≤ j → j < i + n → (Memory.lookup m j).isSome = true) : ∃ bs, memRead valid m i n = .ok bs := by
  induction n generalizing i with
  | zero => exact ⟨[], rfl⟩
  | succ n ih =>
    obtain ⟨bs, hbs⟩ := ih (i + 1) (by omega) (fun j h1 h2 => hw j (by omega) (by omega))
    obtain ⟨b, hb⟩ := Option.isSome_iff_exists.mp (hw i (by omega) (by omega))
    exact ⟨b :: bs, by simp [memRead, hb, hbs, show i < valid by omega]⟩

end Sys2Proof.Machine
end

