-- ==== Sys2Proof/Laws/State.lean ====
section
/-! SUPPORT. One lemma per field per named update of the block and of the machine, so that no later proof unfolds a record
update. -/

namespace Sys2Proof.Machine

/-! ### `Block.emptyBuffer` -/

@[simp] theorem Block.emptyBuffer_rxState (k : Block) : k.emptyBuffer.rxState = .idle := rfl
@[simp] theorem Block.emptyBuffer_rxCount (k : Block) : k.emptyBuffer.rxCount = 0 := rfl
@[simp] theorem Block.emptyBuffer_rxExpected (k : Block) : k.emptyBuffer.rxExpected = 0 := rfl
@[simp] theorem Block.emptyBuffer_rxBuf (k : Block) : k.emptyBuffer.rxBuf = k.rxBuf := rfl
@[simp] theorem Block.emptyBuffer_slot (k : Block) : k.emptyBuffer.slot = k.slot := rfl
@[simp] theorem Block.emptyBuffer_done (k : Block) : k.emptyBuffer.done = k.done := rfl
@[simp] theorem Block.emptyBuffer_waiting (k : Block) : k.emptyBuffer.waiting = k.waiting := rfl
@[simp] theorem Block.emptyBuffer_overrun (k : Block) : k.emptyBuffer.overrun = k.overrun := rfl
@[simp] theorem Block.emptyBuffer_wdtCount (k : Block) : k.emptyBuffer.wdtCount = k.wdtCount := rfl
@[simp] theorem Block.emptyBuffer_wdtLimit (k : Block) : k.emptyBuffer.wdtLimit = k.wdtLimit := rfl
@[simp] theorem Block.emptyBuffer_txStream (k : Block) : k.emptyBuffer.txStream = k.txStream := rfl

/-! ### `Block.withBuf` -/

@[simp] theorem Block.withBuf_rxState (k : Block) (m : List Host.Cell) : (k.withBuf m).rxState = k.rxState := rfl
@[simp] theorem Block.withBuf_rxCount (k : Block) (m : List Host.Cell) : (k.withBuf m).rxCount = k.rxCount := rfl
@[simp] theorem Block.withBuf_rxExpected (k : Block) (m : List Host.Cell) : (k.withBuf m).rxExpected = k.rxExpected := rfl
@[simp] theorem Block.withBuf_rxBuf (k : Block) (m : List Host.Cell) : (k.withBuf m).rxBuf = m := rfl
@[simp] theorem Block.withBuf_slot (k : Block) (m : List Host.Cell) : (k.withBuf m).slot = k.slot := rfl
@[simp] theorem Block.withBuf_done (k : Block) (m : List Host.Cell) : (k.withBuf m).done = k.done := rfl
@[simp] theorem Block.withBuf_waiting (k : Block) (m : List Host.Cell) : (k.withBuf m).waiting = k.waiting := rfl
@[simp] theorem Block.withBuf_overrun (k : Block) (m : List Host.Cell) : (k.withBuf m).overrun = k.overrun := rfl
@[simp] theorem Block.withBuf_wdtCount (k : Block) (m : List Host.Cell) : (k.withBuf m).wdtCount = k.wdtCount := rfl
@[simp] theorem Block.withBuf_wdtLimit (k : Block) (m : List Host.Cell) : (k.withBuf m).wdtLimit = k.wdtLimit := rfl
@[simp] theorem Block.withBuf_txStream (k : Block) (m : List Host.Cell) : (k.withBuf m).txStream = k.txStream := rfl

/-! ### `Block.countTo` -/

@[simp] theorem Block.countTo_rxState (k : Block) (c : Nat) (st : RxState) : (k.countTo c st).rxState = st := rfl
@[simp] theorem Block.countTo_rxCount (k : Block) (c : Nat) (st : RxState) : (k.countTo c st).rxCount = BitVec.ofNat 16 c := rfl
@[simp] theorem Block.countTo_rxExpected (k : Block) (c : Nat) (st : RxState) : (k.countTo c st).rxExpected = k.rxExpected := rfl
@[simp] theorem Block.countTo_rxBuf (k : Block) (c : Nat) (st : RxState) : (k.countTo c st).rxBuf = k.rxBuf := rfl
@[simp] theorem Block.countTo_slot (k : Block) (c : Nat) (st : RxState) : (k.countTo c st).slot = k.slot := rfl
@[simp] theorem Block.countTo_done (k : Block) (c : Nat) (st : RxState) : (k.countTo c st).done = k.done := rfl
@[simp] theorem Block.countTo_waiting (k : Block) (c : Nat) (st : RxState) : (k.countTo c st).waiting = k.waiting := rfl
@[simp] theorem Block.countTo_overrun (k : Block) (c : Nat) (st : RxState) : (k.countTo c st).overrun = k.overrun := rfl
@[simp] theorem Block.countTo_wdtCount (k : Block) (c : Nat) (st : RxState) : (k.countTo c st).wdtCount = k.wdtCount := rfl
@[simp] theorem Block.countTo_wdtLimit (k : Block) (c : Nat) (st : RxState) : (k.countTo c st).wdtLimit = k.wdtLimit := rfl
@[simp] theorem Block.countTo_txStream (k : Block) (c : Nat) (st : RxState) : (k.countTo c st).txStream = k.txStream := rfl

/-! ### `Block.expect` -/

@[simp] theorem Block.expect_rxState (k : Block) (n : Nat) : (k.expect n).rxState = .accumulatingPayload := rfl
@[simp] theorem Block.expect_rxCount (k : Block) (n : Nat) : (k.expect n).rxCount = 9 := rfl
@[simp] theorem Block.expect_rxExpected (k : Block) (n : Nat) : (k.expect n).rxExpected = BitVec.ofNat 16 n := rfl
@[simp] theorem Block.expect_rxBuf (k : Block) (n : Nat) : (k.expect n).rxBuf = k.rxBuf := rfl
@[simp] theorem Block.expect_slot (k : Block) (n : Nat) : (k.expect n).slot = k.slot := rfl
@[simp] theorem Block.expect_done (k : Block) (n : Nat) : (k.expect n).done = k.done := rfl
@[simp] theorem Block.expect_waiting (k : Block) (n : Nat) : (k.expect n).waiting = k.waiting := rfl
@[simp] theorem Block.expect_overrun (k : Block) (n : Nat) : (k.expect n).overrun = k.overrun := rfl
@[simp] theorem Block.expect_wdtCount (k : Block) (n : Nat) : (k.expect n).wdtCount = k.wdtCount := rfl
@[simp] theorem Block.expect_wdtLimit (k : Block) (n : Nat) : (k.expect n).wdtLimit = k.wdtLimit := rfl
@[simp] theorem Block.expect_txStream (k : Block) (n : Nat) : (k.expect n).txStream = k.txStream := rfl

/-! ### `Block.deliver` -/

@[simp] theorem Block.deliver_rxState (k : Block) (r : Record) : (k.deliver r).rxState = k.rxState := rfl
@[simp] theorem Block.deliver_rxCount (k : Block) (r : Record) : (k.deliver r).rxCount = k.rxCount := rfl
@[simp] theorem Block.deliver_rxExpected (k : Block) (r : Record) : (k.deliver r).rxExpected = k.rxExpected := rfl
@[simp] theorem Block.deliver_rxBuf (k : Block) (r : Record) : (k.deliver r).rxBuf = k.rxBuf := rfl
@[simp] theorem Block.deliver_slot (k : Block) (r : Record) : (k.deliver r).slot = r := rfl
@[simp] theorem Block.deliver_done (k : Block) (r : Record) : (k.deliver r).done = true := rfl
@[simp] theorem Block.deliver_waiting (k : Block) (r : Record) : (k.deliver r).waiting = false := rfl
@[simp] theorem Block.deliver_overrun (k : Block) (r : Record) : (k.deliver r).overrun = k.overrun := rfl
@[simp] theorem Block.deliver_wdtCount (k : Block) (r : Record) : (k.deliver r).wdtCount = k.wdtCount := rfl
@[simp] theorem Block.deliver_wdtLimit (k : Block) (r : Record) : (k.deliver r).wdtLimit = k.wdtLimit := rfl
@[simp] theorem Block.deliver_txStream (k : Block) (r : Record) : (k.deliver r).txStream = k.txStream := rfl

/-! ### `Block.markOverrun` -/

@[simp] theorem Block.markOverrun_rxState (k : Block) : k.markOverrun.rxState = k.rxState := rfl
@[simp] theorem Block.markOverrun_rxCount (k : Block) : k.markOverrun.rxCount = k.rxCount := rfl
@[simp] theorem Block.markOverrun_rxExpected (k : Block) : k.markOverrun.rxExpected = k.rxExpected := rfl
@[simp] theorem Block.markOverrun_rxBuf (k : Block) : k.markOverrun.rxBuf = k.rxBuf := rfl
@[simp] theorem Block.markOverrun_slot (k : Block) : k.markOverrun.slot = k.slot := rfl
@[simp] theorem Block.markOverrun_done (k : Block) : k.markOverrun.done = k.done := rfl
@[simp] theorem Block.markOverrun_waiting (k : Block) : k.markOverrun.waiting = k.waiting := rfl
@[simp] theorem Block.markOverrun_overrun (k : Block) : k.markOverrun.overrun = true := rfl
@[simp] theorem Block.markOverrun_wdtCount (k : Block) : k.markOverrun.wdtCount = k.wdtCount := rfl
@[simp] theorem Block.markOverrun_wdtLimit (k : Block) : k.markOverrun.wdtLimit = k.wdtLimit := rfl
@[simp] theorem Block.markOverrun_txStream (k : Block) : k.markOverrun.txStream = k.txStream := rfl

/-! ### `Block.clearSlot` -/

@[simp] theorem Block.clearSlot_rxState (k : Block) : k.clearSlot.rxState = k.rxState := rfl
@[simp] theorem Block.clearSlot_rxCount (k : Block) : k.clearSlot.rxCount = k.rxCount := rfl
@[simp] theorem Block.clearSlot_rxExpected (k : Block) : k.clearSlot.rxExpected = k.rxExpected := rfl
@[simp] theorem Block.clearSlot_rxBuf (k : Block) : k.clearSlot.rxBuf = k.rxBuf := rfl
@[simp] theorem Block.clearSlot_slot (k : Block) : k.clearSlot.slot = recEmpty .none := rfl
@[simp] theorem Block.clearSlot_done (k : Block) : k.clearSlot.done = false := rfl
@[simp] theorem Block.clearSlot_waiting (k : Block) : k.clearSlot.waiting = k.waiting := rfl
@[simp] theorem Block.clearSlot_overrun (k : Block) : k.clearSlot.overrun = k.overrun := rfl
@[simp] theorem Block.clearSlot_wdtCount (k : Block) : k.clearSlot.wdtCount = k.wdtCount := rfl
@[simp] theorem Block.clearSlot_wdtLimit (k : Block) : k.clearSlot.wdtLimit = k.wdtLimit := rfl
@[simp] theorem Block.clearSlot_txStream (k : Block) : k.clearSlot.txStream = k.txStream := rfl

/-! ### `Block.clearOverrun` -/

@[simp] theorem Block.clearOverrun_rxState (k : Block) : k.clearOverrun.rxState = k.rxState := rfl
@[simp] theorem Block.clearOverrun_rxCount (k : Block) : k.clearOverrun.rxCount = k.rxCount := rfl
@[simp] theorem Block.clearOverrun_rxExpected (k : Block) : k.clearOverrun.rxExpected = k.rxExpected := rfl
@[simp] theorem Block.clearOverrun_rxBuf (k : Block) : k.clearOverrun.rxBuf = k.rxBuf := rfl
@[simp] theorem Block.clearOverrun_slot (k : Block) : k.clearOverrun.slot = k.slot := rfl
@[simp] theorem Block.clearOverrun_done (k : Block) : k.clearOverrun.done = k.done := rfl
@[simp] theorem Block.clearOverrun_waiting (k : Block) : k.clearOverrun.waiting = k.waiting := rfl
@[simp] theorem Block.clearOverrun_overrun (k : Block) : k.clearOverrun.overrun = false := rfl
@[simp] theorem Block.clearOverrun_wdtCount (k : Block) : k.clearOverrun.wdtCount = k.wdtCount := rfl
@[simp] theorem Block.clearOverrun_wdtLimit (k : Block) : k.clearOverrun.wdtLimit = k.wdtLimit := rfl
@[simp] theorem Block.clearOverrun_txStream (k : Block) : k.clearOverrun.txStream = k.txStream := rfl

/-! ### `Block.setWatchdog` -/

@[simp] theorem Block.setWatchdog_rxState (k : Block) (w : Bool) (c l : Word32) : (k.setWatchdog w c l).rxState = k.rxState := rfl
@[simp] theorem Block.setWatchdog_rxCount (k : Block) (w : Bool) (c l : Word32) : (k.setWatchdog w c l).rxCount = k.rxCount := rfl
@[simp] theorem Block.setWatchdog_rxExpected (k : Block) (w : Bool) (c l : Word32) : (k.setWatchdog w c l).rxExpected = k.rxExpected := rfl
@[simp] theorem Block.setWatchdog_rxBuf (k : Block) (w : Bool) (c l : Word32) : (k.setWatchdog w c l).rxBuf = k.rxBuf := rfl
@[simp] theorem Block.setWatchdog_slot (k : Block) (w : Bool) (c l : Word32) : (k.setWatchdog w c l).slot = k.slot := rfl
@[simp] theorem Block.setWatchdog_done (k : Block) (w : Bool) (c l : Word32) : (k.setWatchdog w c l).done = k.done := rfl
@[simp] theorem Block.setWatchdog_waiting (k : Block) (w : Bool) (c l : Word32) : (k.setWatchdog w c l).waiting = w := rfl
@[simp] theorem Block.setWatchdog_overrun (k : Block) (w : Bool) (c l : Word32) : (k.setWatchdog w c l).overrun = k.overrun := rfl
@[simp] theorem Block.setWatchdog_wdtCount (k : Block) (w : Bool) (c l : Word32) : (k.setWatchdog w c l).wdtCount = c := rfl
@[simp] theorem Block.setWatchdog_wdtLimit (k : Block) (w : Bool) (c l : Word32) : (k.setWatchdog w c l).wdtLimit = l := rfl
@[simp] theorem Block.setWatchdog_txStream (k : Block) (w : Bool) (c l : Word32) : (k.setWatchdog w c l).txStream = k.txStream := rfl

/-! ### `Block.countTick` -/

@[simp] theorem Block.countTick_rxState (k : Block) (w : Nat) : (k.countTick w).rxState = k.rxState := rfl
@[simp] theorem Block.countTick_rxCount (k : Block) (w : Nat) : (k.countTick w).rxCount = k.rxCount := rfl
@[simp] theorem Block.countTick_rxExpected (k : Block) (w : Nat) : (k.countTick w).rxExpected = k.rxExpected := rfl
@[simp] theorem Block.countTick_rxBuf (k : Block) (w : Nat) : (k.countTick w).rxBuf = k.rxBuf := rfl
@[simp] theorem Block.countTick_slot (k : Block) (w : Nat) : (k.countTick w).slot = k.slot := rfl
@[simp] theorem Block.countTick_done (k : Block) (w : Nat) : (k.countTick w).done = k.done := rfl
@[simp] theorem Block.countTick_waiting (k : Block) (w : Nat) : (k.countTick w).waiting = k.waiting := rfl
@[simp] theorem Block.countTick_overrun (k : Block) (w : Nat) : (k.countTick w).overrun = k.overrun := rfl
@[simp] theorem Block.countTick_wdtCount (k : Block) (w : Nat) : (k.countTick w).wdtCount = BitVec.ofNat 32 w := rfl
@[simp] theorem Block.countTick_wdtLimit (k : Block) (w : Nat) : (k.countTick w).wdtLimit = k.wdtLimit := rfl
@[simp] theorem Block.countTick_txStream (k : Block) (w : Nat) : (k.countTick w).txStream = k.txStream := rfl

/-! ### `Block.emit` -/

@[simp] theorem Block.emit_rxState (k : Block) (bs : List Byte) : (k.emit bs).rxState = k.rxState := rfl
@[simp] theorem Block.emit_rxCount (k : Block) (bs : List Byte) : (k.emit bs).rxCount = k.rxCount := rfl
@[simp] theorem Block.emit_rxExpected (k : Block) (bs : List Byte) : (k.emit bs).rxExpected = k.rxExpected := rfl
@[simp] theorem Block.emit_rxBuf (k : Block) (bs : List Byte) : (k.emit bs).rxBuf = k.rxBuf := rfl
@[simp] theorem Block.emit_slot (k : Block) (bs : List Byte) : (k.emit bs).slot = k.slot := rfl
@[simp] theorem Block.emit_done (k : Block) (bs : List Byte) : (k.emit bs).done = k.done := rfl
@[simp] theorem Block.emit_waiting (k : Block) (bs : List Byte) : (k.emit bs).waiting = k.waiting := rfl
@[simp] theorem Block.emit_overrun (k : Block) (bs : List Byte) : (k.emit bs).overrun = k.overrun := rfl
@[simp] theorem Block.emit_wdtCount (k : Block) (bs : List Byte) : (k.emit bs).wdtCount = k.wdtCount := rfl
@[simp] theorem Block.emit_wdtLimit (k : Block) (bs : List Byte) : (k.emit bs).wdtLimit = k.wdtLimit := rfl
@[simp] theorem Block.emit_txStream (k : Block) (bs : List Byte) : (k.emit bs).txStream = k.txStream ++ bs := rfl

/-! ### `Block.arm` -/

@[simp] theorem Block.arm_rxState (k : Block) (limit : Word32) : (k.arm limit).rxState = .idle := rfl
@[simp] theorem Block.arm_rxCount (k : Block) (limit : Word32) : (k.arm limit).rxCount = 0 := rfl
@[simp] theorem Block.arm_rxExpected (k : Block) (limit : Word32) : (k.arm limit).rxExpected = 0 := rfl
@[simp] theorem Block.arm_rxBuf (k : Block) (limit : Word32) : (k.arm limit).rxBuf = k.rxBuf := rfl
@[simp] theorem Block.arm_slot (k : Block) (limit : Word32) : (k.arm limit).slot = recEmpty .none := rfl
@[simp] theorem Block.arm_done (k : Block) (limit : Word32) : (k.arm limit).done = false := rfl
@[simp] theorem Block.arm_waiting (k : Block) (limit : Word32) : (k.arm limit).waiting = true := rfl
@[simp] theorem Block.arm_overrun (k : Block) (limit : Word32) : (k.arm limit).overrun = false := rfl
@[simp] theorem Block.arm_wdtCount (k : Block) (limit : Word32) : (k.arm limit).wdtCount = 0 := rfl
@[simp] theorem Block.arm_wdtLimit (k : Block) (limit : Word32) : (k.arm limit).wdtLimit = limit := rfl
@[simp] theorem Block.arm_txStream (k : Block) (limit : Word32) : (k.arm limit).txStream = k.txStream := rfl

/-! ### `Block.resetOp` -/

@[simp] theorem Block.resetOp_rxState (k : Block) : k.resetOp.rxState = .idle := rfl
@[simp] theorem Block.resetOp_rxCount (k : Block) : k.resetOp.rxCount = 0 := rfl
@[simp] theorem Block.resetOp_rxExpected (k : Block) : k.resetOp.rxExpected = 0 := rfl
@[simp] theorem Block.resetOp_rxBuf (k : Block) : k.resetOp.rxBuf = k.rxBuf := rfl
@[simp] theorem Block.resetOp_slot (k : Block) : k.resetOp.slot = recEmpty .none := rfl
@[simp] theorem Block.resetOp_done (k : Block) : k.resetOp.done = false := rfl
@[simp] theorem Block.resetOp_waiting (k : Block) : k.resetOp.waiting = false := rfl
@[simp] theorem Block.resetOp_overrun (k : Block) : k.resetOp.overrun = false := rfl
@[simp] theorem Block.resetOp_wdtCount (k : Block) : k.resetOp.wdtCount = 0 := rfl
@[simp] theorem Block.resetOp_wdtLimit (k : Block) : k.resetOp.wdtLimit = 0 := rfl
@[simp] theorem Block.resetOp_txStream (k : Block) : k.resetOp.txStream = k.txStream := rfl

/-! ### The machine -/

@[simp] theorem State.finishOp_params (s : State) (k : Block) (r : Ret) : (s.finishOp k r).params = s.params := rfl
@[simp] theorem State.finishOp_block (s : State) (k : Block) (r : Ret) : (s.finishOp k r).block = k := rfl
@[simp] theorem State.finishOp_agents (s : State) (k : Block) (r : Ret) : (s.finishOp k r).agents = s.agents := rfl
@[simp] theorem State.finishOp_ret (s : State) (k : Block) (r : Ret) : (s.finishOp k r).ret = r := rfl
@[simp] theorem State.afterTurn_params (s : State) (a : Agent) (q : List Item) (ts : List Agent) :
    (s.afterTurn a q ts).params = s.params := rfl
@[simp] theorem State.afterTurn_block (s : State) (a : Agent) (q : List Item) (ts : List Agent) :
    (s.afterTurn a q ts).block = s.block := rfl
@[simp] theorem State.afterTurn_ret (s : State) (a : Agent) (q : List Item) (ts : List Agent) :
    (s.afterTurn a q ts).ret = s.ret := rfl
@[simp] theorem State.afterTurn_turns (s : State) (a : Agent) (q : List Item) (ts : List Agent) :
    (s.afterTurn a q ts).agents.turns = ts := rfl

/-- The agent whose turn it was has the items given. -/
@[simp] theorem State.afterTurn_queue_same (s : State) (a : Agent) (q : List Item) (ts : List Agent) :
    (s.afterTurn a q ts).agents.queue a = q := by cases a <;> rfl

/-- The other agents' items stay. -/
theorem State.afterTurn_queue_other (s : State) (a b : Agent) (q : List Item) (ts : List Agent) (h : b ≠ a) :
    (s.afterTurn a q ts).agents.queue b = s.agents.queue b := by
  cases a <;> cases b <;> first | rfl | exact absurd rfl h

/-! ### How an operation ends -/

/-- `done` answers one state. -/
@[simp] theorem State.done_eq_next (s t : State) (kr : Block × Ret) :
    s.done kr = .next t ↔ s.finishOp kr.1 kr.2 = t := by simp [State.done]

/-- `doneOrFault` answers a state only where its operation is done. -/
theorem State.doneOrFault_eq_next (s t : State) (e : Except Fault (Block × Ret)) :
    s.doneOrFault e = .next t ↔ ∃ kr, e = .ok kr ∧ s.finishOp kr.1 kr.2 = t := by
  cases e <;> simp [State.doneOrFault, State.done]

/-- `doneBlock` answers a state only where its operation is done. -/
theorem State.doneBlock_eq_next (s t : State) (e : Except Fault Block) :
    s.doneBlock e = .next t ↔ ∃ k, e = .ok k ∧ s.finishOp k .nothing = t := by
  cases e <;> simp [State.doneBlock, State.done]

/-! ### The result latch (R262) -/

/-- Everything `finish` can do: the buffer is emptied, and the result is delivered or dropped. -/
theorem Block.finish_cases (k : Block) (r : Record) :
    (k.done = false ∧ k.finish r = k.emptyBuffer.deliver r) ∨
    (k.done = true ∧ k.finish r = k.emptyBuffer.markOverrun) := by
  cases h : k.done <;> simp [Block.finish, h]

@[simp] theorem Block.finish_rxState (k : Block) (r : Record) : (k.finish r).rxState = .idle := by
  rcases k.finish_cases r with ⟨_, e⟩ | ⟨_, e⟩ <;> simp [e]

@[simp] theorem Block.finish_rxCount (k : Block) (r : Record) : (k.finish r).rxCount = 0 := by
  rcases k.finish_cases r with ⟨_, e⟩ | ⟨_, e⟩ <;> simp [e]

@[simp] theorem Block.finish_rxExpected (k : Block) (r : Record) : (k.finish r).rxExpected = 0 := by
  rcases k.finish_cases r with ⟨_, e⟩ | ⟨_, e⟩ <;> simp [e]

@[simp] theorem Block.finish_done (k : Block) (r : Record) : (k.finish r).done = true := by
  rcases k.finish_cases r with ⟨h, e⟩ | ⟨h, e⟩ <;> simp [e, h]

@[simp] theorem Block.finish_rxBuf (k : Block) (r : Record) : (k.finish r).rxBuf = k.rxBuf := by
  rcases k.finish_cases r with ⟨_, e⟩ | ⟨_, e⟩ <;> simp [e]

@[simp] theorem Block.finish_wdtCount (k : Block) (r : Record) : (k.finish r).wdtCount = k.wdtCount := by
  rcases k.finish_cases r with ⟨_, e⟩ | ⟨_, e⟩ <;> simp [e]

@[simp] theorem Block.finish_wdtLimit (k : Block) (r : Record) : (k.finish r).wdtLimit = k.wdtLimit := by
  rcases k.finish_cases r with ⟨_, e⟩ | ⟨_, e⟩ <;> simp [e]

@[simp] theorem Block.finish_txStream (k : Block) (r : Record) : (k.finish r).txStream = k.txStream := by
  rcases k.finish_cases r with ⟨_, e⟩ | ⟨_, e⟩ <;> simp [e]

end Sys2Proof.Machine
end

