-- ==== Sys2Proof/Laws/Reception.lean ====
section
/-! SUPPORT. What receiving a byte does, in terms of the frame in flight, and that it keeps the block's invariant. -/

namespace Sys2Proof.Machine

/-- The frame in flight: the bytes counted by `rx_count` are those of `f`, in order (R34). -/
structure Block.Holds (k : Block) (f : List Byte) : Prop where
  count : k.rxCount.toNat = f.length
  bytes : ∀ i, i < f.length → Memory.lookup k.rxBuf i = f[i]?

/-- A buffer whose counted bytes are written holds some frame in flight. -/
theorem Block.holds_of_written (k : Block)
    (h : ∀ i, i < k.rxCount.toNat → (Memory.lookup k.rxBuf i).isSome = true) : ∃ f, k.Holds f := by
  obtain ⟨f, hf⟩ := memRead_total k.rxCount.toNat k.rxBuf k.rxCount.toNat 0 (by omega)
    (fun j _ hj => h j (by omega))
  obtain ⟨hl, hb⟩ := (memRead_eq_ok _ _ _ _ _).mp hf
  exact ⟨f, hl.symm, fun i hi => by simpa using (hb i (by omega)).2⟩

/-- Reading the first bytes of the frame in flight gives them. -/
theorem memRead_prefix (m : List Host.Cell) (f : List Byte) (n : Nat) (hn : n ≤ f.length)
    (h : ∀ i, i < f.length → Memory.lookup m i = f[i]?) : memRead f.length m 0 n = .ok (f.take n) := by
  refine (memRead_eq_ok _ _ _ _ _).mpr ⟨by simp [hn], fun j hj => ⟨by omega, ?_⟩⟩
  simp [hj, h j (by omega)]

/-- The buffer after the next byte is stored. -/
theorem lookup_stored (m : List Host.Cell) (f : List Byte) (b : Byte)
    (h : ∀ i, i < f.length → Memory.lookup m i = f[i]?) :
    ∀ i, i < (f ++ [b]).length → Memory.lookup (Memory.insert m f.length b) i = (f ++ [b])[i]? := by
  intro i hi
  by_cases hif : i = f.length
  · subst hif
    simp
  · have hlt : i < f.length := by simp at hi; omega
    rw [Memory.lookup_insert_other _ _ _ _ hif, h i hlt, List.getElem?_append_left hlt]

/-- The block with the next byte in its buffer, before the count moves. -/
def Block.stored (k : Block) (b : Byte) : Block := k.withBuf (Memory.insert k.rxBuf k.rxCount.toNat b)

/-- `RX_BYTE` stores its byte and goes on, wherever the buffer has room and `rx_state` is not `Complete`. -/
theorem Block.rxByte_stored (p : Config.Params) (k : Block) (b : Byte) (hs : k.rxState ≠ .complete)
    (hc : k.rxCount.toNat < p.rxCapacity) :
    k.rxByte p b = (k.stored b).byteStored p (k.rxCount.toNat + 1) := by
  simp [Block.rxByte, hs, memWrite, hc, Block.stored]

/-- A byte of the header before the ninth (R182). -/
theorem Block.rxByte_header (p : Config.Params) (k : Block) (b : Byte) (hs : k.rxState ≠ .complete)
    (hp : k.rxCount.toNat < p.rxCapacity) (hc : k.rxCount.toNat < 8) :
    k.rxByte p b = .ok ((k.stored b).countTo (k.rxCount.toNat + 1) .accumulatingHeader) := by
  rw [Block.rxByte_stored p k b hs hp, Block.byteStored, if_pos (by omega)]

/-- The ninth byte (R183): the header is complete and its length is checked. -/
theorem Block.rxByte_ninth (p : Config.Params) (k : Block) (b : Byte) (f : List Byte) (hs : k.rxState ≠ .complete)
    (hp : k.rxCount.toNat < p.rxCapacity) (hf : k.Holds f) (h8 : f.length = 8) :
    ∃ h, parseHeader (f ++ [b]) = some (h, []) ∧ k.rxByte p b = .ok ((k.stored b).headerDone p h) := by
  obtain ⟨h, hh⟩ := parseHeader_total (f ++ [b]) (by simp [h8])
  have hd : (f ++ [b]).drop 9 = [] := List.drop_eq_nil_of_le (by simp [h8])
  rw [hd] at hh
  refine ⟨h, hh, ?_⟩
  have h9 : (f ++ [b]).length = 9 := by simp [h8]
  have hb := lookup_stored k.rxBuf f b hf.bytes
  rw [← hf.count] at hb
  have hr := memRead_prefix _ (f ++ [b]) 9 (by omega) hb
  rw [h9, List.take_of_length_le (by omega)] at hr
  have hc : k.rxCount.toNat + 1 = 9 := by rw [hf.count, h8]
  rw [Block.rxByte_stored p k b hs hp, Block.byteStored, if_neg (by omega), if_pos hc, Block.readHeader]
  simp only [Block.stored, Block.withBuf_rxBuf] at hr ⊢
  rw [hr]
  simp [hh]

/-- A payload or checksum byte that does not end the frame (R184). -/
theorem Block.rxByte_payload (p : Config.Params) (k : Block) (b : Byte) (hs : k.rxState ≠ .complete)
    (hp : k.rxCount.toNat < p.rxCapacity) (h9 : 9 ≤ k.rxCount.toNat) (he : k.rxCount.toNat + 1 < k.rxExpected.toNat) :
    k.rxByte p b = .ok ((k.stored b).countTo (k.rxCount.toNat + 1) k.rxState) := by
  rw [Block.rxByte_stored p k b hs hp, Block.byteStored, if_neg (by omega), if_neg (by omega),
    if_pos (by simpa [Block.stored] using he)]
  rfl

/-- The last byte of a frame (R184): the whole frame is parsed and its result latched. -/
theorem Block.rxByte_last (p : Config.Params) (k : Block) (b : Byte) (f : List Byte) (r : Record)
    (hs : k.rxState ≠ .complete) (hp : k.rxCount.toNat < p.rxCapacity) (hf : k.Holds f)
    (h9 : 9 ≤ k.rxCount.toNat) (he : k.rxCount.toNat + 1 = k.rxExpected.toNat)
    (hr : recFrame p.csumLenMode (f ++ [b]) = .ok r) :
    k.rxByte p b = .ok ((k.stored b).finish r) := by
  have hb := lookup_stored k.rxBuf f b hf.bytes
  rw [← hf.count] at hb
  have hl : (f ++ [b]).length = k.rxCount.toNat + 1 := by simp [hf.count]
  have hm := memRead_prefix _ (f ++ [b]) (k.rxCount.toNat + 1) (by omega) hb
  rw [hl, List.take_of_length_le (by omega)] at hm
  rw [Block.rxByte_stored p k b hs hp, Block.byteStored, if_neg (by omega), if_neg (by omega),
    if_neg (by simp [Block.stored]; omega), Block.readFrame]
  simp only [Block.stored, Block.withBuf_rxBuf, Block.withBuf_rxExpected] at hm ⊢
  rw [← he, hm]
  simp [hr]

/-- `rec_full` is defined on every sequence of `9 + L` bytes with `L >= 2`. -/
theorem recFrame_total (mode : CsumLenMode) (f : List Byte) (h : FrameHeader) (body : List Byte)
    (hh : parseHeader f = some (h, body)) (h2 : 2 ≤ h.length.toNat) (hl : body.length = h.length.toNat) :
    ∃ p c, parseBody h body = some (p, c) ∧ recFrame mode f = .ok (recFull mode h p c) := by
  obtain ⟨p, c, hp⟩ := parseBody_total h body h2 hl
  exact ⟨p, c, hp, by simp [recFrame, hh, hp]⟩

/-- The frame in flight after a byte that does not end it. -/
theorem Block.stored_holds (k : Block) (b : Byte) (f : List Byte) (st : RxState) (hf : k.Holds f)
    (hl : f.length + 1 ≤ 65535) : ((k.stored b).countTo (k.rxCount.toNat + 1) st).Holds (f ++ [b]) where
  count := by
    simp only [Block.countTo_rxCount, hf.count, List.length_append, List.length_singleton]
    exact count_toNat _ hl
  bytes := by
    have := lookup_stored k.rxBuf f b hf.bytes
    rw [← hf.count] at this
    simpa [Block.stored] using this

/-! ## The invariant -/

/-- A result record that the slot may hold. -/
structure Record.Fits (p : Config.Params) (r : Record) : Prop where
  taken : r.result ≠ .none
  legalCode : r.result.isReserved = false
  payloadHeld : r.payload.length = r.payloadLen.toNat
  payloadFits : r.payload.length ≤ p.maxPayload

/-- `rec_empty` of a result fits the slot. -/
theorem recEmpty_fits (p : Config.Params) (res : Result) (h0 : res ≠ .none) (h : res.isReserved = false) :
    (recEmpty res).Fits p := ⟨h0, h, rfl, Nat.zero_le _⟩

/-- `rec_header` of a result fits the slot. -/
theorem recHeader_fits (p : Config.Params) (res : Result) (hd : FrameHeader) (h0 : res ≠ .none)
    (h : res.isReserved = false) : (recHeader res hd).Fits p := ⟨h0, h, rfl, Nat.zero_le _⟩

/-- `rec_full` of an accepted frame fits the slot. -/
theorem recFull_fits (p : Config.Params) (hd : FrameHeader) (pl : List Byte) (c : Half)
    (hl : hd.length.toNat = pl.length + 2) (hc : 9 + hd.length.toNat ≤ p.rxCapacity) :
    (recFull p.csumLenMode hd pl c).Fits p := by
  have hL := hd.length.isLt
  have hcap : p.rxCapacity = p.maxPayload + 11 := rfl
  refine ⟨?_, ?_, ?_, ?_⟩
  · simp only [recFull]
    split <;> simp
  · simp only [recFull]
    split <;> rfl
  · simp only [recFull]
    rw [count_toNat _ (by omega)]
    omega
  · simp only [recFull]
    omega

/-- The buffer's invariant depends on the buffer and the count alone. -/
theorem Block.BufferInv.congr {p : Config.Params} {k k' : Block} (h : k.BufferInv p) (hb : k'.rxBuf = k.rxBuf)
    (hc : k'.rxCount.toNat ≤ k.rxCount.toNat) : k'.BufferInv p where
  canonical := hb ▸ h.canonical
  inside := hb ▸ h.inside
  written := fun i hi => by rw [hb]; exact h.written i (by omega)

/-- The buffer's invariant after the next byte is stored and counted. -/
theorem Block.BufferInv.stored {p : Config.Params} {k : Block} (h : k.BufferInv p) (b : Byte)
    (hp : k.rxCount.toNat < p.rxCapacity) (k' : Block) (hb : k'.rxBuf = (k.stored b).rxBuf)
    (hc : k'.rxCount.toNat ≤ k.rxCount.toNat + 1) : k'.BufferInv p where
  canonical := by rw [hb]; exact Memory.wf_insert _ _ _ h.canonical
  inside := by
    rw [hb]
    intro c hc
    rcases Memory.mem_insert _ _ _ _ hc with rfl | hc
    · exact hp
    · exact h.inside c hc
  written := by
    intro i hi
    rw [hb]
    by_cases hik : i = k.rxCount.toNat
    · subst hik
      simp [Block.stored]
    · simp only [Block.stored, Block.withBuf_rxBuf]
      rw [Memory.lookup_insert_other _ _ _ _ hik]
      exact h.written i (by omega)

/-- An empty buffer is in phase. -/
theorem Block.phase_idle (p : Config.Params) (k : Block) (hs : k.rxState = .idle) (hc : k.rxCount = 0)
    (he : k.rxExpected = 0) : k.PhaseInv p where
  stateOfCount := by simp [hs, hc, RxState.ofCount]
  headerPhase := fun _ => he
  payloadPhase := fun h => by simp [hc] at h
  expectedLength := fun h => by simp [hc] at h

/-- Latching a result that fits keeps the slot's invariant. -/
theorem Block.SlotInv.finish {p : Config.Params} {k : Block} (h : k.SlotInv p) (r : Record) (hr : r.Fits p) :
    (k.finish r).SlotInv p := by
  rcases k.finish_cases r with ⟨_, e⟩ | ⟨hd, e⟩
  · rw [e]
    exact ⟨by simp [hr.taken], hr.legalCode, hr.payloadHeld, hr.payloadFits⟩
  · rw [e]
    exact ⟨by simpa using h.emptyIff, h.legalCode, h.payloadHeld, h.payloadFits⟩

/-- Latching a result keeps the watchdog's invariant, whatever the count within its bound. -/
theorem Block.watchdog_finish {k : Block} (r : Record) (hb : k.wdtCount.toNat ≤ max k.wdtLimit.toNat 1)
    (hw : k.waiting = true → k.done = false) : (k.finish r).WatchdogInv := by
  rcases k.finish_cases r with ⟨_, e⟩ | ⟨hd, e⟩
  · rw [e]
    exact ⟨by simp, hb, by simp⟩
  · rw [e]
    have hn : k.waiting = false := by
      cases hk : k.waiting
      · rfl
      · simp [hw hk] at hd
    exact ⟨by simp [hn], hb, by simp [hn]⟩

/-- Latching a result that fits keeps the invariant, where the buffer is within its bounds. -/
theorem Block.Inv.finish_of {p : Config.Params} {k : Block} (r : Record) (hr : r.Fits p) (hb : k.BufferInv p)
    (hs : k.SlotInv p) (hw : k.WatchdogInv) : (k.finish r).Inv p where
  buffer := hb.congr (by simp) (by simp)
  phase := Block.phase_idle p _ (by simp) (by simp) (by simp)
  slot := hs.finish r hr
  watchdog := Block.watchdog_finish r hw.countBound hw.waitingMeansEmpty

/-- `Complete` is never held (R187). -/
theorem Block.PhaseInv.not_complete {p : Config.Params} {k : Block} (h : k.PhaseInv p) : k.rxState ≠ .complete := by
  rw [h.stateOfCount]
  unfold RxState.ofCount
  split
  · simp
  · split <;> simp

/-- The buffer has room for the next byte (R195). -/
theorem Block.PhaseInv.room {p : Config.Params} {k : Block} (h : k.PhaseInv p) : k.rxCount.toNat < p.rxCapacity := by
  have hcap : p.rxCapacity = p.maxPayload + 11 := rfl
  by_cases h9 : 9 ≤ k.rxCount.toNat
  · have := h.payloadPhase h9
    omega
  · omega

/-- The header of the frame in flight, read from its bytes: its length field is the one in the buffer. -/
theorem length_of_header (m : List Host.Cell) (f body : List Byte) (h : FrameHeader)
    (hf : ∀ i, i < f.length → Memory.lookup m i = f[i]?) (hh : parseHeader f = some (h, body)) :
    ∃ a b, Memory.lookup m 7 = some a ∧ Memory.lookup m 8 = some b ∧ be16 a b = h.length := by
  have e := parseHeader_eq_some _ _ _ hh
  have hlen : 9 ≤ f.length := by rw [e]; simp; omega
  refine ⟨_, _, (hf 7 (by omega)).trans ?_, (hf 8 (by omega)).trans ?_, be16_bytes16 h.length⟩ <;>
    simp [e, bytes16, bytes32]

/-- Receiving a byte answers a block from every block that meets the invariant, and keeps it. -/
theorem Block.Inv.rxByte {p : Config.Params} {k : Block} (hp : p.wf) (h : k.Inv p) (b : Byte) :
    ∃ k', k.rxByte p b = .ok k' ∧ k'.Inv p := by
  have hs := h.phase.not_complete
  have hr := h.phase.room
  have hcap : p.rxCapacity = p.maxPayload + 11 := rfl
  have hp' : p.maxPayload ≤ 65524 := hp
  obtain ⟨f, hf⟩ := k.holds_of_written h.buffer.written
  have hfl := hf.count
  have hsl : (k.stored b).SlotInv p := ⟨h.slot.emptyIff, h.slot.legalCode, h.slot.payloadHeld, h.slot.payloadFits⟩
  have hwd : (k.stored b).WatchdogInv :=
    ⟨h.watchdog.waitingMeansEmpty, h.watchdog.countBound, h.watchdog.countBelow⟩
  have hbuf : (k.stored b).BufferInv p := h.buffer.stored b hr _ rfl (by simp [Block.stored])
  by_cases h8 : k.rxCount.toNat < 8
  · refine ⟨_, Block.rxByte_header p k b hs hr h8, ?_, ?_, ?_, ?_⟩
    · exact h.buffer.stored b hr _ rfl (by simp only [Block.countTo_rxCount]; rw [count_toNat _ (by omega)])
    · refine ⟨?_, ?_, ?_, ?_⟩ <;> simp only [Block.countTo_rxCount, Block.countTo_rxState, Block.countTo_rxExpected] <;>
        rw [count_toNat _ (by omega)]
      · simp [RxState.ofCount, show k.rxCount.toNat + 1 ≤ 8 by omega]
      · exact fun _ => h.phase.headerPhase (by omega)
      · omega
      · omega
    · exact ⟨hsl.emptyIff, hsl.legalCode, hsl.payloadHeld, hsl.payloadFits⟩
    · exact ⟨hwd.waitingMeansEmpty, hwd.countBound, hwd.countBelow⟩
  · by_cases h9 : k.rxCount.toNat = 8
    · obtain ⟨hd, hh, he⟩ := Block.rxByte_ninth p k b f hs hr hf (by omega)
      refine ⟨_, he, ?_⟩
      unfold Block.headerDone
      split
      · exact Block.Inv.finish_of _ (recHeader_fits p _ hd (by simp) rfl) hbuf hsl hwd
      · split
        · exact Block.Inv.finish_of _ (recHeader_fits p _ hd (by simp) rfl) hbuf hsl hwd
        · rename_i h2 hc
          have hL := hd.length.isLt
          have hex : (BitVec.ofNat 16 (9 + hd.length.toNat) : Half).toNat = 9 + hd.length.toNat :=
            count_toNat _ (by omega)
          have hb := lookup_stored k.rxBuf f b hf.bytes
          rw [← hfl] at hb
          obtain ⟨x, y, hx, hy, hxy⟩ := length_of_header _ _ _ _ hb hh
          refine ⟨?_, ?_, ?_, ?_⟩
          · exact h.buffer.stored b hr _ rfl (by simp [h9])
          · refine ⟨?_, ?_, ?_, ?_⟩
            · simp [RxState.ofCount]
            · intro hc9
              simp at hc9
            · intro _
              simp only [Block.expect_rxCount, Block.expect_rxExpected, hex]
              refine ⟨?_, by omega, by omega⟩
              show 9 < _
              omega
            · intro _
              refine ⟨hd.length, ?_, ?_⟩
              · simp [Block.lengthInFlight, Block.stored, hx, hy, hxy]
              · simp only [Block.expect_rxExpected, hex]
          · exact ⟨hsl.emptyIff, hsl.legalCode, hsl.payloadHeld, hsl.payloadFits⟩
          · exact ⟨hwd.waitingMeansEmpty, hwd.countBound, hwd.countBelow⟩
    · have h9' : 9 ≤ k.rxCount.toNat := by omega
      obtain ⟨hlt, h11, hle⟩ := h.phase.payloadPhase h9'
      obtain ⟨len, hlen, hexp⟩ := h.phase.expectedLength h9'
      by_cases hlast : k.rxCount.toNat + 1 < k.rxExpected.toNat
      · refine ⟨_, Block.rxByte_payload p k b hs hr h9' hlast, ?_, ?_, ?_, ?_⟩
        · exact h.buffer.stored b hr _ rfl (by simp only [Block.countTo_rxCount]; rw [count_toNat _ (by omega)])
        · refine ⟨?_, ?_, ?_, ?_⟩ <;>
            simp only [Block.countTo_rxCount, Block.countTo_rxState, Block.countTo_rxExpected] <;>
            rw [count_toNat _ (by omega)]
          · rw [h.phase.stateOfCount]
            simp [RxState.ofCount, show ¬ k.rxCount.toNat ≤ 8 by omega, show ¬ k.rxCount.toNat + 1 ≤ 8 by omega,
              show k.rxCount.toNat ≠ 0 by omega]
          · omega
          · exact fun _ => ⟨hlast, h11, hle⟩
          · intro _
            refine ⟨len, ?_, hexp⟩
            have hne : (7 : Nat) ≠ k.rxCount.toNat := by omega
            have hne' : (8 : Nat) ≠ k.rxCount.toNat := by omega
            simpa [Block.lengthInFlight, Block.stored, Memory.lookup_insert_other _ _ _ _ hne,
              Memory.lookup_insert_other _ _ _ _ hne'] using hlen
        · exact ⟨hsl.emptyIff, hsl.legalCode, hsl.payloadHeld, hsl.payloadFits⟩
        · exact ⟨hwd.waitingMeansEmpty, hwd.countBound, hwd.countBelow⟩
      · have hlast' : k.rxCount.toNat + 1 = k.rxExpected.toNat := by omega
        have hl9 : 9 ≤ (f ++ [b]).length := by simp; omega
        obtain ⟨hd, hh⟩ := parseHeader_total (f ++ [b]) hl9
        have hb := lookup_stored k.rxBuf f b hf.bytes
        rw [← hfl] at hb
        obtain ⟨x, y, hx, hy, hxy⟩ := length_of_header _ _ _ _ hb hh
        have hne : (7 : Nat) ≠ k.rxCount.toNat := by omega
        have hne' : (8 : Nat) ≠ k.rxCount.toNat := by omega
        rw [Memory.lookup_insert_other _ _ _ _ hne] at hx
        rw [Memory.lookup_insert_other _ _ _ _ hne'] at hy
        have hL : len = hd.length := by
          have : some (be16 x y) = some len := by simpa [Block.lengthInFlight, hx, hy] using hlen
          rw [← hxy]
          exact (Option.some.inj this).symm
        subst hL
        obtain ⟨pl, c, hpb, hrec⟩ := recFrame_total p.csumLenMode (f ++ [b]) hd _ hh (by omega) (by simp; omega)
        have hpl := (parseBody_eq_some _ _ _ _ hpb).2
        exact ⟨_, Block.rxByte_last p k b f _ hs hr hf h9' hlast' hrec,
          Block.Inv.finish_of _ (recFull_fits p hd pl c hpl (by omega)) hbuf hsl hwd⟩

/-- Receiving bytes one after another answers a block that meets the invariant. -/
theorem Block.Inv.rxBytes {p : Config.Params} (hp : p.wf) (bs : List Byte) : ∀ {k : Block}, k.Inv p →
    ∃ k', k.rxBytes p bs = .ok k' ∧ k'.Inv p := by
  induction bs with
  | nil => exact fun h => ⟨_, rfl, h⟩
  | cons b bs ih =>
    intro k h
    obtain ⟨k', hk, h'⟩ := h.rxByte hp b
    obtain ⟨k'', hk', h''⟩ := ih h'
    exact ⟨k'', by simp [Block.rxBytes, hk, hk'], h''⟩

/-- Bytes received in two parts (R193). -/
theorem Block.rxBytes_append (p : Config.Params) (bs cs : List Byte) : ∀ (k k' : Block), k.rxBytes p bs = .ok k' →
    k.rxBytes p (bs ++ cs) = k'.rxBytes p cs := by
  induction bs with
  | nil =>
    intro k k' h
    cases h
    rfl
  | cons b bs ih =>
    intro k k' h
    simp only [Block.rxBytes, List.cons_append] at h ⊢
    cases hb : k.rxByte p b with
    | error e => simp [hb] at h
    | ok k1 =>
      simp only [hb] at h ⊢
      exact ih k1 k' h

end Sys2Proof.Machine
end

