-- ==== Sys2Proof/Laws/Invariant.lean ====
section
/-! SUPPORT. Every operation on the block keeps its invariant, and answers a block from one that meets it. -/

namespace Sys2Proof.Machine

/-- Sending touches nothing the invariant speaks of (R141). -/
theorem Block.Inv.emit {p : Config.Params} {k : Block} (h : k.Inv p) (bs : List Byte) : (k.emit bs).Inv p where
  buffer := ⟨h.buffer.canonical, h.buffer.inside, h.buffer.written⟩
  phase := ⟨h.phase.stateOfCount, h.phase.headerPhase, h.phase.payloadPhase, h.phase.expectedLength⟩
  slot := ⟨h.slot.emptyIff, h.slot.legalCode, h.slot.payloadHeld, h.slot.payloadFits⟩
  watchdog := ⟨h.watchdog.waitingMeansEmpty, h.watchdog.countBound, h.watchdog.countBelow⟩

/-- A payload over the limit is refused whatever the type (R142). -/
theorem encodeRefusal_long (p : Config.Params) (t : Byte) (pl : List Byte) (h : p.maxPayload < pl.length) :
    encodeRefusal p t pl = some .payloadTooLong := if_pos h

/-- A payload within the limit is refused for its type alone (R142). -/
theorem encodeRefusal_fits (p : Config.Params) (t : Byte) (pl : List Byte) (h : pl.length ≤ p.maxPayload) :
    encodeRefusal p t pl = if isPacketType t then none else some .badType := if_neg (Nat.not_lt.mpr h)

/-- `ENCODE` of an invalid request (R267). -/
theorem Block.encode_refused (p : Config.Params) (k : Block) (addr : Word32) (t : Byte) (pl : List Byte) (r : EncodeReason)
    (h : encodeRefusal p t pl = some r) : k.encode p addr t pl = (k, .invalidRequest r) := by
  simp [Block.encode, h]

/-- `ENCODE` of a valid request (R141). -/
theorem Block.encode_valid (p : Config.Params) (k : Block) (addr : Word32) (t : Byte) (pl : List Byte)
    (h : encodeRefusal p t pl = none) :
    k.encode p addr t pl = (k.emit (encodeFrame p addr t pl), .encoded (encodeFrame p addr t pl)) := by
  simp [Block.encode, h]

/-- Everything `ENCODE` can do to the block: nothing, or bytes appended to `tx_stream`. -/
theorem Block.encode_block (p : Config.Params) (k : Block) (addr : Word32) (t : Byte) (pl : List Byte) :
    (k.encode p addr t pl).1 = k ∨ (k.encode p addr t pl).1 = k.emit (encodeFrame p addr t pl) := by
  unfold Block.encode
  split
  · exact .inl rfl
  · exact .inr rfl

/-- `ENCODE` keeps the invariant. -/
theorem Block.Inv.encode {p : Config.Params} {k : Block} (h : k.Inv p) (addr : Word32) (t : Byte) (pl : List Byte) :
    (k.encode p addr t pl).1.Inv p := by
  rcases Block.encode_block p k addr t pl with e | e <;> rw [e]
  · exact h
  · exact h.emit _

/-- A block with an empty buffer, an empty slot and a watchdog within its bounds meets the invariant. -/
theorem Block.inv_of_empty (p : Config.Params) (k : Block) (hb : k.BufferInv p) (hs : k.rxState = .idle)
    (hc : k.rxCount = 0) (he : k.rxExpected = 0) (hslot : k.slot = recEmpty .none) (hd : k.done = false)
    (hw : k.wdtCount = 0) : k.Inv p where
  buffer := hb
  phase := Block.phase_idle p k hs hc he
  slot := ⟨by simp [hd, hslot, recEmpty], by rw [hslot]; rfl, by rw [hslot]; rfl, by simp [hslot, recEmpty]⟩
  watchdog := ⟨fun _ => hd, by simp [hw], fun _ => by simp [hw]⟩

/-- `ARM` establishes the invariant wherever the buffer's cells are canonical. -/
theorem Block.Inv.arm {p : Config.Params} {k : Block} (h : k.Inv p) (limit : Word32) : (k.arm limit).Inv p :=
  Block.inv_of_empty p _ (h.buffer.congr rfl (Nat.zero_le _)) rfl rfl rfl rfl rfl rfl

/-- `RESET` establishes the invariant wherever the buffer's cells are canonical. -/
theorem Block.Inv.resetOp {p : Config.Params} {k : Block} (h : k.Inv p) : k.resetOp.Inv p :=
  Block.inv_of_empty p _ (h.buffer.congr rfl (Nat.zero_le _)) rfl rfl rfl rfl rfl rfl

/-- What the slot returns is the slot itself, wherever it meets its invariant. -/
theorem Record.returned_of_inv {p : Config.Params} {k : Block} (h : k.SlotInv p) : k.slot.returned = .ok k.slot := by
  have hr := h.legalCode
  have hl := h.payloadHeld
  unfold Record.returned
  rw [if_neg (by simp [hr]), if_neg (by omega), ← hl, List.take_length]

/-- Everything `TAKE` can do from a block that meets the invariant (R191). -/
theorem Block.take_eq {p : Config.Params} {k : Block} (h : k.SlotInv p) :
    k.take = .ok (if k.done then (k.clearSlot, .record k.slot) else (k, .record (recEmpty .none))) := by
  unfold Block.take
  rw [Record.returned_of_inv h]
  cases k.done <;> rfl

/-- Emptying the slot keeps the invariant. -/
theorem Block.Inv.clearSlot {p : Config.Params} {k : Block} (h : k.Inv p) : k.clearSlot.Inv p where
  buffer := ⟨h.buffer.canonical, h.buffer.inside, h.buffer.written⟩
  phase := ⟨h.phase.stateOfCount, h.phase.headerPhase, h.phase.payloadPhase, h.phase.expectedLength⟩
  slot := ⟨by simp [recEmpty], rfl, rfl, Nat.zero_le _⟩
  watchdog := ⟨fun _ => rfl, h.watchdog.countBound, h.watchdog.countBelow⟩

/-- `TAKE` keeps the invariant. -/
theorem Block.Inv.take {p : Config.Params} {k : Block} (h : k.Inv p) : ∃ kr, k.take = .ok kr ∧ kr.1.Inv p := by
  refine ⟨_, Block.take_eq h.slot, ?_⟩
  cases k.done
  · exact h
  · exact h.clearSlot

/-- Everything `TICK` can do (R190). -/
theorem Block.tick_cases (k : Block) :
    (k.waiting = false ∧ k.tick = k) ∨
    (k.waiting = true ∧ k.wdtCount.toNat + 1 < k.wdtLimit.toNat ∧ k.tick = k.countTick (k.wdtCount.toNat + 1)) ∨
    (k.waiting = true ∧ k.wdtLimit.toNat ≤ k.wdtCount.toNat + 1 ∧
      k.tick = (k.countTick (k.wdtCount.toNat + 1)).finish (recEmpty .framingTimeout)) := by
  cases hw : k.waiting
  · exact .inl ⟨rfl, by simp [Block.tick, hw]⟩
  · by_cases hl : k.wdtLimit.toNat ≤ k.wdtCount.toNat + 1
    · exact .inr (.inr ⟨rfl, hl, by simp [Block.tick, hw, hl]⟩)
    · exact .inr (.inl ⟨rfl, by omega, by simp [Block.tick, hw, hl]⟩)

/-- The counted tick is stored whole, wherever the watchdog meets its invariant (R43). -/
theorem Block.WatchdogInv.stored_tick {k : Block} (h : k.WatchdogInv) (hw : k.waiting = true) :
    (BitVec.ofNat 32 (k.wdtCount.toNat + 1) : Word32).toNat = k.wdtCount.toNat + 1 := by
  have := h.countBelow hw
  have := k.wdtLimit.isLt
  simp only [BitVec.toNat_ofNat]
  omega

/-- `TICK` keeps the invariant. -/
theorem Block.Inv.tick {p : Config.Params} {k : Block} (h : k.Inv p) : k.tick.Inv p := by
  have hb : ∀ w, (k.countTick w).BufferInv p := fun w => ⟨h.buffer.canonical, h.buffer.inside, h.buffer.written⟩
  have hs : ∀ w, (k.countTick w).SlotInv p :=
    fun w => ⟨h.slot.emptyIff, h.slot.legalCode, h.slot.payloadHeld, h.slot.payloadFits⟩
  rcases k.tick_cases with ⟨_, e⟩ | ⟨hw, hl, e⟩ | ⟨hw, hl, e⟩ <;> rw [e]
  · exact h
  · have hst := h.watchdog.stored_tick hw
    refine ⟨hb _, ⟨h.phase.stateOfCount, h.phase.headerPhase, h.phase.payloadPhase, h.phase.expectedLength⟩, hs _, ?_⟩
    refine ⟨h.watchdog.waitingMeansEmpty, ?_, fun _ => ?_⟩ <;>
      simp only [Block.countTick_wdtCount, Block.countTick_wdtLimit, hst] <;> omega
  · have hst := h.watchdog.stored_tick hw
    have hbelow := h.watchdog.countBelow hw
    refine ⟨(hb (k.wdtCount.toNat + 1)).congr (by simp) (by simp), Block.phase_idle p _ (by simp) (by simp) (by simp),
      (hs _).finish _ (recEmpty_fits p _ (by simp) rfl), ?_⟩
    refine Block.watchdog_finish _ ?_ h.watchdog.waitingMeansEmpty
    simp only [Block.countTick_wdtCount, Block.countTick_wdtLimit, hst]
    omega

end Sys2Proof.Machine
end

