-- ==== Sys2Proof/Laws/FrameInFlight.lean ====
section
/-! SUPPORT. A whole frame through the reassembler: its bytes but the last are held, and the last latches `rec_full`. -/

namespace Sys2Proof.Machine

/-- A byte sequence that is one whole frame the capacity admits (R101, R102), with its fields. -/
structure WholeFrame (p : Config.Params) (f : List Byte) (h : FrameHeader) (payload : List Byte) (c : Half) : Prop where
  bytes : f = bytes16 h.startCode ++ bytes32 h.address ++ [h.ptype] ++ bytes16 h.length ++ payload ++ bytes16 c
  length : h.length.toNat = payload.length + 2
  fits : payload.length ≤ p.maxPayload

/-- The bytes of a frame whose payload fits are one whole frame. -/
theorem wholeFrame_frameBytes (p : Config.Params) (hp : p.wf) (s : Half) (a : Word32) (t : Byte) (pl : List Byte) (c : Half)
    (hl : pl.length ≤ p.maxPayload) :
    WholeFrame p (frameBytes s a t pl c) { startCode := s, address := a, ptype := t, length := lengthField pl } pl c where
  bytes := rfl
  length := lengthField_toNat pl (by have : p.maxPayload ≤ 65524 := hp; omega)
  fits := hl

/-- Its number of bytes. -/
theorem WholeFrame.size {p : Config.Params} {f : List Byte} {h : FrameHeader} {pl : List Byte} {c : Half}
    (w : WholeFrame p f h pl c) : f.length = 9 + h.length.toNat := by
  rw [w.bytes, w.length]
  simp
  omega

/-- Its header. -/
theorem WholeFrame.header {p : Config.Params} {f : List Byte} {h : FrameHeader} {pl : List Byte} {c : Half}
    (w : WholeFrame p f h pl c) : parseHeader f = some (h, pl ++ bytes16 c) := by
  rw [w.bytes]
  simp [bytes16, bytes32, parseHeader]

/-- Its `rec_full`. -/
theorem WholeFrame.recFrame {p : Config.Params} {f : List Byte} {h : FrameHeader} {pl : List Byte} {c : Half}
    (w : WholeFrame p f h pl c) : recFrame p.csumLenMode f = .ok (recFull p.csumLenMode h pl c) := by
  simp [Machine.recFrame, w.header, parseBody_frame h pl c w.length]

/-- Nine bytes or more that begin a sequence have its header. -/
theorem parseHeader_prefix (f g body : List Byte) (h : FrameHeader) (hf : 9 ≤ f.length)
    (hh : parseHeader (f ++ g) = some (h, body)) : parseHeader f = some (h, f.drop 9) := by
  match f, hf with
  | s1 :: s0 :: a3 :: a2 :: a1 :: a0 :: t :: l1 :: l0 :: r, _ =>
    simp only [List.cons_append, parseHeader, Option.some.injEq, Prod.mk.injEq] at hh
    simp [parseHeader, hh.1]

/-- What holding part of a frame leaves as it was. -/
structure Block.SameOutside (k k' : Block) : Prop where
  slot : k'.slot = k.slot
  done : k'.done = k.done
  waiting : k'.waiting = k.waiting
  overrun : k'.overrun = k.overrun
  wdtCount : k'.wdtCount = k.wdtCount
  wdtLimit : k'.wdtLimit = k.wdtLimit
  txStream : k'.txStream = k.txStream

/-- The expected length while part of a whole frame past its header is held. -/
theorem Block.Inv.expected_of_prefix {p : Config.Params} {k : Block} (hi : k.Inv p) (f g body : List Byte)
    (h : FrameHeader) (hf : k.Holds f) (h9 : 9 ≤ f.length) (hh : parseHeader (f ++ g) = some (h, body)) :
    k.rxExpected.toNat = 9 + h.length.toNat := by
  obtain ⟨len, hl, he⟩ := hi.phase.expectedLength (by rw [hf.count]; exact h9)
  obtain ⟨a, b, ha, hb, hab⟩ := length_of_header k.rxBuf f _ h hf.bytes (parseHeader_prefix f g body h h9 hh)
  have : len = h.length := by
    have : some (be16 a b) = some len := by simpa [Block.lengthInFlight, ha, hb] using hl
    rw [← hab]
    exact (Option.some.inj this).symm
  rw [he, this]

/-- One byte of a whole frame that is not its last: it is held, and nothing outside the buffer changes. -/
theorem Block.Inv.rxByte_inside {p : Config.Params} {k : Block} (hp : p.wf) (hi : k.Inv p) (f g : List Byte) (b : Byte)
    (h : FrameHeader) (pl : List Byte) (c : Half) (hf : k.Holds f) (hw : WholeFrame p (f ++ b :: g) h pl c) (hg : g ≠ []) :
    ∃ k', k.rxByte p b = .ok k' ∧ k'.Inv p ∧ k'.Holds (f ++ [b]) ∧ k.SameOutside k' := by
  have hsz := hw.size
  have hglen : 0 < g.length := List.length_pos_iff.mpr hg
  have hcap : p.rxCapacity = p.maxPayload + 11 := rfl
  have hp' : p.maxPayload ≤ 65524 := hp
  have hlen := hw.length
  have hfit := hw.fits
  simp only [List.length_append, List.length_cons] at hsz
  have hfl := hf.count
  have hs := hi.phase.not_complete
  have hr := hi.phase.room
  obtain ⟨k1, hk1, hinv⟩ := hi.rxByte hp b
  have hh := hw.header
  by_cases h8 : k.rxCount.toNat < 8
  · have e := Block.rxByte_header p k b hs hr h8
    refine ⟨k1, hk1, hinv, ?_, ?_⟩ <;> obtain rfl : k1 = _ := Except.ok.inj (hk1.symm.trans e)
    · exact Block.stored_holds k b f _ hf (by omega)
    · exact ⟨rfl, rfl, rfl, rfl, rfl, rfl, rfl⟩
  · by_cases h9 : k.rxCount.toNat = 8
    · obtain ⟨h', hh', e⟩ := Block.rxByte_ninth p k b f hs hr hf (by omega)
      have hpre := parseHeader_prefix (f ++ [b]) g _ h (by simp; omega) (by simpa using hh)
      rw [hh'] at hpre
      obtain rfl : h' = h := (Prod.mk.inj (Option.some.inj hpre)).1
      rw [Block.headerDone, if_neg (by omega), if_neg (by omega)] at e
      refine ⟨k1, hk1, hinv, ?_, ?_⟩ <;> obtain rfl : k1 = _ := Except.ok.inj (hk1.symm.trans e)
      · refine ⟨by simp; omega, ?_⟩
        have := lookup_stored k.rxBuf f b hf.bytes
        rw [← hfl] at this
        simpa [Block.stored] using this
      · exact ⟨rfl, rfl, rfl, rfl, rfl, rfl, rfl⟩
    · have hex := hi.expected_of_prefix f (b :: g) _ h hf (by omega) hh
      have e := Block.rxByte_payload p k b hs hr (by omega) (by omega)
      refine ⟨k1, hk1, hinv, ?_, ?_⟩ <;> obtain rfl : k1 = _ := Except.ok.inj (hk1.symm.trans e)
      · exact Block.stored_holds k b f _ hf (by omega)
      · exact ⟨rfl, rfl, rfl, rfl, rfl, rfl, rfl⟩

/-- The last byte of a whole frame latches its `rec_full`. -/
theorem Block.Inv.rxByte_ends {p : Config.Params} {k : Block} (hi : k.Inv p) (f : List Byte) (b : Byte)
    (h : FrameHeader) (pl : List Byte) (c : Half) (hf : k.Holds f) (hw : WholeFrame p (f ++ [b]) h pl c) :
    k.rxByte p b = .ok ((k.stored b).finish (recFull p.csumLenMode h pl c)) := by
  have hsz := hw.size
  have hlen := hw.length
  simp only [List.length_append, List.length_singleton] at hsz
  have hfl := hf.count
  have hex := hi.expected_of_prefix f [b] _ h hf (by omega) hw.header
  exact Block.rxByte_last p k b f _ hi.phase.not_complete hi.phase.room hf (by omega) (by omega) hw.recFrame

/-- The bytes of a whole frame but the last. -/
theorem Block.Inv.rxBytes_inside {p : Config.Params} (hp : p.wf) (h : FrameHeader) (pl : List Byte) (c : Half)
    (g : List Byte) : ∀ {k : Block} (f rest : List Byte), k.Inv p → k.Holds f →
    WholeFrame p (f ++ g ++ rest) h pl c → rest ≠ [] →
    ∃ k', k.rxBytes p g = .ok k' ∧ k'.Inv p ∧ k'.Holds (f ++ g) ∧ k.SameOutside k' := by
  induction g with
  | nil =>
    intro k f rest hi hf _ _
    exact ⟨k, rfl, hi, by simpa using hf, ⟨rfl, rfl, rfl, rfl, rfl, rfl, rfl⟩⟩
  | cons b g ih =>
    intro k f rest hi hf hw hr
    obtain ⟨k1, e1, i1, h1, s1⟩ := hi.rxByte_inside hp f (g ++ rest) b h pl c hf (by simpa using hw) (by simp [hr])
    obtain ⟨k2, e2, i2, h2, s2⟩ := ih (f ++ [b]) rest i1 h1 (by simpa using hw) hr
    refine ⟨k2, by simp [Block.rxBytes, e1, e2], i2, by simpa using h2, ?_⟩
    exact ⟨s2.slot.trans s1.slot, s2.done.trans s1.done, s2.waiting.trans s1.waiting, s2.overrun.trans s1.overrun,
      s2.wdtCount.trans s1.wdtCount, s2.wdtLimit.trans s1.wdtLimit, s2.txStream.trans s1.txStream⟩

/-- An empty buffer holds the empty frame. -/
theorem Block.holds_nil (k : Block) (h : k.rxCount = 0) : k.Holds [] := ⟨by simp [h], by simp⟩

/-- A whole frame from an empty buffer: everything but its last byte is held, and the last latches `rec_full`. -/
theorem Block.Inv.rxBytes_whole {p : Config.Params} {k : Block} (hp : p.wf) (hi : k.Inv p) (h0 : k.rxCount = 0)
    (f : List Byte) (h : FrameHeader) (pl : List Byte) (c : Half) (hw : WholeFrame p f h pl c) :
    ∃ k1 b, f = f.dropLast ++ [b] ∧ k.rxBytes p f.dropLast = .ok k1 ∧ k1.Inv p ∧ k1.Holds f.dropLast ∧ k.SameOutside k1 ∧
      k.rxBytes p f = .ok ((k1.stored b).finish (recFull p.csumLenMode h pl c)) := by
  have hne : f ≠ [] := by
    intro e
    have := hw.size
    simp only [e, List.length_nil] at this
    omega
  have hl : f.dropLast ++ [f.getLast hne] = f := List.dropLast_append_getLast hne
  obtain ⟨k1, e1, i1, h1, s1⟩ := Block.Inv.rxBytes_inside hp h pl c f.dropLast (k := k) [] [f.getLast hne] hi
    (k.holds_nil h0) (by simpa [hl] using hw) (by simp)
  have h1' : k1.Holds f.dropLast := by simpa using h1
  have e2 := i1.rxByte_ends f.dropLast (f.getLast hne) h pl c h1' (by rw [hl]; exact hw)
  refine ⟨k1, f.getLast hne, hl.symm, e1, i1, h1', s1, ?_⟩
  have e := Block.rxBytes_append p f.dropLast [f.getLast hne] k k1 e1
  rw [hl] at e
  rw [e]
  simp [Block.rxBytes, e2]

end Sys2Proof.Machine
end

