-- ==== Sys2Proof/Laws/Exec.lean ====
section
/-! SUPPORT. Runs of instructions, and everything each shared operation can do to the block, said once. -/

namespace Sys2Proof.Machine

/-! ## Runs -/

@[simp] theorem State.finishOp_finishOp (s : State) (k k' : Block) (r r' : Ret) :
    (s.finishOp k r).finishOp k' r' = s.finishOp k' r' := rfl

/-- Two runs one after the other. -/
theorem runInstrs_append (is js : List Instr) : ∀ (s t : State), runInstrs is s = .next t →
    runInstrs (is ++ js) s = runInstrs js t := by
  induction is with
  | nil =>
    intro s t h
    cases h
    rfl
  | cons i is ih =>
    intro s t h
    simp only [runInstrs, List.cons_append] at h ⊢
    cases hi : exec i s with
    | next u =>
      simp only [hi] at h ⊢
      exact ih u t h
    | fault f => simp [hi] at h
    | refused r => simp [hi] at h

/-- Bytes received one by one are the block's `rxBytes` (R193). -/
theorem runInstrs_rxBytes (b : Byte) (bs : List Byte) : ∀ (s : State),
    runInstrs ((b :: bs).map .rxByte) s = s.doneBlock (s.block.rxBytes s.params (b :: bs)) := by
  induction bs generalizing b with
  | nil =>
    intro s
    simp only [List.map, runInstrs, exec, execRxByte, Block.rxBytes]
    cases s.block.rxByte s.params b <;> rfl
  | cons c bs ih =>
    intro s
    rw [List.map_cons, runInstrs]
    simp only [exec, execRxByte, Block.rxBytes]
    cases h : s.block.rxByte s.params b with
    | error f => rfl
    | ok k =>
      simp only [State.doneBlock, State.done]
      rw [ih c (s.finishOp k .nothing)]
      rfl

/-- Bytes received one by one, where the block receives them all. -/
theorem runInstrs_rxBytes_ok (bs : List Byte) (s : State) (k : Block) (hne : bs ≠ [])
    (h : s.block.rxBytes s.params bs = .ok k) : runInstrs (bs.map .rxByte) s = .next (s.finishOp k .nothing) := by
  obtain ⟨b, bs, rfl⟩ := List.exists_cons_of_ne_nil hne
  rw [runInstrs_rxBytes, h]
  rfl

/-! ## Turns -/

/-- Everything a step that answers a state can have been: no turn to come, a turn that passes, or an instruction run with the
turn used up. -/
theorem step_cases (s t : State) (h : step s = .next t) :
    (s.agents.turns = [] ∧ t = s) ∨
    ∃ a ts q, s.agents.turns = a :: ts ∧
      ((nextOperation s.params s.block.done (s.agents.queue a) = .pass q ∧ t = s.afterTurn a q ts) ∨
        ∃ i, nextOperation s.params s.block.done (s.agents.queue a) = .run i q ∧ exec i (s.afterTurn a q ts) = .next t) := by
  unfold step at h
  split at h
  · rename_i ht
    exact .inl ⟨ht, (Host.Outcome.next.inj h).symm⟩
  · rename_i a ts ht
    refine .inr ⟨a, ts, ?_⟩
    split at h
    · rename_i q hq
      exact ⟨q, ht, .inl ⟨hq, (Host.Outcome.next.inj h).symm⟩⟩
    · rename_i i q hq
      exact ⟨q, ht, .inr ⟨i, hq, h⟩⟩
    · cases h

/-! ## Receiving -/

/-- Everything a received byte can do: it is stored and counted with no result, or it is stored and ends the frame in flight
with a result that is not `NONE`. -/
theorem Block.Inv.rxByte_cases {p : Config.Params} {k : Block} (hp : p.wf) (hi : k.Inv p) (b : Byte) :
    (∃ (st : RxState) (e : Half), k.rxByte p b = .ok { (k.stored b) with rxCount := k.rxCount + 1, rxState := st, rxExpected := e }) ∨
    (8 ≤ k.rxCount.toNat ∧ ∃ r : Record, r.result ≠ .none ∧ k.rxByte p b = .ok ((k.stored b).finish r)) := by
  have hs := hi.phase.not_complete
  have hr := hi.phase.room
  have hcap : p.rxCapacity = p.maxPayload + 11 := rfl
  have hp' : p.maxPayload ≤ 65524 := hp
  have hinc : (BitVec.ofNat 16 (k.rxCount.toNat + 1) : Half) = k.rxCount + 1 := by
    apply BitVec.eq_of_toNat_eq
    simp
  obtain ⟨f, hf⟩ := k.holds_of_written hi.buffer.written
  have hfl := hf.count
  by_cases h8 : k.rxCount.toNat < 8
  · refine .inl ⟨.accumulatingHeader, k.rxExpected, ?_⟩
    rw [Block.rxByte_header p k b hs hr h8, Block.countTo, hinc]
    rfl
  · by_cases h9 : k.rxCount.toNat = 8
    · obtain ⟨h, _, e⟩ := Block.rxByte_ninth p k b f hs hr hf (by omega)
      rw [Block.headerDone] at e
      split at e
      · exact .inr ⟨by omega, _, by simp [recHeader], e⟩
      · split at e
        · exact .inr ⟨by omega, _, by simp [recHeader], e⟩
        · refine .inl ⟨.accumulatingPayload, BitVec.ofNat 16 (9 + h.length.toNat), ?_⟩
          have h8' : k.rxCount = 8 := BitVec.eq_of_toNat_eq (by simpa using h9)
          rw [e, Block.expect, h8']
          rfl
    · obtain ⟨hlt, _, _⟩ := hi.phase.payloadPhase (by omega)
      by_cases hl : k.rxCount.toNat + 1 < k.rxExpected.toNat
      · refine .inl ⟨k.rxState, k.rxExpected, ?_⟩
        rw [Block.rxByte_payload p k b hs hr (by omega) hl, Block.countTo, hinc]
        rfl
      · obtain ⟨hd, hh⟩ := parseHeader_total (f ++ [b]) (by simp; omega)
        have hx := hi.expected_of_prefix f [b] _ hd hf (by omega) hh
        obtain ⟨_, h11, _⟩ := hi.phase.payloadPhase (by omega)
        obtain ⟨pl, c, _, hrec⟩ := recFrame_total p.csumLenMode (f ++ [b]) hd _ hh (by omega) (by simp; omega)
        refine .inr ⟨by omega, recFull p.csumLenMode hd pl c, ?_, Block.rxByte_last p k b f _ hs hr hf (by omega) (by omega) hrec⟩
        simp only [recFull]
        split <;> simp

/-- What receiving bytes, few or many, can do to the handoff and the watchdog (R186, R262, R268). -/
structure Block.Received (k k' : Block) : Prop where
  wdtCount : k'.wdtCount = k.wdtCount
  wdtLimit : k'.wdtLimit = k.wdtLimit
  txStream : k'.txStream = k.txStream
  overrunStays : k.overrun = true → k'.overrun = true
  untaken : k.done = true → k'.slot = k.slot ∧ k'.done = true ∧ k'.waiting = k.waiting
  free : k.done = false →
    (k'.done = false ∧ k'.slot = k.slot ∧ k'.waiting = k.waiting ∧ k'.overrun = k.overrun) ∨
    (k'.done = true ∧ k'.slot.result ≠ .none ∧ k'.waiting = false)

theorem Block.Received.refl (k : Block) : k.Received k :=
  ⟨rfl, rfl, rfl, id, fun h => ⟨rfl, h, rfl⟩, fun h => .inl ⟨h, rfl, rfl, rfl⟩⟩

theorem Block.Received.trans {k k1 k2 : Block} (a : k.Received k1) (b : k1.Received k2) : k.Received k2 where
  wdtCount := b.wdtCount.trans a.wdtCount
  wdtLimit := b.wdtLimit.trans a.wdtLimit
  txStream := b.txStream.trans a.txStream
  overrunStays := fun h => b.overrunStays (a.overrunStays h)
  untaken := fun h => by
    obtain ⟨h1, h2, h3⟩ := a.untaken h
    obtain ⟨h4, h5, h6⟩ := b.untaken h2
    exact ⟨h4.trans h1, h5, h6.trans h3⟩
  free := fun h => by
    rcases a.free h with ⟨h1, h2, h3, h4⟩ | ⟨h1, h2, h3⟩
    · rcases b.free h1 with ⟨h5, h6, h7, h8⟩ | h5
      · exact .inl ⟨h5, h6.trans h2, h7.trans h3, h8.trans h4⟩
      · exact .inr h5
    · obtain ⟨h5, h6, h7⟩ := b.untaken h1
      exact .inr ⟨h6, h5 ▸ h2, h7.trans h3⟩

/-- Latching a result into the block with a stored byte. -/
theorem Block.received_finish (k : Block) (b : Byte) (r : Record) (hr : r.result ≠ .none) :
    k.Received ((k.stored b).finish r) := by
  rcases (k.stored b).finish_cases r with ⟨hd, e⟩ | ⟨hd, e⟩ <;> rw [e] <;> simp only [Block.stored, Block.withBuf_done] at hd
  · exact ⟨rfl, rfl, rfl, id, fun h => by simp [h] at hd, fun _ => .inr ⟨rfl, hr, rfl⟩⟩
  · exact ⟨rfl, rfl, rfl, fun _ => rfl, fun h => ⟨rfl, h, rfl⟩, fun h => by simp [h] at hd⟩

/-- What one received byte can do to the handoff. -/
theorem Block.Inv.rxByte_received {p : Config.Params} {k k' : Block} (hp : p.wf) (hi : k.Inv p) (b : Byte)
    (h : k.rxByte p b = .ok k') : k.Received k' := by
  rcases hi.rxByte_cases hp b with ⟨st, e, hk⟩ | ⟨_, r, hr, hk⟩ <;> obtain rfl := Except.ok.inj (hk.symm.trans h)
  · exact ⟨rfl, rfl, rfl, id, fun h => ⟨rfl, h, rfl⟩, fun h => .inl ⟨h, rfl, rfl, rfl⟩⟩
  · exact k.received_finish b r hr

/-- What bytes received one after another can do to the handoff. -/
theorem Block.Inv.rxBytes_received {p : Config.Params} (hp : p.wf) (bs : List Byte) : ∀ {k k' : Block}, k.Inv p →
    k.rxBytes p bs = .ok k' → k.Received k' := by
  induction bs with
  | nil =>
    intro k k' _ h
    cases h
    exact .refl k
  | cons b bs ih =>
    intro k k' hi h
    obtain ⟨k1, h1, i1⟩ := hi.rxByte hp b
    simp only [Block.rxBytes, h1] at h
    exact (hi.rxByte_received hp b h1).trans (ih i1 h)

end Sys2Proof.Machine
end

