-- ==== Sys2Proof/Laws/PerInstr.lean ====
section
/-! SUPPORT. A law stated of every instruction and proved for each constructor: its encoding carries its row's word of
spec/opcode_table.json where the row says it stands (30_encoding.md R118). -/

namespace Sys2Proof.Laws.RowWord

/-- The "match" value of each row. -/
def tableMatch : Instr → Byte
  | .encode _ _ _ => 0x01
  | .decode _ => 0x02
  | .checksum _ _ _ => 0x03
  | .verify _ _ _ _ _ _ => 0x04
  | .rxByte _ => 0x10
  | .arm _ => 0x11
  | .tick => 0x12
  | .take => 0x13
  | .readReg _ => 0x14
  | .reset => 0x1F
  | .frameCommand _ _ _ _ => 0x01
  | .frameData _ _ _ _ => 0x02
  | .frameAck _ _ _ _ => 0x07
  | .frameEndOfData _ _ _ _ => 0x08
  | .getImage _ => 0x01
  | .extractFeatures _ _ => 0x02
  | .search _ _ _ _ => 0x04
  | .mergeFeatures _ => 0x05
  | .storeTemplate _ _ _ => 0x06
  | .loadTemplate _ _ _ => 0x07
  | .deleteTemplate _ _ _ => 0x0C
  | .emptyLibrary _ => 0x0D
  | .readParameters _ => 0x0F
  | .setPassword _ _ => 0x12
  | .verifyPassword _ _ => 0x13
  | .enumerateTemplateCount _ => 0x1D
  | .ledControl50 _ => 0x50
  | .ledControl51 _ => 0x51

/-- The byte a row is matched on: byte 0 of a record, byte 6 of a frame, byte 0 of a payload. -/
def rowByte : Issue → Option Byte
  | .records bs => bs[0]?
  | .burst bs => bs[6]?
  | .command _ payload => payload[0]?

/-- The encoding carries the row's word in its place. -/
def Statement (i : Instr) : Prop := rowByte (Sys2Proof.encode i) = some (tableMatch i)

theorem encode (addr : Word32) (ptype : Byte) (payload : List Byte) : Statement (.encode addr ptype payload) := rfl
theorem decode (bs : List Byte) : Statement (.decode bs) := rfl
theorem checksum (ptype : Byte) (len : Half) (payload : List Byte) : Statement (.checksum ptype len payload) := rfl
theorem verify (start : Half) (addr : Word32) (ptype : Byte) (len : Half) (payload : List Byte) (csum : Half) : Statement (.verify start addr ptype len payload csum) := rfl
theorem rxByte (b : Byte) : Statement (.rxByte b) := rfl
theorem arm (limit : Word32) : Statement (.arm limit) := rfl
theorem tick : Statement .tick := rfl
theorem take : Statement .take := rfl
theorem readReg (index : Byte) : Statement (.readReg index) := rfl
theorem reset : Statement .reset := rfl
theorem frameCommand (start : Half) (addr : Word32) (payload : List Byte) (csum : Half) : Statement (.frameCommand start addr payload csum) := rfl
theorem frameData (start : Half) (addr : Word32) (payload : List Byte) (csum : Half) : Statement (.frameData start addr payload csum) := rfl
theorem frameAck (start : Half) (addr : Word32) (payload : List Byte) (csum : Half) : Statement (.frameAck start addr payload csum) := rfl
theorem frameEndOfData (start : Half) (addr : Word32) (payload : List Byte) (csum : Half) : Statement (.frameEndOfData start addr payload csum) := rfl
theorem getImage (addr : Word32) : Statement (.getImage addr) := rfl
theorem extractFeatures (addr : Word32) (slot : Byte) : Statement (.extractFeatures addr slot) := rfl
theorem search (addr : Word32) (slot : Byte) (start : Half) (count : Half) : Statement (.search addr slot start count) := rfl
theorem mergeFeatures (addr : Word32) : Statement (.mergeFeatures addr) := rfl
theorem storeTemplate (addr : Word32) (slot : Byte) (page : Half) : Statement (.storeTemplate addr slot page) := rfl
theorem loadTemplate (addr : Word32) (slot : Byte) (page : Half) : Statement (.loadTemplate addr slot page) := rfl
theorem deleteTemplate (addr : Word32) (page : Half) (count : Half) : Statement (.deleteTemplate addr page count) := rfl
theorem emptyLibrary (addr : Word32) : Statement (.emptyLibrary addr) := rfl
theorem readParameters (addr : Word32) : Statement (.readParameters addr) := rfl
theorem setPassword (addr : Word32) (password : Word32) : Statement (.setPassword addr password) := rfl
theorem verifyPassword (addr : Word32) (password : Word32) : Statement (.verifyPassword addr password) := rfl
theorem enumerateTemplateCount (addr : Word32) : Statement (.enumerateTemplateCount addr) := rfl
theorem ledControl50 (addr : Word32) : Statement (.ledControl50 addr) := rfl
theorem ledControl51 (addr : Word32) : Statement (.ledControl51 addr) := rfl

end Sys2Proof.Laws.RowWord
end

