-- ==== Sys2Proof/Tests/Slice0.lean ====
section
/-! SUPPORT. The model's own tests. Words and expected results are written out from the spec: encodings from 30_encoding.md
R100 and R111 and 43_command_catalog.md R223 to R236, results from the vectors of 95_test_vectors.md (named V-…) or computed by
hand from the rule named. After them, for each statement with hypotheses, a state and operands that meet them. -/

namespace Sys2Proof.Tests

open Sys2Proof Sys2Proof.Machine

/-! ## WellFormed refuses an ill-formed term for each check -/

/-- A payload too long for its record's count is refused. -/
theorem not_wf_of_count (i : Instr) (p : List Byte) (hi : i.wf = countFits p) (h : 65535 < p.length) : ¬ WellFormed i := by
  simp only [WellFormed, hi, countFits, decide_eq_true_eq]
  omega

/-- A payload too long for its frame's length field is refused. -/
theorem not_wf_of_length (i : Instr) (p : List Byte) (hi : i.wf = frameFits p) (h : 65533 < p.length) : ¬ WellFormed i := by
  simp only [WellFormed, hi, frameFits, decide_eq_true_eq]
  omega

theorem test_wf_encode : ¬ WellFormed (.encode 0 1 (List.replicate 65536 0)) :=
  not_wf_of_count _ (List.replicate 65536 0) rfl (by rw [List.length_replicate]; decide)
theorem test_wf_decode : ¬ WellFormed (.decode (List.replicate 65536 0)) :=
  not_wf_of_count _ (List.replicate 65536 0) rfl (by rw [List.length_replicate]; decide)
theorem test_wf_checksum : ¬ WellFormed (.checksum 1 2 (List.replicate 65536 0)) :=
  not_wf_of_count _ (List.replicate 65536 0) rfl (by rw [List.length_replicate]; decide)
theorem test_wf_verify : ¬ WellFormed (.verify 0 0 1 2 (List.replicate 65536 0) 0) :=
  not_wf_of_count _ (List.replicate 65536 0) rfl (by rw [List.length_replicate]; decide)
theorem test_wf_frame_command : ¬ WellFormed (.frameCommand 0 0 (List.replicate 65534 0) 0) :=
  not_wf_of_length _ (List.replicate 65534 0) rfl (by rw [List.length_replicate]; decide)
theorem test_wf_frame_data : ¬ WellFormed (.frameData 0 0 (List.replicate 65534 0) 0) :=
  not_wf_of_length _ (List.replicate 65534 0) rfl (by rw [List.length_replicate]; decide)
theorem test_wf_frame_ack : ¬ WellFormed (.frameAck 0 0 (List.replicate 65534 0) 0) :=
  not_wf_of_length _ (List.replicate 65534 0) rfl (by rw [List.length_replicate]; decide)
theorem test_wf_frame_end_of_data : ¬ WellFormed (.frameEndOfData 0 0 (List.replicate 65534 0) 0) :=
  not_wf_of_length _ (List.replicate 65534 0) rfl (by rw [List.length_replicate]; decide)

/-! ## Every constructor's decoding, from a word written out -/

theorem test_decode_encode : decodeIssue (.records [0x01, 0x12, 0x34, 0x56, 0x78, 0x02, 0x00, 0x02, 0xAA, 0x55]) =
    .ok (.encode 0x12345678 0x02 [0xAA, 0x55]) := by decide
theorem test_decode_decode : decodeIssue (.records [0x02, 0x00, 0x03, 0xEF, 0x01, 0xFF]) =
    .ok (.decode [0xEF, 0x01, 0xFF]) := by decide
theorem test_decode_checksum : decodeIssue (.records [0x03, 0x01, 0x01, 0x03, 0x00, 0x01, 0x09]) =
    .ok (.checksum 0x01 0x0103 [0x09]) := by decide
theorem test_decode_verify :
    decodeIssue (.records [0x04, 0xEF, 0x01, 0x12, 0x34, 0x56, 0x78, 0x07, 0x00, 0x03, 0x00, 0x01, 0x09, 0x01, 0x13]) =
    .ok (.verify 0xEF01 0x12345678 7 3 [0x09] 0x0113) := by decide
theorem test_decode_rx_byte : decodeIssue (.records [0x10, 0xA5]) = .ok (.rxByte 0xA5) := by decide
theorem test_decode_arm : decodeIssue (.records [0x11, 0x01, 0x02, 0x03, 0x04]) = .ok (.arm 0x01020304) := by decide
theorem test_decode_tick : decodeIssue (.records [0x12]) = .ok .tick := by decide
theorem test_decode_take : decodeIssue (.records [0x13]) = .ok .take := by decide
theorem test_decode_read_reg : decodeIssue (.records [0x14, 0x07]) = .ok (.readReg 7) := by decide
theorem test_decode_reset : decodeIssue (.records [0x1F]) = .ok .reset := by decide
theorem test_decode_frame_command :
    decodeIssue (.burst [0xEF, 0x01, 0xFF, 0xFF, 0xFF, 0xFF, 0x01, 0x00, 0x03, 0x1D, 0x00, 0x21]) =
    .ok (.frameCommand 0xEF01 0xFFFFFFFF [0x1D] 0x0021) := by decide
theorem test_decode_frame_data :
    decodeIssue (.burst [0xEF, 0x01, 0x12, 0x34, 0x56, 0x78, 0x02, 0x00, 0x04, 0xAA, 0x55, 0x01, 0x05]) =
    .ok (.frameData 0xEF01 0x12345678 [0xAA, 0x55] 0x0105) := by decide
theorem test_decode_frame_ack :
    decodeIssue (.burst [0xEF, 0x01, 0xFF, 0xFF, 0xFF, 0xFF, 0x07, 0x00, 0x05, 0x00, 0x00, 0x05, 0x00, 0x11]) =
    .ok (.frameAck 0xEF01 0xFFFFFFFF [0x00, 0x00, 0x05] 0x0011) := by decide
theorem test_decode_frame_end_of_data :
    decodeIssue (.burst [0xEF, 0x01, 0x00, 0x00, 0x00, 0x00, 0x08, 0x00, 0x02, 0x00, 0x0A]) =
    .ok (.frameEndOfData 0xEF01 0 [] 0x000A) := by decide
theorem test_decode_get_image : decodeIssue (.command 7 [0x01]) = .ok (.getImage 7) := by decide
theorem test_decode_extract_features : decodeIssue (.command 7 [0x02, 0x01]) = .ok (.extractFeatures 7 1) := by decide
theorem test_decode_search : decodeIssue (.command 7 [0x04, 0x01, 0x02, 0x03, 0x00, 0xA3]) =
    .ok (.search 7 1 0x0203 163) := by decide
theorem test_decode_merge_features : decodeIssue (.command 7 [0x05]) = .ok (.mergeFeatures 7) := by decide
theorem test_decode_store_template : decodeIssue (.command 7 [0x06, 0x01, 0x02, 0x05]) =
    .ok (.storeTemplate 7 1 0x0205) := by decide
theorem test_decode_load_template : decodeIssue (.command 7 [0x07, 0x02, 0x01, 0x02]) =
    .ok (.loadTemplate 7 2 0x0102) := by decide
theorem test_decode_delete_template : decodeIssue (.command 7 [0x0C, 0x00, 0x05, 0x01, 0x02]) =
    .ok (.deleteTemplate 7 5 0x0102) := by decide
theorem test_decode_empty_library : decodeIssue (.command 7 [0x0D]) = .ok (.emptyLibrary 7) := by decide
theorem test_decode_read_parameters : decodeIssue (.command 7 [0x0F]) = .ok (.readParameters 7) := by decide
theorem test_decode_set_password : decodeIssue (.command 7 [0x12, 0x01, 0x02, 0x03, 0x04]) =
    .ok (.setPassword 7 0x01020304) := by decide
theorem test_decode_verify_password : decodeIssue (.command 7 [0x13, 0x01, 0x02, 0x03, 0x04]) =
    .ok (.verifyPassword 7 0x01020304) := by decide
theorem test_decode_enumerate_template_count : decodeIssue (.command 7 [0x1D]) = .ok (.enumerateTemplateCount 7) := by decide
theorem test_decode_led_control_50 : decodeIssue (.command 7 [0x50]) = .ok (.ledControl50 7) := by decide
theorem test_decode_led_control_51 : decodeIssue (.command 7 [0x51]) = .ok (.ledControl51 7) := by decide

/-! ### What does not decode (R104, R112, R102, R223) -/

theorem test_reserved_selectors : ([0x00, 0x05, 0x0F, 0x15, 0x1E, 0x20, 0xFF] : List Byte).map (fun b => decodeIssue (.records [b])) =
    [.error (.reservedSelector 0x00), .error (.reservedSelector 0x05), .error (.reservedSelector 0x0F),
     .error (.reservedSelector 0x15), .error (.reservedSelector 0x1E), .error (.reservedSelector 0x20),
     .error (.reservedSelector 0xFF)] := by decide
theorem test_truncated_record : decodeIssue (.records [0x11, 0x00, 0x00, 0x00]) = .error .truncated := by decide
theorem test_frame_length_must_fit :
    decodeIssue (.burst [0xEF, 0x01, 0, 0, 0, 0, 0x07, 0x00, 0x03, 0x09, 0x00, 0x13, 0x00]) = .error .notOneFrame := by decide
theorem test_frame_reserved_type :
    decodeIssue (.burst [0x12, 0x34, 0, 0, 0, 1, 0x42, 0x00, 0x03, 0x09, 0x00, 0x4E]) = .error (.reservedType 0x42) := by decide
theorem test_command_arguments_must_fit : decodeIssue (.command 7 [0x02]) = .error (.badArguments 0x02) := by decide

/-! ### Table words (log 11): the OP, FRAME and CMD rows, and a word that stands in two of them -/

theorem test_table_tick : decodeTableWord 8 0x12 = some .tick := by decide
theorem test_table_frame_ack : decodeTableWord 8 0x07 = some (.frameAck 0 0 [] 0) := by decide
theorem test_table_merge_features : decodeTableWord 8 0x05 = some (.mergeFeatures 0) := by decide
theorem test_table_shared_word : decodeTableWord 8 0x01 = some (.encode 0 0 []) := by decide

/-! ## One operation on a small state -/

/-- The block an operation leaves, if it is done. -/
def blockAfter : Host.Outcome State Fault Refusal → Option Block
  | .next s => some s.block
  | .fault _ => none
  | .refused _ => none

/-- What an operation returns, if it is done. -/
def retAfter : Host.Outcome State Fault Refusal → Option Ret
  | .next s => some s.ret
  | .fault _ => none
  | .refused _ => none

/-- The reset state with another block. -/
def onBlock (k : Block) : State := { State.reset with block := k }

/-- The bytes of a frame in flight as the buffer holds them. -/
def cellsFrom : Nat → List Byte → List Host.Cell
  | _, [] => []
  | n, b :: bs => (n, b) :: cellsFrom (n + 1) bs

/-- An armed cycle: nothing received yet. -/
def armed (limit count : Word32) : Block := { Block.reset with waiting := true, wdtCount := count, wdtLimit := limit }

/-- A block that holds the given bytes of a frame in flight, fewer than nine. -/
def holdingHeader (f : List Byte) (k : Block) : Block :=
  { k with rxBuf := cellsFrom 0 f, rxCount := BitVec.ofNat 16 f.length, rxState := .accumulatingHeader }

/-- A block that holds the given bytes of a frame of `n` bytes, nine or more. -/
def holdingPayload (f : List Byte) (n : Half) (k : Block) : Block :=
  { k with rxBuf := cellsFrom 0 f, rxCount := BitVec.ofNat 16 f.length, rxState := .accumulatingPayload, rxExpected := n }

/-- The result of V-RX-8: a checksum mismatch. -/
def mismatch : Record :=
  { result := .checksumMismatch, startCode := 0xEF01, address := 0xFFFFFFFF, ptype := 7, length := 3, payloadLen := 1,
    payload := [0x09], rxChecksum := 0x0012, calcChecksum := 0x0013 }

/-- A block whose host has not taken that result yet. -/
def untaken : Block := { Block.reset with slot := mismatch, done := true }

/-- V-RX-1 after byte 8. -/
def header8 : State := onBlock (holdingHeader [0xEF, 0x01, 0xFF, 0xFF, 0xFF, 0xFF, 0x07, 0x00] Block.reset)

/-- P6 before its last byte: 13 of 14 bytes, one tick before the limit. -/
def last13 : State :=
  onBlock (holdingPayload [0xEF, 0x01, 0xFF, 0xFF, 0xFF, 0xFF, 0x07, 0x00, 0x05, 0x00, 0x00, 0x05, 0x00] 14 (armed 2 1))

/-- V-RX-9 before its last byte: 11 of 12 bytes, the earlier result untaken. -/
def overrun11 : State :=
  onBlock (holdingPayload [0xEF, 0x01, 0xFF, 0xFF, 0xFF, 0xFF, 0x07, 0x00, 0x03, 0x09, 0x00] 12 untaken)

/-- V-ENC-2. -/
theorem test_encode : retAfter (exec (.encode 0x12345678 0x02 [0xAA, 0x55]) State.reset) =
    some (.encoded [0xEF, 0x01, 0x12, 0x34, 0x56, 0x78, 0x02, 0x00, 0x04, 0xAA, 0x55, 0x01, 0x05]) := by decide
/-- V-ENC-14. -/
theorem test_encode_bad_type : retAfter (exec (.encode 0 0x03 [0x01]) State.reset) = some (.invalidRequest .badType) := by decide

/-- V-DEC-2. -/
theorem test_decode_mismatch :
    retAfter (exec (.decode [0xEF, 0x01, 0xFF, 0xFF, 0xFF, 0xFF, 0x07, 0, 5, 0, 0, 5, 0, 0x12]) State.reset) =
    some (.record
      { result := .checksumMismatch, startCode := 0xEF01, address := 0xFFFFFFFF, ptype := 7, length := 5,
        payloadLen := 3, payload := [0, 0, 5], rxChecksum := 0x0012, calcChecksum := 0x0011 }) := by decide
/-- V-DEC-8: one byte more than the frame. -/
theorem test_decode_too_long :
    retAfter (exec (.decode [0xEF, 0x01, 0, 0, 0, 0, 0x07, 0, 3, 9, 0, 0x13, 0]) State.reset) =
    some (.record
      { result := .frameMalformed, startCode := 0xEF01, address := 0, ptype := 7, length := 3,
        payloadLen := 0, payload := [], rxChecksum := 0, calcChecksum := 0 }) := by decide

/-- V-CS-4: the sum wraps. -/
theorem test_checksum_wraps : retAfter (exec (.checksum 0xFF 0xFFFF [0x02]) State.reset) = some (.sum 0x0100) := by decide
/-- V-CS-4 under BYTESUM. -/
theorem test_checksum_byte_sum : checksum .byteSum 0xFF 0xFFFF [0x02] = 0x02FF := by decide

/-- V-VER-6: bit 15 of the length. -/
theorem test_verify_length_bit : retAfter (exec (.verify 0xEF01 0xFFFFFFFF 7 0x8003 [0x09] 0x0013) State.reset) =
    some (.verdict false) := by decide
/-- V-VER-7: the address is not covered. -/
theorem test_verify_address : retAfter (exec (.verify 0xEF01 0x7FFFFFFF 7 3 [0x09] 0x0013) State.reset) =
    some (.verdict true) := by decide

/-- V-RX-1, byte 9. -/
theorem test_rx_ninth : (blockAfter (exec (.rxByte 0x05) header8)).map (fun k => (k.rxState, k.rxCount, k.rxExpected)) =
    some (.accumulatingPayload, 9, 14) := by decide
/-- V-RX-1, byte 14, as P6: the result is latched and the wait ends. -/
theorem test_rx_last : (blockAfter (exec (.rxByte 0x11) last13)).map (fun k => (k.rxState, k.slot.result, k.slot.payload, k.done, k.waiting, k.wdtCount)) =
    some (.idle, .ok, [0, 0, 5], true, false, 1) := by decide

/-- V-WD-7. -/
theorem test_arm : blockAfter (exec (.arm 100) (onBlock (holdingHeader [0xEF, 0x01, 0xFF] Block.reset))) =
    some ((armed 100 0).withBuf (cellsFrom 0 [0xEF, 0x01, 0xFF])) := by decide

/-- V-WD-1: a limit of 0 expires on the first tick. -/
theorem test_tick_limit_zero : (blockAfter (exec .tick (onBlock (armed 0 0)))).map (fun k => (k.slot.result, k.done, k.waiting, k.wdtCount)) =
    some (.framingTimeout, true, false, 1) := by decide
/-- V-WD-5: still waiting. -/
theorem test_tick_waits : (blockAfter (exec .tick (onBlock (armed 3 1)))).map (fun k => (k.done, k.waiting, k.wdtCount)) =
    some (false, true, 2) := by decide

/-- V-TK-2, first `TAKE`. -/
theorem test_take : retAfter (exec .take (onBlock untaken)) = some (.record mismatch) ∧
    blockAfter (exec .take (onBlock untaken)) = some Block.reset := by decide
/-- V-TK-1. -/
theorem test_take_none : retAfter (exec .take State.reset) = some (.record (recEmpty .none)) := by decide

/-- V-RR-1: `STATUS` in the payload phase of an armed cycle, and `CAPACITY`; V-RX-1: `STATUS` after byte 8; R38: `RESULT` of a
checksum mismatch. -/
theorem test_read_reg : retAfter (exec (.readReg 0) last13) = some (.word 0x0000000A) ∧
    retAfter (exec (.readReg 6) last13) = some (.word 0x00000109) ∧
    retAfter (exec (.readReg 0) header8) = some (.word 0x00000001) ∧
    retAfter (exec (.readReg 3) (onBlock untaken)) = some (.word 0x00000002) := by decide
/-- V-RR-2, and V-TK-3's and V-RX-9's status words. -/
theorem test_read_reg_refused : (exec (.readReg 8) State.reset matches .refused (.unassignedRegister 8)) = true ∧
    statusWord .idle false false true = 0x00000010 ∧ statusWord .idle true false true = 0x00000014 := by decide

/-- V-RST-1. -/
theorem test_reset : blockAfter (exec .reset (onBlock (holdingHeader [0xEF, 0x01, 0xFF] (armed 5 0)))) =
    some (Block.reset.withBuf (cellsFrom 0 [0xEF, 0x01, 0xFF])) := by decide

/-- V-RX-9: the slot keeps the older result. -/
theorem test_overrun : (blockAfter (exec (.rxByte 0x13) overrun11)).map (fun k => (k.rxCount, k.slot, k.done, k.overrun)) =
    some (0, mismatch, true, true) := by decide

/-! ### FRAME rows -/

/-- The result an operation leaves in the slot, with the number of bytes counted. -/
def latched (o : Host.Outcome State Fault Refusal) : Option (Result × Byte × List Byte × Half) :=
  (blockAfter o).map fun k => (k.slot.result, k.slot.ptype, k.slot.payload, k.rxCount)

/-- The frame of E1. -/
theorem test_frame_command : latched (exec (.frameCommand 0xEF01 0xFFFFFFFF [0x1D] 0x0021) State.reset) =
    some (.ok, 1, [0x1D], 0) := by decide
/-- The frame of V-ENC-2. -/
theorem test_frame_data : latched (exec (.frameData 0xEF01 0x12345678 [0xAA, 0x55] 0x0105) State.reset) =
    some (.ok, 2, [0xAA, 0x55], 0) := by decide
/-- V-RX-8. -/
theorem test_frame_ack : (blockAfter (exec (.frameAck 0xEF01 0xFFFFFFFF [0x09] 0x0012) State.reset)).map (·.slot) =
    some mismatch := by decide
/-- The frame of V-ENC-3. -/
theorem test_frame_end_of_data : latched (exec (.frameEndOfData 0xEF01 0 [] 0x000A) State.reset) =
    some (.ok, 8, [], 0) := by decide

/-! ### CMD rows: the frames of V-ENC-4 to V-ENC-10; the others by hand from R100 and R161 -/

theorem test_get_image : retAfter (exec (.getImage 0xFFFFFFFF) State.reset) =
    some (.encoded [0xEF, 0x01, 0xFF, 0xFF, 0xFF, 0xFF, 0x01, 0x00, 0x03, 0x01, 0x00, 0x05]) := by decide
theorem test_extract_features : retAfter (exec (.extractFeatures 0xFFFFFFFF 1) State.reset) =
    some (.encoded [0xEF, 0x01, 0xFF, 0xFF, 0xFF, 0xFF, 0x01, 0x00, 0x04, 0x02, 0x01, 0x00, 0x08]) := by decide
theorem test_search : retAfter (exec (.search 0xFFFFFFFF 1 0 163) State.reset) =
    some (.encoded [0xEF, 0x01, 0xFF, 0xFF, 0xFF, 0xFF, 0x01, 0x00, 0x08, 0x04, 0x01, 0x00, 0x00, 0x00, 0xA3, 0x00, 0xB1]) := by
  decide
theorem test_merge_features : retAfter (exec (.mergeFeatures 0xFFFFFFFF) State.reset) =
    some (.encoded [0xEF, 0x01, 0xFF, 0xFF, 0xFF, 0xFF, 0x01, 0x00, 0x03, 0x05, 0x00, 0x09]) := by decide
theorem test_store_template : retAfter (exec (.storeTemplate 0xFFFFFFFF 1 5) State.reset) =
    some (.encoded [0xEF, 0x01, 0xFF, 0xFF, 0xFF, 0xFF, 0x01, 0x00, 0x06, 0x06, 0x01, 0x00, 0x05, 0x00, 0x13]) := by decide
theorem test_load_template : retAfter (exec (.loadTemplate 0xFFFFFFFF 2 0x0102) State.reset) =
    some (.encoded [0xEF, 0x01, 0xFF, 0xFF, 0xFF, 0xFF, 0x01, 0x00, 0x06, 0x07, 0x02, 0x01, 0x02, 0x00, 0x13]) := by decide
theorem test_delete_template : retAfter (exec (.deleteTemplate 0xFFFFFFFF 5 1) State.reset) =
    some (.encoded [0xEF, 0x01, 0xFF, 0xFF, 0xFF, 0xFF, 0x01, 0x00, 0x07, 0x0C, 0x00, 0x05, 0x00, 0x01, 0x00, 0x1A]) := by decide
theorem test_empty_library : retAfter (exec (.emptyLibrary 0xFFFFFFFF) State.reset) =
    some (.encoded [0xEF, 0x01, 0xFF, 0xFF, 0xFF, 0xFF, 0x01, 0x00, 0x03, 0x0D, 0x00, 0x11]) := by decide
theorem test_read_parameters : retAfter (exec (.readParameters 0xFFFFFFFF) State.reset) =
    some (.encoded [0xEF, 0x01, 0xFF, 0xFF, 0xFF, 0xFF, 0x01, 0x00, 0x03, 0x0F, 0x00, 0x13]) := by decide
theorem test_set_password : retAfter (exec (.setPassword 0xFFFFFFFF 0x01020304) State.reset) =
    some (.encoded [0xEF, 0x01, 0xFF, 0xFF, 0xFF, 0xFF, 0x01, 0x00, 0x07, 0x12, 0x01, 0x02, 0x03, 0x04, 0x00, 0x24]) := by decide
theorem test_verify_password : retAfter (exec (.verifyPassword 0xFFFFFFFF 0) State.reset) =
    some (.encoded [0xEF, 0x01, 0xFF, 0xFF, 0xFF, 0xFF, 0x01, 0x00, 0x07, 0x13, 0x00, 0x00, 0x00, 0x00, 0x00, 0x1B]) := by decide
theorem test_enumerate_template_count : retAfter (exec (.enumerateTemplateCount 0xFFFFFFFF) State.reset) =
    some (.encoded [0xEF, 0x01, 0xFF, 0xFF, 0xFF, 0xFF, 0x01, 0x00, 0x03, 0x1D, 0x00, 0x21]) := by decide
theorem test_led_control_50 : retAfter (exec (.ledControl50 0xFFFFFFFF) State.reset) =
    some (.encoded [0xEF, 0x01, 0xFF, 0xFF, 0xFF, 0xFF, 0x01, 0x00, 0x03, 0x50, 0x00, 0x54]) := by decide
theorem test_led_control_51 : retAfter (exec (.ledControl51 0xFFFFFFFF) State.reset) =
    some (.encoded [0xEF, 0x01, 0xFF, 0xFF, 0xFF, 0xFF, 0x01, 0x00, 0x03, 0x51, 0x00, 0x55]) := by decide

/-! ### Host decodings -/

/-- V-CAT-1 to V-CAT-3. -/
theorem test_decode_responses : decodeTemplateCount [0x00, 0x00, 0x05] = .ok 5 ∧
    decodeSearch [0x09] = .ok { statusCode := 0x09, slotAndConfidence := none } ∧
    decodeSearch [0x00, 0x00, 0x05, 0x00, 0x64] = .ok { statusCode := 0x00, slotAndConfidence := some (5, 100) } := by decide
/-- V-CAT-4. -/
theorem test_decode_parameters :
    decodeSensorParameters [0, 0, 0, 0, 9, 1, 0x2C, 0, 3, 0xFF, 0xFF, 0xFF, 0xFF, 0, 2, 0, 6] =
      .ok { statusRegister := 0, systemId := 9, libraryCapacity := 300, securityLevel := 3, deviceAddress := 0xFFFFFFFF,
            packetSizeCode := 2, baudMultiplier := 6 } := by decide
/-- V-CAT-4's conversions, and V-CAT-5. -/
theorem test_parameter_conversions :
    (SensorParameters.mk 0 9 300 3 0 2 6).packetSize = .ok 128 ∧ (SensorParameters.mk 0 9 300 3 0 2 6).baud = 57600 ∧
    (SensorParameters.mk 0 9 300 3 0 4 6).packetSize = .error (.packetSizeCode 4) := by decide

/-! ### Turns -/

/-- A table word put where the next step fetches runs. -/
theorem test_fetch_tick : blockAfter (step ((onBlock (armed 3 1)).withFetchWord 8 0x12)) = some (armed 3 2) := by decide
/-- V-SEL-2: the reserved selectors are refused. -/
theorem test_step_reserved : (step (State.reset.withTurn .host (.issue (.records [0x0F]))) matches .refused (.reservedSelector 0x0F)) = true := by
  decide
/-- R272: a held agent stays held. -/
theorem test_wait_holds : step (State.reset.withTurn .host .wait) =
    .next { State.reset with agents := { State.reset.agents with host := [.wait] } } := rfl
/-- The host's template-count command, as in P1. -/
def countCommand : CommandRequest := { addr := 0xFFFFFFFF, payload := [0x1D], limit := 100 }

/-- An instance that admits no payload at all (R8: `MAX_PAYLOAD` may be 0). -/
def noPayload : State := { State.reset with params := { Config.hw with maxPayload := 0 } }

/-- The record P1 takes. -/
def countResponse : Record :=
  { result := .ok, startCode := 0xEF01, address := 0xFFFFFFFF, ptype := 7, length := 5, payloadLen := 3,
    payload := [0x00, 0x00, 0x05], rxChecksum := 0x0011, calcChecksum := 0x0011 }

/-- What is left in the host's queue after a step. -/
def hostAfter : Host.Outcome State Fault Refusal → Option (List Item)
  | .next s => some s.agents.host
  | .fault _ => none
  | .refused _ => none

/-- R241 steps 1 and 2, as P1: `ARM 100`, then the frame of E1. -/
theorem test_cycle_arms_and_sends :
    blockAfter (step (State.reset.withTurn .host (commandCycle 0xFFFFFFFF [0x1D] 100))) = some (armed 100 0) ∧
    retAfter (step (State.reset.withTurn .host (.cycle countCommand .send))) =
      some (.encoded [0xEF, 0x01, 0xFF, 0xFF, 0xFF, 0xFF, 0x01, 0x00, 0x03, 0x1D, 0x00, 0x21]) ∧
    hostAfter (step (State.reset.withTurn .host (.cycle countCommand .send))) = some [.cycle countCommand .take] := by decide
/-- R241 step 2: on `InvalidRequest` the cycle is over, nothing is sent, and the command returns the condition. -/
theorem test_cycle_invalid_request :
    hostAfter (step (noPayload.withTurn .host (.cycle countCommand .send))) = some [] ∧
    blockAfter (step (noPayload.withTurn .host (.cycle countCommand .send))) = some Block.reset ∧
    (retAfter (step (noPayload.withTurn .host (.cycle countCommand .send)))).bind countCommand.returned =
      some (.invalidRequest .payloadTooLong) := by decide
/-- R241 step 5: E2 decoded for the operation that asked; E3; a transport error. -/
theorem test_command_returns :
    countCommand.returned (.record countResponse) = some (.result (.success (.ok (.templateCount 5)))) ∧
    (CommandRequest.mk 7 (searchPayload 1 0 163) 100).returned (.record { countResponse with payload := [0x09] }) =
      some (.result (.deviceStatus 0x09 (.ok (.search { statusCode := 0x09, slotAndConfidence := none })))) ∧
    countCommand.returned (.record mismatch) = some (.result (.transportError .checksumMismatch)) := by decide

/-- U1: the byte that no frame has written has no value. -/
theorem test_unwritten_byte : (memRead 1 [] 0 1).toOption = none := by decide

/-! ## States that meet the hypotheses of the statements -/

/-- This hardware's parameters are within their bound (R8). -/
theorem params_wf (k : Block) : (onBlock k).params.wf := by
  show Config.hw.wf
  decide

/-- A block without a frame in its payload phase meets the invariant where these checks hold. -/
theorem inv_of_header (k : Block) (h : Memory.wf k.rxBuf ∧ (∀ c ∈ k.rxBuf, c.1 < 265) ∧
    (∀ i, i < k.rxCount.toNat → (Memory.lookup k.rxBuf i).isSome = true) ∧
    k.rxState = RxState.ofCount k.rxCount.toNat ∧ k.rxExpected = 0 ∧ k.rxCount.toNat ≤ 8 ∧
    (k.done = false ↔ k.slot.result = .none) ∧ k.slot.result.isReserved = false ∧
    k.slot.payload.length = k.slot.payloadLen.toNat ∧ k.slot.payload.length ≤ 254 ∧
    (k.waiting = true → k.done = false) ∧ k.wdtCount.toNat ≤ max k.wdtLimit.toNat 1 ∧
    (k.waiting = true → k.wdtCount.toNat < max k.wdtLimit.toNat 1)) : (onBlock k).Inv := by
  obtain ⟨h1, h2, h3, h4, h5, h6, h7, h8, h9, h10, h11, h12, h13⟩ := h
  exact ⟨params_wf k, ⟨h1, h2, h3⟩, ⟨h4, fun _ => h5, fun h => absurd h (by simpa [onBlock] using Nat.not_le.mpr (Nat.lt_succ_of_le h6)), fun h => absurd h (by simpa [onBlock] using Nat.not_le.mpr (Nat.lt_succ_of_le h6))⟩,
    ⟨h7, h8, h9, h10⟩, ⟨h11, h12, h13⟩⟩

/-- A block with a frame in its payload phase meets the invariant where these checks hold. -/
theorem inv_of_payload (k : Block) (len : Half) (h : Memory.wf k.rxBuf ∧ (∀ c ∈ k.rxBuf, c.1 < 265) ∧
    (∀ i, i < k.rxCount.toNat → (Memory.lookup k.rxBuf i).isSome = true) ∧
    k.rxState = .accumulatingPayload ∧ 9 ≤ k.rxCount.toNat ∧ k.rxCount.toNat < k.rxExpected.toNat ∧
    11 ≤ k.rxExpected.toNat ∧ k.rxExpected.toNat ≤ 265 ∧ k.lengthInFlight = some len ∧
    k.rxExpected.toNat = 9 + len.toNat ∧
    (k.done = false ↔ k.slot.result = .none) ∧ k.slot.result.isReserved = false ∧
    k.slot.payload.length = k.slot.payloadLen.toNat ∧ k.slot.payload.length ≤ 254 ∧
    (k.waiting = true → k.done = false) ∧ k.wdtCount.toNat ≤ max k.wdtLimit.toNat 1 ∧
    (k.waiting = true → k.wdtCount.toNat < max k.wdtLimit.toNat 1)) : (onBlock k).Inv := by
  obtain ⟨h1, h2, h3, h4, h5, h6, h6', h6'', hl, he, h7, h8, h9, h10, h11, h12, h13⟩ := h
  refine ⟨params_wf k, ⟨h1, h2, h3⟩, ⟨?_, ?_, fun _ => ⟨h6, h6', h6''⟩, fun _ => ⟨len, hl, he⟩⟩,
    ⟨h7, h8, h9, h10⟩, ⟨h11, h12, h13⟩⟩
  · show k.rxState = _
    rw [h4]
    simp [RxState.ofCount, onBlock, show ¬ k.rxCount.toNat ≤ 8 by omega, show k.rxCount.toNat ≠ 0 by omega]
  · exact fun h => absurd h5 (by have : k.rxCount.toNat ≤ 8 := h; omega)

theorem inv_armed : (onBlock (armed 2 1)).Inv := inv_of_header _ (by decide)
theorem inv_armed_zero : (onBlock (armed 0 0)).Inv := inv_of_header _ (by decide)
theorem inv_untaken : (onBlock untaken).Inv := inv_of_header _ (by decide)
theorem inv_header8 : header8.Inv := inv_of_header _ (by decide)
theorem inv_last13 : last13.Inv := inv_of_payload _ 5 (by decide)
theorem inv_overrun11 : overrun11.Inv := inv_of_payload _ 3 (by decide)

/-- The bytes of the E2 response. -/
def e2 : List Byte := [0xEF, 0x01, 0xFF, 0xFF, 0xFF, 0xFF, 0x07, 0x00, 0x05, 0x00, 0x00, 0x05, 0x00, 0x11]

/-- A payload of the largest size. -/
def full : List Byte := List.replicate 254 0xFF

theorem full_length : full.length = 254 := List.length_replicate

/-- A state with an item first in the host's queue and the host's turn next. -/
def hostHas (it : Item) : State := State.reset.withTurn .host it

theorem witness_StepRunsTheIssuedInstruction :
    ((hostHas (.issue (.records [0x12]))).agents.turns = [.host] ∧
      (hostHas (.issue (.records [0x12]))).agents.queue .host = [.issue (.records [0x12])] ∧
      decodeIssue (.records [0x12]) = .ok .tick) ∧
    ((hostHas (.issue (.records [0x12, 0x13]))).agents.turns = [.host] ∧
      (hostHas (.issue (.records [0x12, 0x13]))).agents.queue .host = [.issue (.records [0x12, 0x13])] ∧
      decodeRecord [0x12, 0x13] = .ok (.tick, [0x13])) ∧
    ((hostHas (.issue (.burst e2))).agents.queue .host = [.issue (.burst e2)] ∧
      decodeIssue (.burst e2) = .ok (.frameAck 0xEF01 0xFFFFFFFF [0, 0, 5] 0x0011)) ∧
    ((hostHas (.issue (.command 7 [0x01]))).agents.queue .host = [.issue (.command 7 [0x01])] ∧
      decodeIssue (.command 7 [0x01]) = .ok (.getImage 7)) ∧
    Agent.transport ≠ Agent.host := by decide

theorem witness_UnlistedBurstsAndCommandsRun :
    ((hostHas (.issue (.burst [0xEF]))).agents.turns = [.host] ∧
      (hostHas (.issue (.burst [0xEF]))).agents.queue .host = [.issue (.burst [0xEF])] ∧
      decodeFrame [0xEF] = .error .notOneFrame) ∧
    ((hostHas (.issue (.command 7 []))).agents.turns = [.host] ∧
      (hostHas (.issue (.command 7 []))).agents.queue .host = [.issue (.command 7 [])] ∧
      decodeCommand 7 [] = .error .empty) := by decide

theorem witness_ReservedSelectorIsRefused :
    (∀ sel ∈ ([0x00, 0x05, 0x0F, 0x15, 0x1E, 0x20, 0xFF] : List Byte),
      sel ∉ ([0x01, 0x02, 0x03, 0x04, 0x10, 0x11, 0x12, 0x13, 0x14, 0x1F] : List Byte)) ∧
    (hostHas (.issue (.records [0xFF]))).agents.turns = [.host] ∧
    (hostHas (.issue (.records [0xFF]))).agents.queue .host = [.issue (.records [0xFF])] := by decide

theorem witness_DecodeOfEncodeIsIdentity : WellFormed (.encode 0 1 full) ∧ WellFormed (.frameAck 0xEF01 0 full 0) := by
  simp only [WellFormed, Instr.wf, countFits, frameFits, full_length]
  decide

theorem witness_EncodeOfDecodeIsIdentity : decodeIssue (.burst e2) = .ok (.frameAck 0xEF01 0xFFFFFFFF [0, 0, 5] 0x0011) := by
  decide

theorem witness_EncodeEmitsItsFrame : State.reset.params.wf ∧ full.length ≤ State.reset.params.maxPayload ∧
    ([] : List Byte).length ≤ State.reset.params.maxPayload ∧ (8 : Byte) ∈ ([1, 2, 7, 8] : List Byte) := by
  rw [full_length]
  decide

theorem witness_InvalidEncodeRequests : State.reset.params.maxPayload < (0xFF :: full).length ∧
    (full.length ≤ State.reset.params.maxPayload ∧ (3 : Byte) ∉ ([1, 2, 7, 8] : List Byte)) ∧
    (full.length ≤ State.reset.params.maxPayload ∧ (1 : Byte) ∈ ([1, 2, 7, 8] : List Byte)) := by
  rw [List.length_cons, full_length]
  decide

/-- Boundary lengths for each clause: 8 bytes; `L = 1`; `L = 256` with no body; `L = 257`; `L = 2` and `L = 256` whole. -/
theorem witness_DecodeReportsByItsChecks : (e2.take 8).length < 9 ∧ (1 : Half).toNat < 2 ∧
    ((256 : Half).toNat + 9 ≤ State.reset.params.rxCapacity ∧ ([] : List Byte).length ≠ (256 : Half).toNat) ∧
    (2 ≤ (257 : Half).toNat ∧ State.reset.params.rxCapacity < 9 + (257 : Half).toNat) ∧
    (([] : List Byte).length + 2 = (2 : Half).toNat ∧ 9 + (2 : Half).toNat ≤ State.reset.params.rxCapacity) ∧
    (full.length + 2 = (256 : Half).toNat ∧ 9 + (256 : Half).toNat ≤ State.reset.params.rxCapacity) := by
  rw [full_length]
  decide

theorem witness_EncodeDecodeRoundTrip : State.reset.params.wf ∧ full.length ≤ State.reset.params.maxPayload ∧
    (2 : Byte) ∈ ([1, 2, 7, 8] : List Byte) := by
  rw [full_length]
  decide

theorem witness_StartCodeAndAddressAreNotSummed : 3 ≤ ([0x07, 0x00, 0x02] : List Byte).length := by decide

/-- V-VER-1. -/
theorem witness_ChecksumSingleBitSensitivity :
    exec (.verify 0xEF01 0xFFFFFFFF 7 3 [0x09] 0x0013) State.reset =
      .next (State.reset.finishOp State.reset.block (.verdict true)) ∧ ([0x09] : List Byte)[0]? = some 0x09 := ⟨rfl, rfl⟩

theorem witness_AcceptedSumsNeverWrap : full.length ≤ 254 := full_length.le

/-- V-CS-6's length. -/
theorem witness_ChecksumModesAgreeBelow256 : (256 : Half).toNat ≤ 256 ∧
    checksum .value16 2 256 [] ≠ checksum .byteSum 2 256 [] := by decide

theorem witness_RxByteHeaderPhase : (onBlock (armed 2 1)).Inv ∧ (onBlock (armed 2 1)).block.rxCount.toNat < 8 ∧
    (onBlock (holdingHeader (e2.take 7) Block.reset)).Inv ∧
    (onBlock (holdingHeader (e2.take 7) Block.reset)).block.rxCount.toNat = 7 :=
  ⟨inv_armed, by decide, inv_of_header _ (by decide), by decide⟩

theorem witness_NinthByteChecksTheLength : header8.Inv ∧ header8.block.rxCount = 8 ∧
    (∀ i, i < 8 → header8.bufByte i = ([0xEF, 0x01, 0xFF, 0xFF, 0xFF, 0xFF, 0x07, 0x00] : List Byte)[i]?) ∧
    (be16 0x00 0x01).toNat < 2 ∧ header8.params.rxCapacity < 9 + (be16 0x01 0x01).toNat ∧
    (2 ≤ (be16 0x00 0x02).toNat ∧ 9 + (be16 0x00 0x02).toNat ≤ header8.params.rxCapacity) ∧
    (2 ≤ (be16 0x01 0x00).toNat ∧ 9 + (be16 0x01 0x00).toNat ≤ header8.params.rxCapacity) :=
  ⟨inv_header8, by decide, by decide, by decide, by decide, by decide, by decide⟩

theorem witness_PayloadBytesAndCompletion :
    (last13.Inv ∧ 9 ≤ last13.block.rxCount.toNat ∧ (e2.take 13).length = last13.block.rxCount.toNat ∧
      (∀ i, i < (e2.take 13).length → last13.bufByte i = (e2.take 13)[i]?) ∧
      last13.block.rxCount.toNat + 1 = last13.block.rxExpected.toNat) ∧
    ((onBlock (holdingPayload (e2.take 9) 14 Block.reset)).Inv ∧
      (∀ i, i < (e2.take 9).length → (onBlock (holdingPayload (e2.take 9) 14 Block.reset)).bufByte i = (e2.take 9)[i]?) ∧
      (onBlock (holdingPayload (e2.take 9) 14 Block.reset)).block.rxCount.toNat + 1 <
        (onBlock (holdingPayload (e2.take 9) 14 Block.reset)).block.rxExpected.toNat) :=
  ⟨⟨inv_last13, by decide, by decide, by decide, by decide⟩, inv_of_payload _ 5 (by decide), by decide, by decide⟩

theorem witness_ResultLatch : Block.reset.done = false ∧ untaken.done = true := by decide

theorem witness_OverrunKeepsTheOlderResult :
    (overrun11.Inv ∧ overrun11.block.done = true ∧
      (blockAfter (exec (.rxByte 0x13) overrun11)).map (·.rxCount) = some 0) ∧
    ((onBlock untaken.markOverrun).Inv ∧ (onBlock untaken.markOverrun).block.overrun = true ∧
      (blockAfter (exec (.arm 5) (onBlock untaken.markOverrun))).map (·.overrun) = some false) :=
  ⟨⟨inv_overrun11, by decide, by decide⟩, inv_of_header _ (by decide), by decide, by decide⟩

theorem witness_CompleteIsTransient : last13.Inv ∧ 9 ≤ last13.block.rxCount.toNat ∧
    last13.block.rxCount.toNat + 1 = last13.block.rxExpected.toNat ∧ last13.block.done = false ∧
    (blockAfter (exec (.rxByte 0x11) last13)).isSome = true :=
  ⟨inv_last13, by decide, by decide, by decide, by decide⟩

theorem witness_BufferNeverOverflows : last13.Inv ∧ 9 ≤ last13.block.rxCount.toNat ∧
    ([0x11] : List Byte).length + last13.block.rxCount.toNat = last13.block.rxExpected.toNat :=
  ⟨inv_last13, by decide, by decide⟩

theorem witness_BufferBytesFrame : (blockAfter (exec (.rxByte 0x05) header8)).isSome = true ∧
    Instr.receives .tick = false ∧ (blockAfter (exec .tick header8)).isSome = true := by decide

theorem witness_ChunkingDoesNotMatter :
    (blockAfter (runInstrs (([0xEF, 0x01] : List Byte).map .rxByte) State.reset)).isSome = true := by decide

theorem witness_FrameRowsAreLatched : (onBlock (armed 2 1)).Inv ∧ (onBlock (armed 2 1)).block.rxCount = 0 ∧
    (onBlock (armed 2 1)).block.done = false ∧ full.length ≤ (onBlock (armed 2 1)).params.maxPayload :=
  ⟨inv_armed, by decide, by decide, full_length.le⟩

theorem witness_FrameRowsCompleteAnywhere : overrun11.Inv ∧ overrun11.block.done = true := ⟨inv_overrun11, by decide⟩

theorem witness_DecodeAgreesWithTheReassembler : (onBlock (armed 2 1)).Inv ∧ (onBlock (armed 2 1)).block.rxCount = 0 ∧
    (onBlock (armed 2 1)).block.done = false ∧
    (2 ≤ (2 : Half).toNat ∧ 9 + (2 : Half).toNat ≤ (onBlock (armed 2 1)).params.rxCapacity ∧
      ([0x00, 0x09] : List Byte).length = (2 : Half).toNat) ∧
    (9 + (256 : Half).toNat ≤ (onBlock (armed 2 1)).params.rxCapacity ∧ (0x00 :: 0x00 :: full).length = (256 : Half).toNat) ∧
    (1 : Half).toNat < 2 ∧ (onBlock (armed 2 1)).params.rxCapacity < 9 + (257 : Half).toNat :=
  ⟨inv_armed, by decide, by decide, by decide, by rw [List.length_cons, List.length_cons, full_length]; decide, by decide,
    by decide⟩

theorem witness_ExactlyOneCompletionPerFrame : (onBlock (armed 2 1)).Inv ∧ (onBlock (armed 2 1)).block.rxCount = 0 ∧
    (onBlock (armed 2 1)).block.done = false ∧ full.length ≤ (onBlock (armed 2 1)).params.maxPayload ∧
    (7 : Byte) ∈ ([1, 2, 7, 8] : List Byte) := ⟨inv_armed, by decide, by decide, full_length.le, by decide⟩

theorem witness_TickCountsAndExpires : ((onBlock untaken).Inv ∧ (onBlock untaken).block.waiting = false) ∧
    ((onBlock (armed 3 1)).Inv ∧ (armed 3 1).waiting = true ∧ (armed 3 1).wdtCount.toNat + 1 < (armed 3 1).wdtLimit.toNat) ∧
    ((onBlock (armed 2 1)).Inv ∧ (armed 2 1).waiting = true ∧ (armed 2 1).wdtLimit.toNat ≤ (armed 2 1).wdtCount.toNat + 1) ∧
    ((onBlock (armed 0 0)).Inv ∧ (armed 0 0).wdtLimit.toNat ≤ (armed 0 0).wdtCount.toNat + 1) :=
  ⟨⟨inv_untaken, by decide⟩, ⟨inv_of_header _ (by decide), by decide, by decide⟩, ⟨inv_armed, by decide, by decide⟩,
    inv_armed_zero, by decide⟩

theorem witness_TakeReturnsTheResultOnce : (onBlock (armed 2 1)).block.done = false ∧
    ((onBlock untaken).Inv ∧ (onBlock untaken).block.done = true) := ⟨by decide, inv_untaken, by decide⟩

/-- Counts 0, 1, 8, 9 and 13; each result code in the slot; indices 8 and 255. -/
theorem witness_RegisterView :
    ((onBlock (armed 2 1)).Inv ∧ (armed 2 1).rxCount.toNat = 0) ∧
    (onBlock (holdingHeader (e2.take 1) Block.reset)).Inv ∧ (header8.Inv ∧ header8.block.rxCount.toNat = 8) ∧
    (onBlock (holdingPayload (e2.take 9) 14 Block.reset)).Inv ∧ (last13.Inv ∧ 9 ≤ last13.block.rxCount.toNat) ∧
    ((onBlock (untaken.deliver (recEmpty .ok))).Inv ∧ (onBlock (untaken.deliver (recEmpty .checksumMismatch))).Inv ∧
      (onBlock (untaken.deliver (recEmpty .frameTooLarge))).Inv ∧ (onBlock (untaken.deliver (recEmpty .framingTimeout))).Inv ∧
      (onBlock (untaken.deliver (recEmpty .frameMalformed))).Inv) ∧
    7 < (8 : Byte).toNat ∧ 7 < (255 : Byte).toNat :=
  ⟨⟨inv_armed, by decide⟩, inv_of_header _ (by decide), ⟨inv_header8, by decide⟩, inv_of_payload _ 5 (by decide),
    ⟨inv_last13, by decide⟩,
    ⟨inv_of_header _ (by decide), inv_of_header _ (by decide), inv_of_header _ (by decide), inv_of_header _ (by decide),
      inv_of_header _ (by decide)⟩, by decide, by decide⟩

theorem witness_WatchdogExpiresExactly :
    ((onBlock (armed 3 1)).Inv ∧ (armed 3 1).waiting = true ∧ (armed 3 1).wdtCount.toNat + 1 < max (armed 3 1).wdtLimit.toNat 1) ∧
    ((armed 3 1).wdtCount.toNat + 2 = max (armed 3 1).wdtLimit.toNat 1) ∧
    ((onBlock (armed 0 0)).Inv ∧ (armed 0 0).waiting = true ∧ (armed 0 0).wdtCount.toNat + 1 = max (armed 0 0).wdtLimit.toNat 1) :=
  ⟨⟨inv_of_header _ (by decide), by decide, by decide⟩, by decide, inv_armed_zero, by decide, by decide⟩

/-- P6 and P7 at their race. -/
theorem witness_LastByteAgainstExpiringTick : last13.Inv ∧ last13.block.waiting = true ∧ 9 ≤ last13.block.rxCount.toNat ∧
    last13.block.rxCount.toNat + 1 = last13.block.rxExpected.toNat ∧
    last13.block.wdtLimit.toNat ≤ last13.block.wdtCount.toNat + 1 := ⟨inv_last13, by decide, by decide, by decide, by decide⟩

theorem witness_WaitHoldsUntilDone : (hostHas .wait).agents.turns = [.host] ∧ (hostHas .wait).agents.queue .host = [.wait] ∧
    (hostHas .wait).block.done = false ∧
    ((onBlock untaken).withTurn .host .wait).agents.queue .host = [.wait] ∧
    ((onBlock untaken).withTurn .host .wait).block.done = true ∧
    (hostHas (.cycle countCommand .arm)).agents.queue .host = [.cycle countCommand .arm] ∧
    (hostHas (.cycle countCommand .send)).agents.queue .host = [.cycle countCommand .send] ∧
    countCommand.payload.length ≤ (hostHas (.cycle countCommand .send)).params.maxPayload ∧
    (noPayload.withTurn .host (.cycle countCommand .send)).agents.queue .host = [.cycle countCommand .send] ∧
    noPayload.params.maxPayload < countCommand.payload.length ∧
    (hostHas (.cycle countCommand .take)).agents.queue .host = [.cycle countCommand .take] ∧
    ((onBlock untaken).withTurn .host (.cycle countCommand .take)).block.done = true := by decide

theorem witness_DesynchronisationRecovery : (onBlock (armed 2 1)).Inv ∧ (onBlock (armed 2 1)).block.rxCount = 0 ∧
    (onBlock (armed 2 1)).block.done = false ∧ (onBlock (armed 2 1)).params.rxCapacity < 9 + (257 : Half).toNat ∧
    (onBlock (armed 2 1)).params.rxCapacity < 9 + (0xFFFF : Half).toNat ∧
    full.length ≤ (onBlock (armed 2 1)).params.maxPayload :=
  ⟨inv_armed, by decide, by decide, by decide, by decide, full_length.le⟩

/-- P3's first cycle, its two early ticks among its bytes; and a limit of 0. -/
theorem witness_TimeoutRecovery : overrun11.Inv ∧
    ([0x00, 0x00, 0x05] : List Byte).length ≤ overrun11.params.maxPayload ∧
    (∀ i ∈ ([.rxByte 0xEF, .tick, .rxByte 0x01, .tick] : List Instr), i = .tick ∨ ∃ b, i = .rxByte b) ∧
    ([.rxByte 0xEF, .tick, .rxByte 0x01, .tick] : List Instr).filter (fun i => i.receives) =
      ([0xEF, 0x01] : List Byte).map .rxByte ∧
    ([0xEF, 0x01] : List Byte) <+: frameBytes 0xEF01 0xFFFFFFFF 7 [0, 0, 5] 0x0011 ∧
    ([0xEF, 0x01] : List Byte).length < (frameBytes 0xEF01 0xFFFFFFFF 7 [0, 0, 5] 0x0011).length ∧
    ([.rxByte 0xEF, .tick, .rxByte 0x01, .tick] : List Instr).count .tick + 1 = max (3 : Word32).toNat 1 ∧
    ([] : List Instr).count .tick + 1 = max (0 : Word32).toNat 1 :=
  ⟨inv_overrun11, by decide, by simp, by decide, by decide, by decide, by decide, by decide⟩

theorem witness_CommandsWithoutArgumentsSend : 1 ≤ State.reset.params.maxPayload := by decide

theorem witness_CommandsWithArgumentsSend : 6 ≤ State.reset.params.maxPayload := by decide

theorem witness_SearchResultDecode : (0x09 : Byte) ≠ 0x00 := by decide

theorem witness_CountAndParametersDecode : (0 : Half) = 0 ∧ 3 < (4 : Half).toNat ∧
    (countCommand.payload = [0x1D] ∧ (CommandRequest.mk 7 (searchPayload 1 0 163) 100).payload = 0x04 :: [1, 0, 0, 0, 163] ∧
      (CommandRequest.mk 7 readParametersPayload 100).payload = [0x0F] ∧ (0x51 : Byte) ∈ confirmationOpcodes) ∧
    (countResponse.result = .ok ∧ countResponse.ptype = 0x07 ∧ countResponse.payload = [0x00, 0x00, 0x05]) ∧
    mismatch.result ∈ [Result.checksumMismatch, .frameTooLarge, .framingTimeout, .frameMalformed] := by decide

/-- `DONE` set by the last byte, and cleared by `TAKE`. -/
theorem witness_WhoWritesDone : last13.Inv ∧ last13.block.done = false ∧
    (blockAfter (exec (.rxByte 0x11) last13)).map (·.done) = some true ∧
    (onBlock untaken).Inv ∧ (onBlock untaken).block.done = true ∧
    (blockAfter (exec .take (onBlock untaken))).map (·.done) = some false :=
  ⟨inv_last13, by decide, by decide, inv_untaken, by decide, by decide⟩

/-- `WAITING` set by `ARM`, cleared by a result and by `RESET`. -/
theorem witness_WhoWritesWaiting : (onBlock untaken).Inv ∧ (onBlock untaken).block.waiting = false ∧
    (blockAfter (exec (.arm 5) (onBlock untaken))).map (·.waiting) = some true ∧
    last13.Inv ∧ last13.block.waiting = true ∧
    (blockAfter (exec (.rxByte 0x11) last13)).map (fun k => (k.waiting, k.done)) = some (false, true) ∧
    (blockAfter (exec .reset last13)).map (·.waiting) = some false :=
  ⟨inv_untaken, by decide, by decide, inv_last13, by decide, by decide, by decide⟩

/-- `OVERRUN` set by V-RX-9's last byte, not by a byte before it, cleared by `ARM`, kept by `TAKE`. -/
theorem witness_WhoWritesOverrun : overrun11.Inv ∧ overrun11.block.overrun = false ∧
    (blockAfter (exec (.rxByte 0x13) overrun11)).map (·.overrun) = some true ∧
    (onBlock untaken.markOverrun).Inv ∧
    (blockAfter (exec (.arm 5) (onBlock untaken.markOverrun))).map (·.overrun) = some false ∧
    (blockAfter (exec .take (onBlock untaken.markOverrun))).map (·.overrun) = some true :=
  ⟨inv_overrun11, by decide, by decide, inv_of_header _ (by decide), by decide, by decide⟩

/-- Each clause's instruction answers a state: `ARM`, `RESET`, `TICK` waiting and not, and another. -/
theorem witness_WhoWritesTheWatchdog : last13.Inv ∧ (onBlock untaken).Inv ∧
    (blockAfter (exec (.arm 5) last13)).isSome = true ∧ (blockAfter (exec .reset last13)).isSome = true ∧
    (blockAfter (exec .tick last13)).isSome = true ∧ (blockAfter (exec .tick (onBlock untaken))).isSome = true ∧
    (blockAfter (exec .take last13)).isSome = true :=
  ⟨inv_last13, inv_untaken, by decide, by decide, by decide, by decide, by decide⟩

theorem witness_WhoWritesTheTransmitStream : (blockAfter (exec (.getImage 7) State.reset)).map (·.txStream.length) = some 12 ∧
    (blockAfter (exec .reset State.reset)).map (·.txStream.length) = some 0 := by decide

theorem witness_WhoWritesTheReassembler : Instr.receives .take = false ∧ (blockAfter (exec .take last13)).isSome = true ∧
    Instr.receives .tick = false ∧ (blockAfter (exec .tick (onBlock (armed 3 1)))).isSome = true ∧
    (armed 3 1).wdtCount.toNat + 1 < (armed 3 1).wdtLimit.toNat ∧ (onBlock untaken).block.waiting = false := by decide

theorem witness_ReadingChangesNothing : (blockAfter (exec (.readReg 7) last13)).isSome = true ∧
    (blockAfter (exec (.checksum 1 2 []) last13)).isSome = true ∧
    (blockAfter (exec (.verify 0 0 1 2 [] 3) last13)).isSome = true ∧
    (blockAfter (exec (.decode []) last13)).isSome = true := by decide

theorem witness_StepKeepsParametersAndOtherAgents :
    step (hostHas .wait) = .next ((hostHas .wait).afterTurn .host [.wait] []) ∧ (hostHas .wait).agents.turns = [.host] ∧
    step State.reset = .next State.reset ∧ State.reset.agents.turns = [] := ⟨rfl, rfl, rfl, rfl⟩

/-- A step that runs the byte of a race, from a state that meets the invariant. -/
theorem witness_EveryStepKeepsTheInvariant : (last13.withTurn .transport (.issue (.records [0x10, 0x11]))).Inv ∧
    (blockAfter (step (last13.withTurn .transport (.issue (.records [0x10, 0x11]))))).map (·.slot.result) = some .ok :=
  ⟨⟨inv_last13.params, inv_last13.block⟩, by decide⟩

theorem witness_NoStepFaults : (last13.withTurn .transport (.issue (.records [0x10, 0x11]))).Inv :=
  ⟨inv_last13.params, inv_last13.block⟩

/-- Each premise of its conclusions is met: a waiting state, and one in the payload phase. -/
theorem witness_HandoffInvariantsAfterEveryStep : (header8.withTurn .transport (.issue (.records [0x10, 0x05]))).Inv ∧
    (blockAfter (step (header8.withTurn .transport (.issue (.records [0x10, 0x05]))))).map (·.rxState) =
      some .accumulatingPayload ∧
    (header8.withTurn .host (.issue (.records [0x11, 0, 0, 0, 5]))).Inv ∧
    (blockAfter (step (header8.withTurn .host (.issue (.records [0x11, 0, 0, 0, 5]))))).map (·.waiting) = some true :=
  ⟨⟨inv_header8.params, inv_header8.block⟩, by decide, ⟨inv_header8.params, inv_header8.block⟩, by decide⟩

theorem witness_HandoffIsAtomic :
    (last13.Inv ∧ last13.block.done = false ∧ (blockAfter (exec (.rxByte 0x11) last13)).map (·.done) = some true ∧
      (blockAfter (exec .tick last13)).map (·.done) = some true) ∧
    (header8.Inv ∧ (blockAfter (exec (.rxByte 0x05) header8)).map (·.done) = some false) ∧
    (overrun11.Inv ∧ overrun11.block.done = true ∧ (blockAfter (exec (.rxByte 0x13) overrun11)).isSome = true) :=
  ⟨⟨inv_last13, by decide, by decide, by decide⟩, ⟨inv_header8, by decide⟩, inv_overrun11, by decide, by decide⟩

theorem witness_AnyAgentMayIssue :
    (blockAfter (step (State.reset.withTurn .host (.issue (.records [0x12]))))).isSome = true ∧
    (step (State.reset.withTurn .host (.issue (.records [0x00]))) matches .refused (.reservedSelector 0x00)) = true ∧
    (step ((onBlock { Block.reset with rxState := .complete }).withTurn .host (.issue (.records [0x10, 0]))) matches
      .fault .completeHeld) = true := by decide

theorem witness_TransmitStreamIsNeverRead : (blockAfter (exec (.getImage 7) State.reset)).isSome = true := by decide

/-- Two blocks that differ in the byte a frame left at index 8. -/
theorem witness_StaleBytesAreNeverObserved :
    header8.Inv ∧ (onBlock (header8.block.withBuf (cellsFrom 0 (e2.take 9)))).Inv ∧
    header8.SameButStale (onBlock (header8.block.withBuf (cellsFrom 0 (e2.take 9)))) ∧
    (blockAfter (exec (.rxByte 0x05) header8)).isSome = true :=
  ⟨inv_header8, inv_of_header _ (by decide), ⟨rfl, rfl, rfl, by decide, by decide⟩, by decide⟩

end Sys2Proof.Tests
end

section
/-! SUPPORT. Everything an instruction that answers a state can have done to the block, said once; what that means for the
handoff and the watchdog; and the register view. -/

namespace Sys2Proof

/-- The rows that return a value and write no element of the block (R77). -/
def Instr.reads : Instr → Bool
  | .decode _ | .checksum _ _ _ | .verify _ _ _ _ _ _ | .readReg _ => true
  | _ => false

end Sys2Proof

namespace Sys2Proof.Machine

/-! ### More of the shared operations -/

@[simp] theorem Block.finish_overrun (k : Block) (r : Record) : (k.finish r).overrun = (k.overrun || k.done) := by
  rcases k.finish_cases r with ⟨h, e⟩ | ⟨h, e⟩ <;> simp [e, h]

@[simp] theorem Block.finish_waiting (k : Block) (r : Record) : (k.finish r).waiting = (k.waiting && k.done) := by
  rcases k.finish_cases r with ⟨h, e⟩ | ⟨h, e⟩ <;> simp [e, h]

@[simp] theorem Block.encode_done (p : Config.Params) (k : Block) (addr : Word32) (ty : Byte) (pl : List Byte) :
    (k.encode p addr ty pl).1.done = k.done := by
  rcases Block.encode_block p k addr ty pl with e | e <;> simp [e]

@[simp] theorem Block.encode_waiting (p : Config.Params) (k : Block) (addr : Word32) (ty : Byte) (pl : List Byte) :
    (k.encode p addr ty pl).1.waiting = k.waiting := by
  rcases Block.encode_block p k addr ty pl with e | e <;> simp [e]

@[simp] theorem Block.encode_overrun (p : Config.Params) (k : Block) (addr : Word32) (ty : Byte) (pl : List Byte) :
    (k.encode p addr ty pl).1.overrun = k.overrun := by
  rcases Block.encode_block p k addr ty pl with e | e <;> simp [e]

@[simp] theorem Block.encode_wdtCount (p : Config.Params) (k : Block) (addr : Word32) (ty : Byte) (pl : List Byte) :
    (k.encode p addr ty pl).1.wdtCount = k.wdtCount := by
  rcases Block.encode_block p k addr ty pl with e | e <;> simp [e]

@[simp] theorem Block.encode_wdtLimit (p : Config.Params) (k : Block) (addr : Word32) (ty : Byte) (pl : List Byte) :
    (k.encode p addr ty pl).1.wdtLimit = k.wdtLimit := by
  rcases Block.encode_block p k addr ty pl with e | e <;> simp [e]

/-- Everything `TAKE` can do to the block: nothing where the slot is empty, and else it empties the slot (R191). -/
theorem Block.take_ok_cases {k k' : Block} {r : Ret} (h : k.take = .ok (k', r)) :
    (k.done = false ∧ k' = k) ∨ (k.done = true ∧ k' = k.clearSlot) := by
  unfold Block.take at h
  split at h
  · rename_i hd
    split at h
    · exact .inr ⟨hd, (congrArg Prod.fst (Except.ok.inj h)).symm⟩
    · cases h
  · rename_i hd
    exact .inl ⟨by simpa using hd, (congrArg Prod.fst (Except.ok.inj h)).symm⟩

/-- `TAKE` writes the slot and `DONE` alone (R191). -/
theorem Block.take_sameOutside {k k' : Block} {r : Ret} (h : k.take = .ok (k', r)) :
    k'.waiting = k.waiting ∧ k'.overrun = k.overrun ∧ k'.wdtCount = k.wdtCount ∧ k'.wdtLimit = k.wdtLimit := by
  rcases Block.take_ok_cases h with ⟨_, rfl⟩ | ⟨_, rfl⟩ <;> exact ⟨rfl, rfl, rfl, rfl⟩

/-- One byte received as a burst of one. -/
@[simp] theorem Block.rxBytes_singleton (p : Config.Params) (k : Block) (b : Byte) :
    k.rxBytes p [b] = k.rxByte p b := by
  simp only [Block.rxBytes]
  cases k.rxByte p b <;> rfl

/-- Receiving bytes never starts a cycle. -/
theorem Block.Received.keeps_not_waiting {k k' : Block} (h : k.Received k') (hw : k.waiting = false) :
    k'.waiting = false := by
  cases hd : k.done
  · rcases h.free hd with ⟨_, _, e, _⟩ | ⟨_, _, e⟩
    · exact e.trans hw
    · exact e
  · obtain ⟨_, _, e⟩ := h.untaken hd
    exact e.trans hw

/-- Receiving bytes ends a cycle only by latching a result (R40). -/
theorem Block.Received.done_of_cleared {k k' : Block} (h : k.Received k') (hw : k.waiting = true)
    (hw' : k'.waiting = false) : k'.done = true := by
  cases hd : k.done
  · rcases h.free hd with ⟨_, _, e, _⟩ | ⟨e, _⟩
    · simp [e, hw] at hw'
    · exact e
  · obtain ⟨_, e, _⟩ := h.untaken hd
    exact e

/-! ### The watchdog's tick (R190) -/

/-- While no cycle waits a tick changes nothing. -/
theorem Block.tick_idle {k : Block} (h : k.waiting = false) : k.tick = k := by
  rcases k.tick_cases with ⟨_, e⟩ | ⟨hw, _⟩ | ⟨hw, _⟩
  · exact e
  · simp [h] at hw
  · simp [h] at hw

@[simp] theorem Block.tick_wdtLimit (k : Block) : k.tick.wdtLimit = k.wdtLimit := by
  rcases k.tick_cases with ⟨_, e⟩ | ⟨_, _, e⟩ | ⟨_, _, e⟩ <;> simp [e]

/-- A tick counts one while a cycle waits, whether or not it expires (R43). -/
theorem Block.WatchdogInv.tick_wdtCount {k : Block} (h : k.WatchdogInv) :
    k.tick.wdtCount.toNat = k.wdtCount.toNat + (if k.waiting then 1 else 0) := by
  rcases k.tick_cases with ⟨hw, e⟩ | ⟨hw, _, e⟩ | ⟨hw, _, e⟩ <;> rw [e, hw]
  · rfl
  · exact h.stored_tick hw
  · rw [Block.finish_wdtCount]
    exact h.stored_tick hw

/-- A tick never empties the slot. -/
theorem Block.tick_keeps_done {k : Block} (h : k.done = true) : k.tick.done = true := by
  rcases k.tick_cases with ⟨_, e⟩ | ⟨_, _, e⟩ | ⟨_, _, e⟩ <;> simp [e, h]

/-- A tick never starts a cycle. -/
theorem Block.tick_keeps_not_waiting {k : Block} (h : k.waiting = false) : k.tick.waiting = false := by
  rw [Block.tick_idle h, h]

/-- A tick ends a cycle only by latching a result (R40). -/
theorem Block.tick_done_of_cleared {k : Block} (h : k.waiting = true) (h' : k.tick.waiting = false) :
    k.tick.done = true := by
  rcases k.tick_cases with ⟨_, e⟩ | ⟨_, _, e⟩ | ⟨_, _, e⟩ <;> rw [e] at h' ⊢
  · simp [h] at h'
  · simp [h] at h'
  · simp

/-- A cycle that waits has an empty slot, so the tick that ends it overruns nothing (R42). -/
theorem Block.WatchdogInv.tick_overrun {k : Block} (h : k.WatchdogInv) : k.tick.overrun = k.overrun := by
  rcases k.tick_cases with ⟨_, e⟩ | ⟨_, _, e⟩ | ⟨hw, _, e⟩
  · rw [e]
  · simp [e]
  · simp [e, h.waitingMeansEmpty hw]

/-! ### What an instruction does to the block -/

/-- What an instruction that is done has made of the block, and what it returns: bytes received, one of the four handoff
operations or `RESET`, a request to send, or a reading. -/
inductive Block.Effect (p : Config.Params) (k : Block) : Instr → Block → Ret → Prop where
  | receive {i : Instr} {bs : List Byte} {k' : Block} (hi : i.receives = true) (h : k.rxBytes p bs = .ok k') :
      Effect p k i k' .nothing
  | arm (limit : Word32) : Effect p k (.arm limit) (k.arm limit) .nothing
  | tick : Effect p k .tick k.tick .nothing
  | take {k' : Block} {r : Ret} (h : k.take = .ok (k', r)) : Effect p k .take k' r
  | reset : Effect p k .reset k.resetOp .nothing
  | send {i : Instr} (hi : i.sends = true) (addr : Word32) (ty : Byte) (pl : List Byte) :
      Effect p k i (k.encode p addr ty pl).1 (k.encode p addr ty pl).2
  | read {i : Instr} (hi : i.reads = true) (r : Ret) : Effect p k i k r

/-- A catalog command that is done has sent its frame or refused to (R241). -/
theorem State.sendCommand_effect {s t : State} {i : Instr} {addr : Word32} {pl : List Byte} (hi : i.sends = true)
    (h : s.sendCommand addr pl = .next t) :
    ∃ k r, t = s.finishOp k r ∧ s.block.Effect s.params i k r :=
  ⟨_, _, (Host.Outcome.next.inj h).symm, .send hi addr 0x01 pl⟩

/-- A wire frame that is delivered has had its bytes received (R193). -/
theorem State.deliverFrame_effect {s t : State} {i : Instr} {st : Half} {addr : Word32} {ty : Byte} {pl : List Byte}
    {c : Half} (hi : i.receives = true) (h : s.deliverFrame st addr ty pl c = .next t) :
    ∃ k r, t = s.finishOp k r ∧ s.block.Effect s.params i k r := by
  obtain ⟨k, hk, rfl⟩ := (s.doneBlock_eq_next t _).mp h
  exact ⟨k, .nothing, rfl, .receive hi hk⟩

/-- Everything an instruction that answers a state can have done: it has its effect on the block and its return, and touches
nothing else of the machine. -/
theorem exec_effect {i : Instr} {s t : State} (h : exec i s = .next t) :
    ∃ k r, t = s.finishOp k r ∧ s.block.Effect s.params i k r := by
  cases i with
  | encode addr ty pl => exact ⟨_, _, (Host.Outcome.next.inj h).symm, .send rfl addr ty pl⟩
  | decode bs =>
    simp only [exec, execDecode] at h
    split at h
    · exact ⟨_, _, (Host.Outcome.next.inj h).symm, .read rfl _⟩
    · cases h
  | checksum ty len pl => exact ⟨_, _, (Host.Outcome.next.inj h).symm, .read rfl _⟩
  | verify st addr ty len pl c => exact ⟨_, _, (Host.Outcome.next.inj h).symm, .read rfl _⟩
  | rxByte b =>
    obtain ⟨k, hk, rfl⟩ := (s.doneBlock_eq_next t _).mp h
    exact ⟨k, .nothing, rfl, .receive (bs := [b]) rfl (by simpa using hk)⟩
  | arm limit => exact ⟨_, _, (Host.Outcome.next.inj h).symm, .arm limit⟩
  | tick => exact ⟨_, _, (Host.Outcome.next.inj h).symm, .tick⟩
  | take =>
    obtain ⟨⟨k, r⟩, hk, rfl⟩ := (s.doneOrFault_eq_next t _).mp h
    exact ⟨k, r, rfl, .take hk⟩
  | readReg index =>
    simp only [exec, execReadReg] at h
    split at h
    · cases h
    · exact ⟨_, _, (Host.Outcome.next.inj h).symm, .read rfl _⟩
    · cases h
  | reset => exact ⟨_, _, (Host.Outcome.next.inj h).symm, .reset⟩
  | frameCommand st addr pl c => exact State.deliverFrame_effect rfl h
  | frameData st addr pl c => exact State.deliverFrame_effect rfl h
  | frameAck st addr pl c => exact State.deliverFrame_effect rfl h
  | frameEndOfData st addr pl c => exact State.deliverFrame_effect rfl h
  | getImage addr => exact State.sendCommand_effect rfl h
  | extractFeatures addr slot => exact State.sendCommand_effect rfl h
  | search addr slot start count => exact State.sendCommand_effect rfl h
  | mergeFeatures addr => exact State.sendCommand_effect rfl h
  | storeTemplate addr slot page => exact State.sendCommand_effect rfl h
  | loadTemplate addr slot page => exact State.sendCommand_effect rfl h
  | deleteTemplate addr page count => exact State.sendCommand_effect rfl h
  | emptyLibrary addr => exact State.sendCommand_effect rfl h
  | readParameters addr => exact State.sendCommand_effect rfl h
  | setPassword addr password => exact State.sendCommand_effect rfl h
  | verifyPassword addr password => exact State.sendCommand_effect rfl h
  | enumerateTemplateCount addr => exact State.sendCommand_effect rfl h
  | ledControl50 addr => exact State.sendCommand_effect rfl h
  | ledControl51 addr => exact State.sendCommand_effect rfl h

section Effect

variable {p : Config.Params} {k k' : Block} {i : Instr} {r : Ret}

/-- Every instruction that answers a state keeps the block's invariant. -/
theorem Block.Effect.inv (h : k.Effect p i k' r) (hp : p.wf) (hk : k.Inv p) : k'.Inv p := by
  cases h with
  | receive _ h =>
    obtain ⟨k1, e, hk1⟩ := Block.Inv.rxBytes hp _ hk
    exact Except.ok.inj (e.symm.trans h) ▸ hk1
  | arm limit => exact hk.arm limit
  | tick => exact hk.tick
  | take h =>
    rcases Block.take_ok_cases h with ⟨_, rfl⟩ | ⟨_, rfl⟩
    · exact hk
    · exact hk.clearSlot
  | reset => exact hk.resetOp
  | send _ addr ty pl => exact hk.encode addr ty pl
  | read _ _ => exact hk

/-- What `ARM` does (R189). -/
theorem Block.Effect.arm_eq {limit : Word32} (h : k.Effect p (.arm limit) k' r) : k' = k.arm limit := by
  cases h with
  | arm => rfl
  | receive hi | send hi | read hi => cases hi

/-- What `TICK` does (R190). -/
theorem Block.Effect.tick_eq (h : k.Effect p .tick k' r) : k' = k.tick := by
  cases h with
  | tick => rfl
  | receive hi | send hi | read hi => cases hi

/-- What `RESET` does (R300). -/
theorem Block.Effect.reset_eq (h : k.Effect p .reset k' r) : k' = k.resetOp := by
  cases h with
  | reset => rfl
  | receive hi | send hi | read hi => cases hi

/-- What bytes received by any row do to the handoff and the watchdog. -/
theorem Block.Inv.received {bs : List Byte} (hk : k.Inv p) (hp : p.wf) (h : k.rxBytes p bs = .ok k') : k.Received k' :=
  Block.Inv.rxBytes_received hp bs hk h

/-! ### Who writes `DONE` -/

/-- `DONE` is set by the rows that receive and by `TICK` alone. -/
theorem Block.Effect.done_set (h : k.Effect p i k' r) (hd : k.done = false) (hd' : k'.done = true) :
    i.receives = true ∨ i = .tick := by
  cases h with
  | receive hi _ => exact .inl hi
  | tick => exact .inr rfl
  | take h => rcases Block.take_ok_cases h with ⟨_, rfl⟩ | ⟨_, rfl⟩ <;> simp [hd] at hd'
  | arm | reset => cases hd'
  | send | read => simp [hd] at hd'

/-- `DONE` is cleared by `TAKE`, `ARM` and `RESET` alone. -/
theorem Block.Effect.done_cleared (h : k.Effect p i k' r) (hp : p.wf) (hk : k.Inv p) (hd : k.done = true)
    (hd' : k'.done = false) : i = .take ∨ (∃ limit, i = .arm limit) ∨ i = .reset := by
  cases h with
  | take => exact .inl rfl
  | arm limit => exact .inr (.inl ⟨limit, rfl⟩)
  | reset => exact .inr (.inr rfl)
  | receive _ h =>
    obtain ⟨_, e, _⟩ := (hk.received hp h).untaken hd
    simp [e] at hd'
  | tick => simp [Block.tick_keeps_done hd] at hd'
  | send | read => simp [hd] at hd'

/-! ### Who writes `WAITING` -/

/-- `WAITING` is set by `ARM` alone. -/
theorem Block.Effect.waiting_set (h : k.Effect p i k' r) (hp : p.wf) (hk : k.Inv p) (hw : k.waiting = false)
    (hw' : k'.waiting = true) : ∃ limit, i = .arm limit := by
  cases h with
  | arm limit => exact ⟨limit, rfl⟩
  | receive _ h => simp [(hk.received hp h).keeps_not_waiting hw] at hw'
  | tick => simp [Block.tick_keeps_not_waiting hw] at hw'
  | take h =>
    obtain ⟨e, _⟩ := Block.take_sameOutside h
    simp [e, hw] at hw'
  | reset => cases hw'
  | send | read => simp [hw] at hw'

/-- `WAITING` is cleared by `RESET`, and where a result is latched. -/
theorem Block.Effect.waiting_cleared (h : k.Effect p i k' r) (hp : p.wf) (hk : k.Inv p) (hw : k.waiting = true)
    (hw' : k'.waiting = false) : i = .reset ∨ ((i.receives = true ∨ i = .tick) ∧ k'.done = true) := by
  cases h with
  | reset => exact .inl rfl
  | receive hi h => exact .inr ⟨.inl hi, (hk.received hp h).done_of_cleared hw hw'⟩
  | tick => exact .inr ⟨.inr rfl, Block.tick_done_of_cleared hw hw'⟩
  | arm => cases hw'
  | take h =>
    obtain ⟨e, _⟩ := Block.take_sameOutside h
    simp [e, hw] at hw'
  | send | read => simp [hw] at hw'

/-! ### Who writes `OVERRUN` -/

/-- `OVERRUN` is set by the rows that receive alone. -/
theorem Block.Effect.overrun_set (h : k.Effect p i k' r) (hk : k.Inv p) (ho : k.overrun = false)
    (ho' : k'.overrun = true) : i.receives = true := by
  cases h with
  | receive hi _ => exact hi
  | tick => simp [hk.watchdog.tick_overrun, ho] at ho'
  | take h =>
    obtain ⟨_, e, _⟩ := Block.take_sameOutside h
    simp [e, ho] at ho'
  | arm | reset => cases ho'
  | send | read => simp [ho] at ho'

/-- `OVERRUN` is cleared by `ARM` and `RESET` alone. -/
theorem Block.Effect.overrun_cleared (h : k.Effect p i k' r) (hp : p.wf) (hk : k.Inv p) (ho : k.overrun = true)
    (ho' : k'.overrun = false) : (∃ limit, i = .arm limit) ∨ i = .reset := by
  cases h with
  | arm limit => exact .inl ⟨limit, rfl⟩
  | reset => exact .inr rfl
  | receive _ h => simp [(hk.received hp h).overrunStays ho] at ho'
  | tick => simp [hk.watchdog.tick_overrun, ho] at ho'
  | take h =>
    obtain ⟨_, e, _⟩ := Block.take_sameOutside h
    simp [e, ho] at ho'
  | send | read => simp [ho] at ho'

/-- `TAKE` keeps `OVERRUN`. -/
theorem Block.Effect.take_overrun (h : k.Effect p .take k' r) : k'.overrun = k.overrun := by
  cases h with
  | take h =>
    obtain ⟨_, e, _⟩ := Block.take_sameOutside h
    exact e
  | receive hi | send hi | read hi => cases hi

/-- A received byte sets `OVERRUN` exactly where it ends the frame in flight while `DONE = 1` (R268). -/
theorem Block.Inv.rxByte_overrun_iff {b : Byte} (hk : k.Inv p) (hp : p.wf) (h : k.rxByte p b = .ok k') :
    k'.overrun = true ↔ k.overrun = true ∨ (k.done = true ∧ k'.rxCount = 0) := by
  rcases hk.rxByte_cases hp b with ⟨st, e, hs⟩ | ⟨_, res, _, hs⟩ <;> obtain rfl := Except.ok.inj (hs.symm.trans h)
  · have hne : k.rxCount + 1#16 ≠ 0#16 := by
      have hroom := hk.phase.room
      have hcap : p.rxCapacity = p.maxPayload + 11 := rfl
      have hp' : p.maxPayload ≤ 65524 := hp
      bv_omega
    simp [hne, Block.stored]
  · simp [Block.stored]

/-! ### Who writes the watchdog -/

/-- `wdt_count` and `wdt_limit` are written by `ARM`, `RESET` and `TICK` alone. -/
theorem Block.Effect.watchdog_unchanged (h : k.Effect p i k' r) (hp : p.wf) (hk : k.Inv p)
    (ha : ∀ limit, i ≠ .arm limit) (hr : i ≠ .reset) (ht : i ≠ .tick) :
    k'.wdtCount = k.wdtCount ∧ k'.wdtLimit = k.wdtLimit := by
  cases h with
  | receive _ h => exact ⟨(hk.received hp h).wdtCount, (hk.received hp h).wdtLimit⟩
  | take h =>
    obtain ⟨_, _, e⟩ := Block.take_sameOutside h
    exact e
  | arm limit => exact absurd rfl (ha limit)
  | tick => exact absurd rfl ht
  | reset => exact absurd rfl hr
  | send _ addr ty pl => exact ⟨by simp, by simp⟩
  | read => exact ⟨rfl, rfl⟩

end Effect

/-! ### The register view (R45, R46) -/

/-- The fields of the `STATUS` sum (R46), over its 32 values. -/
theorem statusSum_fields : ∀ (st : BitVec 2) (done waiting overrun : Bool),
    let v : Word32 := BitVec.ofNat 32 (st.toNat + 4 * done.toNat + 8 * waiting.toNat + 16 * overrun.toNat)
    v.extractLsb' 0 2 = st ∧ v.getLsbD 2 = done ∧ v.getLsbD 3 = waiting ∧ v.getLsbD 4 = overrun ∧
      v.extractLsb' 5 27 = 0 := by decide

/-- The fields of `STATUS` (R46). -/
theorem statusWord_fields (st : RxState) (done waiting overrun : Bool) :
    (statusWord st done waiting overrun).extractLsb' 0 2 = st.bits ∧
    (statusWord st done waiting overrun).getLsbD 2 = done ∧
    (statusWord st done waiting overrun).getLsbD 3 = waiting ∧
    (statusWord st done waiting overrun).getLsbD 4 = overrun ∧
    (statusWord st done waiting overrun).extractLsb' 5 27 = 0 :=
  statusSum_fields st.bits done waiting overrun

/-- `rx_state` of a frame in its header phase (R32). -/
theorem RxState.ofCount_header {c : Nat} (h1 : 1 ≤ c) (h8 : c ≤ 8) : RxState.ofCount c = .accumulatingHeader := by
  rw [RxState.ofCount, if_neg (by omega), if_pos h8]

/-- `rx_state` of a frame past its header (R32). -/
theorem RxState.ofCount_payload {c : Nat} (h9 : 9 ≤ c) : RxState.ofCount c = .accumulatingPayload := by
  rw [RxState.ofCount, if_neg (by omega), if_neg (by omega)]

/-- What `RX_STATE` reads, by the count (R32). -/
theorem Block.PhaseInv.rxState_bits {p : Config.Params} {k : Block} (h : k.PhaseInv p) :
    (k.rxCount.toNat = 0 → k.rxState.bits = 0) ∧
    (1 ≤ k.rxCount.toNat → k.rxCount.toNat ≤ 8 → k.rxState.bits = 1) ∧
    (9 ≤ k.rxCount.toNat → k.rxState.bits = 2) := by
  rw [h.stateOfCount]
  refine ⟨fun h0 => ?_, fun h1 h8 => ?_, fun h9 => ?_⟩
  · rw [h0]
    rfl
  · rw [RxState.ofCount_header h1 h8]
    rfl
  · rw [RxState.ofCount_payload h9]
    rfl

/-- `READ_REG` of an assigned register that holds a value. -/
theorem exec_readReg_word {s : State} {index : Byte} {v : Word32}
    (h : s.block.register s.params index.toNat = some (.ok v)) :
    exec (.readReg index) s = .next (s.finishOp s.block (.word v)) := by
  simp [exec, execReadReg, h, State.done]

/-- `READ_REG` of an index with no register (R192). -/
theorem exec_readReg_unassigned {s : State} {index : Byte} (h : 7 < index.toNat) :
    exec (.readReg index) s = .refused (.unassignedRegister index) := by
  obtain ⟨n, hn⟩ := Nat.exists_eq_add_of_le' (Nat.succ_le_of_lt h)
  simp [exec, execReadReg, hn, Block.register]

/-- `STATUS` wherever `rx_state` is not `Complete`. -/
theorem Block.register_status {p : Config.Params} {k : Block} (h : k.rxState ≠ .complete) :
    k.register p 0 = some (.ok (statusWord k.rxState k.done k.waiting k.overrun)) := by
  simp [Block.register, h]

/-- `RESULT` wherever the slot holds no reserved code. -/
theorem Block.register_result {p : Config.Params} {k : Block} (h : k.slot.result.isReserved = false) :
    k.register p 3 = some (.ok (k.slot.result.code.setWidth 32)) := by
  simp [Block.register, h]

/-- The codes of the results that are written (R38), as `RESULT` reads them. -/
theorem Result.legal_code {r : Result} (h : r.isReserved = false) :
    (r, (r.code.setWidth 32 : Word32)) ∈ [((.none, 0) : Result × Word32), (.ok, 1), (.checksumMismatch, 2),
      (.frameTooLarge, 3), (.framingTimeout, 4), (.frameMalformed, 5)] := by
  cases r with
  | reserved6 | reserved7 => cases h
  | none | ok | checksumMismatch | frameTooLarge | framingTimeout | frameMalformed => decide

/-- The capacity fits its 16-bit register (R8). -/
theorem rxCapacity_register {p : Config.Params} (hp : p.wf) :
    ((BitVec.ofNat 16 p.rxCapacity : Half).setWidth 32 : Word32) = BitVec.ofNat 32 p.rxCapacity := by
  have hcap : p.rxCapacity ≤ 65535 := Nat.add_le_add_right (m := 65524) hp 11
  apply BitVec.eq_of_toNat_eq
  simp only [BitVec.toNat_setWidth, BitVec.toNat_ofNat]
  omega

/-! ## The statements of 10_state.md -/

/-- Settles O45: the slot's part of the invariant, and who writes `DONE`, from what each instruction can do. -/
theorem whoWritesDone : Obligations.WhoWritesDone := by
  intro i s t hs h
  obtain ⟨k, r, rfl, he⟩ := exec_effect h
  have hk := he.inv hs.params hs.block
  refine ⟨?_, he.done_set, he.done_cleared hs.params hs.block⟩
  rw [ne_eq, State.finishOp_block, ← hk.slot.emptyIff, Bool.not_eq_false]

/-- Settles O46: who writes `WAITING`, and that a waiting cycle has an empty slot. -/
theorem whoWritesWaiting : Obligations.WhoWritesWaiting := by
  refine ⟨fun i s t hs h => ?_, fun limit s => ⟨_, rfl, rfl⟩, fun s hw => ?_⟩
  · obtain ⟨k, r, rfl, he⟩ := exec_effect h
    have hk := he.inv hs.params hs.block
    refine ⟨he.waiting_set hs.params hs.block, he.waiting_cleared hs.params hs.block, fun hd => ?_, ?_⟩
    · by_contra hw
      exact absurd (hk.watchdog.waitingMeansEmpty (by simpa using hw)) (by simpa using hd)
    · rintro rfl
      rw [State.finishOp_block, he.reset_eq, Block.resetOp_waiting]
  · rw [exec, execTick, Block.tick_idle hw, State.done]

/-- Settles O47: the byte that ends a frame while `DONE = 1`, and who writes `OVERRUN`. -/
theorem whoWritesOverrun : Obligations.WhoWritesOverrun := by
  refine ⟨fun b s t hs h => ?_, fun i s t hs h => ?_⟩
  · obtain ⟨k, hk, rfl⟩ := (s.doneBlock_eq_next t _).mp h
    exact hs.block.rxByte_overrun_iff hs.params hk
  · obtain ⟨k, r, rfl, he⟩ := exec_effect h
    refine ⟨he.overrun_set hs.block, he.overrun_cleared hs.params hs.block, ?_, ?_⟩
    · rintro (⟨limit, rfl⟩ | rfl)
      · rw [State.finishOp_block, he.arm_eq, Block.arm_overrun]
      · rw [State.finishOp_block, he.reset_eq, Block.resetOp_overrun]
    · rintro rfl
      exact he.take_overrun

/-- Settles O48: the watchdog's part of the invariant, and who writes its two registers. -/
theorem whoWritesTheWatchdog : Obligations.WhoWritesTheWatchdog := by
  intro i s t hs h
  obtain ⟨k, r, rfl, he⟩ := exec_effect h
  refine ⟨(he.inv hs.params hs.block).watchdog.countBound, ?_, ?_, ?_, he.watchdog_unchanged hs.params hs.block⟩
  · rintro limit rfl
    simp [he.arm_eq]
  · rintro rfl
    simp [he.reset_eq]
  · rintro rfl
    rw [State.finishOp_block, he.tick_eq]
    exact ⟨Block.tick_wdtLimit _, hs.block.watchdog.tick_wdtCount⟩

/-- Settles O35: each register of the view, and the fields of `STATUS` in their places. -/
theorem registerView : Obligations.RegisterView := by
  intro s hs
  have hstatus := Block.register_status (p := s.params) hs.block.phase.not_complete
  have hresult := Block.register_result (p := s.params) hs.block.slot.legalCode
  obtain ⟨hidle, hheader, hpayload⟩ := hs.block.phase.rxState_bits
  obtain ⟨hst, hfields⟩ := statusWord_fields s.block.rxState s.block.done s.block.waiting s.block.overrun
  refine ⟨⟨_, exec_readReg_word hstatus, ?_⟩, rfl, rfl, ⟨_, Result.legal_code hs.block.slot.legalCode, rfl,
    exec_readReg_word hresult⟩, rfl, rfl, ?_, rfl, fun _ => exec_readReg_unassigned⟩
  · rw [hst]
    exact ⟨hidle, hheader, hpayload, rfl, hfields⟩
  · rw [← rxCapacity_register hs.params]
    rfl

end Sys2Proof.Machine
end

section
/-! SUPPORT. The handoff: one operation writes the slot and `DONE`, and an untaken result stays as it is. -/

namespace Sys2Proof.Machine

/-- A result is in the slot, and the reassembler waits for the first byte of a frame. -/
structure Block.HandedOff (k : Block) : Prop where
  done : k.done = true
  result : k.slot.result ≠ .none
  idle : k.rxState = .idle
  empty : k.rxCount = 0

/-- `DONE` is 0 in `k'`, whose slot is the one of `k`. -/
structure Block.SlotStillEmpty (k k' : Block) : Prop where
  done : k'.done = false
  slot : k'.slot = k.slot

/-- The latch hands its result over wherever the slot is empty (R262). -/
theorem Block.finish_handedOff {k : Block} {r : Record} (hd : k.done = false) (hr : r.result ≠ .none) :
    (k.finish r).HandedOff := by
  rcases k.finish_cases r with ⟨_, e⟩ | ⟨hd', _⟩
  · rw [e]
    exact ⟨rfl, hr, rfl, rfl⟩
  · simp [hd] at hd'

/-- A received byte that finds the slot empty leaves it so, or hands a result over (R81). -/
theorem Block.Inv.rxByte_handoff {p : Config.Params} {k k' : Block} {b : Byte} (hk : k.Inv p) (hp : p.wf)
    (h : k.rxByte p b = .ok k') (hd : k.done = false) : k.SlotStillEmpty k' ∨ k'.HandedOff := by
  rcases hk.rxByte_cases hp b with ⟨st, e, hs⟩ | ⟨_, r, hr, hs⟩ <;> obtain rfl := Except.ok.inj (hs.symm.trans h)
  · exact .inl ⟨hd, rfl⟩
  · exact .inr (Block.finish_handedOff hd hr)

/-- A tick that finds the slot empty leaves it so, or hands its timeout over (R81). -/
theorem Block.tick_handoff {k : Block} (hd : k.done = false) : k.SlotStillEmpty k.tick ∨ k.tick.HandedOff := by
  rcases k.tick_cases with ⟨_, e⟩ | ⟨_, _, e⟩ | ⟨_, _, e⟩ <;> rw [e]
  · exact .inl ⟨hd, rfl⟩
  · exact .inl ⟨hd, rfl⟩
  · exact .inr (Block.finish_handedOff hd (by simp [recEmpty]))

/-- No cycle waits while a result is untaken (R42). -/
theorem Block.WatchdogInv.not_waiting {k : Block} (h : k.WatchdogInv) (hd : k.done = true) : k.waiting = false :=
  Bool.eq_false_iff.mpr fun hw => by simp [h.waitingMeansEmpty hw] at hd

/-- A byte received into an empty buffer is the first of a fresh frame, and leaves the handoff as it is (R182). -/
theorem Block.Inv.rxByte_first {p : Config.Params} {k : Block} (hk : k.Inv p) (h0 : k.rxCount = 0) (b : Byte) :
    ∃ k', k.rxByte p b = .ok k' ∧ k'.rxCount = 1 ∧ Memory.lookup k'.rxBuf 0 = some b ∧ k'.slot = k.slot ∧
      k'.done = k.done := by
  refine ⟨_, Block.rxByte_header p k b hk.phase.not_complete hk.phase.room (by simp [h0]), ?_, ?_, rfl, rfl⟩
  · simp [h0]
  · simp [Block.stored, h0]

/-- An untaken result stays in the slot through every instruction but `TAKE`, `ARM` and `RESET` (R81). -/
theorem Block.Effect.untaken_stays {p : Config.Params} {k k' : Block} {i : Instr} {r : Ret} (h : k.Effect p i k' r)
    (hp : p.wf) (hk : k.Inv p) (hd : k.done = true) (hi : i ≠ .take) (ha : ∀ limit, i ≠ .arm limit)
    (hr : i ≠ .reset) : k'.slot = k.slot ∧ k'.done = true := by
  cases h with
  | receive _ h =>
    obtain ⟨hslot, hdone, _⟩ := (hk.received hp h).untaken hd
    exact ⟨hslot, hdone⟩
  | tick =>
    rw [Block.tick_idle (hk.watchdog.not_waiting hd)]
    exact ⟨rfl, hd⟩
  | send _ addr ty pl =>
    rcases Block.encode_block p k addr ty pl with e | e <;> rw [e] <;> exact ⟨rfl, hd⟩
  | read => exact ⟨rfl, hd⟩
  | take => exact absurd rfl hi
  | arm limit => exact absurd rfl (ha limit)
  | reset => exact absurd rfl hr

/-- `TAKE` of an untaken result returns the slot and empties it (R191). -/
theorem exec_take_untaken {s : State} (hs : s.block.SlotInv s.params) (hd : s.block.done = true) :
    exec .take s = .next (s.finishOp s.block.clearSlot (.record s.block.slot)) := by
  refine (s.doneOrFault_eq_next _ _).mpr ⟨_, Block.take_eq hs, ?_⟩
  rw [hd]
  rfl

/-- `RX_BYTE` and `TICK`, where they find the slot empty, leave it so or hand a result over (R81). -/
theorem exec_handoff {i : Instr} {s t : State} (hs : s.Inv) (h : exec i s = .next t) (hd : s.block.done = false)
    (hi : i = .tick ∨ ∃ b, i = .rxByte b) : s.block.SlotStillEmpty t.block ∨ t.block.HandedOff := by
  rcases hi with rfl | ⟨b, rfl⟩
  · obtain rfl := (s.done_eq_next t _).mp h
    exact Block.tick_handoff hd
  · obtain ⟨k, hk, rfl⟩ := (s.doneBlock_eq_next t _).mp h
    exact hs.block.rxByte_handoff hs.params hk hd

/-! ## The statements of 20_memory.md -/

/-- Settles O57: `RX_BYTE` and `TICK` write the slot only by the latch, which leaves the buffer empty; `TAKE` empties the slot;
and no other effect on an untaken result but those of `ARM` and `RESET` reaches it. -/
theorem handoffIsAtomic : Obligations.HandoffIsAtomic := by
  refine ⟨fun i s t hs h hd hi => ?_, fun s hs hd => ⟨_, exec_take_untaken hs.block.slot hd, rfl, rfl, rfl⟩,
    fun i s t hs h hd hi ha hr => ?_⟩
  · rcases exec_handoff hs h hd hi with ⟨hdone, hslot⟩ | ⟨hdone, hresult, hidle, hempty⟩
    · exact .inl ⟨hdone, hslot⟩
    · refine .inr ⟨hdone, hresult, hidle, hempty, fun b => ?_⟩
      obtain ⟨k, r, rfl, he⟩ := exec_effect h
      obtain ⟨k', hk', hcount, hbyte, hslot', hdone'⟩ := (he.inv hs.params hs.block).rxByte_first hempty b
      exact ⟨_, (State.doneBlock_eq_next _ _ _).mpr ⟨k', hk', rfl⟩, hcount, hbyte, hslot', hdone'.trans hdone⟩
  · obtain ⟨k, r, rfl, he⟩ := exec_effect h
    exact he.untaken_stays hs.params hs.block hd hi ha hr

end Sys2Proof.Machine
end

section
/-! SUPPORT. The records that do not decode: how the decoder rejects a reserved selector, and how a turn refuses the record. -/

namespace Sys2Proof

/-- Outside the ten selectors of R110 no operands are read: the selector is rejected by name (R112). -/
theorem decodeOperands_reserved {sel : Byte} (rest : List Byte)
    (h : sel ∉ ([0x01, 0x02, 0x03, 0x04, 0x10, 0x11, 0x12, 0x13, 0x14, 0x1F] : List Byte)) :
    decodeOperands sel rest = .error (.reservedSelector sel) := by
  simp only [List.mem_cons, List.not_mem_nil, or_false, not_or] at h
  obtain ⟨encode, decode, checksum, verify, rxByte, arm, tick, take, readReg, reset⟩ := h
  rw [decodeOperands, if_neg encode, if_neg decode, if_neg checksum, if_neg verify, if_neg rxByte, if_neg arm,
    if_neg tick, if_neg take, if_neg readReg, if_neg reset]

end Sys2Proof

namespace Sys2Proof.Machine

/-- A listing whose first record does not decode is refused, with the decoder's reason (R21). -/
theorem nextOperation_records_error {b : Byte} {bs : List Byte} {e : DecodeError} (p : Config.Params) (done : Bool)
    (q : List Item) (h : decodeRecord (b :: bs) = .error e) :
    nextOperation p done (.issue (.records (b :: bs)) :: q) = .refuse (decodeRefusal e) := by
  rw [nextOperation, h]

/-- The step is refused where the agent whose turn it is has no operation with a meaning. -/
theorem step_refuse {s : State} {a : Agent} {ts : List Agent} {r : Refusal} (ht : s.agents.turns = a :: ts)
    (h : nextOperation s.params s.block.done (s.agents.queue a) = .refuse r) : step s = .refused r := by
  simp only [step, ht, h]

/-! ## The statement of 30_encoding.md -/

/-- Settles O3: the decoder rejects the record by its selector, before it reads what follows, and the turn refuses what does
not decode. -/
theorem reservedSelectorIsRefused : Obligations.ReservedSelectorIsRefused := by
  intro s a ts sel rest q hsel ht hq
  have hdec : decodeRecord (sel :: rest) = .error (.reservedSelector sel) := decodeOperands_reserved rest hsel
  refine step_refuse ht ?_
  rw [hq]
  exact nextOperation_records_error _ _ q hdec

end Sys2Proof.Machine
end

section
/-! SUPPORT. The requests `ENCODE` refuses and those it accepts, from the refusal in the rule's order, to the state it answers. -/

namespace Sys2Proof.Machine

/-- The packet types that may be sent are four codes (R103, R104). -/
theorem isPacketType_iff_mem (t : Byte) : isPacketType t = true ↔ t ∈ ([1, 2, 7, 8] : List Byte) := by
  simp [isPacketType, or_assoc]

/-- A payload within the limit of a type that is none of the four is refused for its type (R142). -/
theorem encodeRefusal_badType {p : Config.Params} {t : Byte} {pl : List Byte} (hl : pl.length ≤ p.maxPayload)
    (ht : t ∉ ([1, 2, 7, 8] : List Byte)) : encodeRefusal p t pl = some .badType := by
  rw [encodeRefusal_fits p t pl hl, if_neg (mt (isPacketType_iff_mem t).mp ht)]

/-- A payload within the limit of one of the four types is a valid request (R142). -/
theorem encodeRefusal_none {p : Config.Params} {t : Byte} {pl : List Byte} (hl : pl.length ≤ p.maxPayload)
    (ht : t ∈ ([1, 2, 7, 8] : List Byte)) : encodeRefusal p t pl = none := by
  rw [encodeRefusal_fits p t pl hl, if_pos ((isPacketType_iff_mem t).mpr ht)]

/-- `ENCODE` of an invalid request returns the reason and leaves the block as it is (R267). -/
theorem exec_encode_refused {s : State} {t : Byte} {pl : List Byte} {r : EncodeReason} (addr : Word32)
    (h : encodeRefusal s.params t pl = some r) :
    exec (.encode addr t pl) s = .next (s.finishOp s.block (.invalidRequest r)) := by
  rw [exec, execEncode, Block.encode_refused _ _ _ _ _ _ h, State.done]

/-- `ENCODE` of a valid request emits the frame and returns it (R141). -/
theorem exec_encode_valid {s : State} {t : Byte} {pl : List Byte} (addr : Word32)
    (h : encodeRefusal s.params t pl = none) :
    exec (.encode addr t pl) s = .next (s.finishOp (s.block.emit (encodeFrame s.params addr t pl))
      (.encoded (encodeFrame s.params addr t pl))) := by
  rw [exec, execEncode, Block.encode_valid _ _ _ _ _ h, State.done]

/-! ## The statement of 40_frame_codec.md -/

/-- Settles O8: the three clauses are the three values of the refusal, whose length check comes first; the codes are the
model's. -/
theorem invalidEncodeRequests : Obligations.InvalidEncodeRequests := by
  refine ⟨fun s addr t p => ⟨fun hlong => ?_, fun hfits ht => ?_, fun hfits ht => ?_⟩, rfl, rfl, rfl, rfl⟩
  · exact exec_encode_refused addr (encodeRefusal_long s.params t p hlong)
  · exact exec_encode_refused addr (encodeRefusal_badType hfits ht)
  · exact ⟨_, exec_encode_valid addr (encodeRefusal_none hfits ht), rfl⟩

end Sys2Proof.Machine
end

section
/-! SUPPORT. `DECODE` by its checks in the rule's order (R144), and what of the header its result code rests on. -/

namespace Sys2Proof.Machine

section Decode

variable {p : Config.Params} {bs bs' body : List Byte} {h h' : FrameHeader}

/-- A sequence whose header is read has 9 bytes before its body. -/
theorem parseHeader_length (hh : parseHeader bs = some (h, body)) : bs.length = 9 + body.length := by
  rw [parseHeader_eq_some bs body h hh]
  simp
  omega

/-- The first check of `DECODE`: a length field below 2 is malformed. -/
theorem decodeBytes_lengthBelowTwo (hh : parseHeader bs = some (h, body)) (h2 : h.length.toNat < 2) :
    decodeBytes p bs = .ok (recHeader .frameMalformed h) := by
  simp only [decodeBytes, hh, if_pos h2]

/-- The second check: a length the buffer cannot hold is too large. -/
theorem decodeBytes_tooLarge (hh : parseHeader bs = some (h, body)) (h2 : 2 ≤ h.length.toNat)
    (hc : p.rxCapacity < 9 + h.length.toNat) : decodeBytes p bs = .ok (recHeader .frameTooLarge h) := by
  simp only [decodeBytes, hh, if_neg (Nat.not_lt.mpr h2), if_pos hc]

/-- The third check: an accepted length that is not that of the body is malformed. -/
theorem decodeBytes_otherBodyLength (hh : parseHeader bs = some (h, body)) (h2 : 2 ≤ h.length.toNat)
    (hc : 9 + h.length.toNat ≤ p.rxCapacity) (hb : body.length ≠ h.length.toNat) :
    decodeBytes p bs = .ok (recHeader .frameMalformed h) := by
  have hs : bs.length ≠ 9 + h.length.toNat := by
    rw [parseHeader_length hh]
    omega
  simp only [decodeBytes, hh, if_neg (Nat.not_lt.mpr h2), if_neg (Nat.not_lt.mpr hc), if_pos hs]

/-- Past the checks the sequence is one frame, and `DECODE` returns its `rec_full`. -/
theorem decodeBytes_frame {pl : List Byte} {c : Half} (hh : parseHeader bs = some (h, pl ++ bytes16 c))
    (hl : h.length.toNat = pl.length + 2) (hc : 9 + h.length.toNat ≤ p.rxCapacity) :
    decodeBytes p bs = .ok (recFull p.csumLenMode h pl c) := by
  have hs : bs.length = 9 + h.length.toNat := by
    rw [parseHeader_length hh, hl, List.length_append, bytes16_length]
  simp only [decodeBytes, recFrame, hh, hs, parseBody_frame h pl c hl, if_neg (Nat.not_lt.mpr hc),
    if_neg (show ¬ h.length.toNat < 2 by omega), ne_eq, not_true_eq_false, if_false]

/-- Two sequences whose headers agree in type and length, and whose bodies are the same, decode to the same result code:
every check, and the checksum, reads the header in these two fields alone (R164). -/
theorem decodeBytes_sameResult (hh : parseHeader bs = some (h, body)) (hh' : parseHeader bs' = some (h', body))
    (ht : h.ptype = h'.ptype) (hl : h.length = h'.length) :
    ∃ r r', decodeBytes p bs = .ok r ∧ decodeBytes p bs' = .ok r' ∧ r.result = r'.result := by
  rcases Nat.lt_or_ge h.length.toNat 2 with h2 | h2
  · exact ⟨_, _, decodeBytes_lengthBelowTwo hh h2, decodeBytes_lengthBelowTwo hh' (hl ▸ h2), rfl⟩
  rcases Nat.lt_or_ge p.rxCapacity (9 + h.length.toNat) with hc | hc
  · exact ⟨_, _, decodeBytes_tooLarge hh h2 hc, decodeBytes_tooLarge hh' (hl ▸ h2) (hl ▸ hc), rfl⟩
  by_cases hb : body.length = h.length.toNat
  · obtain ⟨pl, c, hpb⟩ := parseBody_total h body h2 hb
    obtain ⟨rfl, hn⟩ := parseBody_eq_some h body pl c hpb
    refine ⟨_, _, decodeBytes_frame hh hn hc, decodeBytes_frame hh' (hl ▸ hn) (hl ▸ hc), ?_⟩
    simp only [recFull, ht, hl]
  · exact ⟨_, _, decodeBytes_otherBodyLength hh h2 hc hb,
      decodeBytes_otherBodyLength hh' (hl ▸ h2) (hl ▸ hc) (hl ▸ hb), rfl⟩

end Decode

/-- `DECODE` returns the record of its checks and writes nothing else (R144). -/
theorem exec_decode {s : State} {bs : List Byte} {r : Record} (h : decodeBytes s.params bs = .ok r) :
    exec (.decode bs) s = .next (s.finishOp s.block (.record r)) := by
  simp only [exec, execDecode, h, State.done]

/-- `VERIFY` compares the checksum of the type, the length and the payload, whatever the start code and the address (R163). -/
theorem exec_verify (s : State) (st : Half) (addr : Word32) (t : Byte) (len : Half) (pl : List Byte) (c : Half) :
    exec (.verify st addr t len pl c) s =
      .next (s.finishOp s.block (.verdict (decide (checksum s.params.csumLenMode t len pl = c)))) := rfl

/-- A start code, an address and three bytes or more are a header and a body; the type, the length and the body are those of
the bytes after the address. -/
theorem parseHeader_heading (st : Half) (addr : Word32) (t l1 l0 : Byte) (body : List Byte) :
    parseHeader (bytes16 st ++ bytes32 addr ++ t :: l1 :: l0 :: body) =
      some ({ startCode := st, address := addr, ptype := t, length := be16 l1 l0 }, body) := by
  simp [bytes16, bytes32, parseHeader]

/-! ## The statement of 41_checksum_validator.md on what is not summed -/

/-- Settles O12: the verdict is a function of the type, the length, the payload and the stored checksum, and the result code
of `DECODE` one of the type, the length and the body. -/
theorem startCodeAndAddressAreNotSummed : Obligations.StartCodeAndAddressAreNotSummed := by
  refine ⟨fun s st st' a a' t len pl c => ?_, fun s st st' a a' rest hr => ?_⟩
  · rw [exec_verify, exec_verify]
  · match rest, hr with
    | t :: l1 :: l0 :: body, _ =>
      obtain ⟨r, r', hd, hd', he⟩ := decodeBytes_sameResult (p := s.params)
        (parseHeader_heading st a t l1 l0 body) (parseHeader_heading st' a' t l1 l0 body) rfl rfl
      exact ⟨r, r', exec_decode hd, exec_decode hd', he⟩

end Sys2Proof.Machine
end

section
/-! SUPPORT. One received byte in each phase of a frame, as the exact state it leaves: the header's bytes, the three outcomes
of the ninth byte's length checks, the payload's bytes, and the byte that ends the frame. -/

namespace Sys2Proof.Machine

/-- `RX_BYTE` leaves the block its byte made and returns nothing (R181). -/
theorem exec_rxByte {s : State} {b : Byte} {k : Block} (h : s.block.rxByte s.params b = .ok k) :
    exec (.rxByte b) s = .next (s.finishOp k .nothing) :=
  (s.doneBlock_eq_next _ _).mpr ⟨k, h, rfl⟩

/-- Counting one byte more than `rx_count` adds one to the register. -/
theorem Block.countTo_succ (k : Block) (st : RxState) :
    k.countTo (k.rxCount.toNat + 1) st = { k with rxCount := k.rxCount + 1, rxState := st } := by
  have hinc : (BitVec.ofNat 16 (k.rxCount.toNat + 1) : Half) = k.rxCount + 1 := by
    apply BitVec.eq_of_toNat_eq
    simp
  rw [Block.countTo, hinc]

/-- A machine whose buffer reads as `f` up to the count has `f` in flight. -/
theorem State.holds_of_bufByte {s : State} {f : List Byte} (hl : f.length = s.block.rxCount.toNat)
    (hb : ∀ i, i < f.length → s.bufByte i = f[i]?) : s.block.Holds f :=
  ⟨hl.symm, hb⟩

section HeaderDone

variable {p : Config.Params} {h : FrameHeader}

/-- The first check of the ninth byte (R183, R265). -/
theorem Block.headerDone_malformed (k : Block) (h2 : h.length.toNat < 2) :
    k.headerDone p h = k.finish (recHeader .frameMalformed h) :=
  if_pos h2

/-- The second check of the ninth byte (R183, R264): the capacity admits a length of 2, so the first one has passed. -/
theorem Block.headerDone_tooLarge (k : Block) (hc : p.rxCapacity < 9 + h.length.toNat) :
    k.headerDone p h = k.finish (recHeader .frameTooLarge h) := by
  have hcap : p.rxCapacity = p.maxPayload + 11 := rfl
  rw [Block.headerDone, if_neg (by omega), if_pos hc]

/-- Past both checks the header is accepted (R183). -/
theorem Block.headerDone_accepted (k : Block) (h2 : 2 ≤ h.length.toNat) (hc : 9 + h.length.toNat ≤ p.rxCapacity) :
    k.headerDone p h = k.expect (9 + h.length.toNat) := by
  rw [Block.headerDone, if_neg (Nat.not_lt.mpr h2), if_neg (Nat.not_lt.mpr hc)]

end HeaderDone

/-- `rec_full` in terms of the payload's own length (R145). -/
theorem recFull_of_length {mode : CsumLenMode} {h : FrameHeader} {pl : List Byte} {c : Half}
    (hl : h.length.toNat = pl.length + 2) :
    recFull mode h pl c =
      { result := if checksum mode h.ptype h.length pl = c then .ok else .checksumMismatch,
        startCode := h.startCode, address := h.address, ptype := h.ptype, length := h.length,
        payloadLen := BitVec.ofNat 16 pl.length, payload := pl, rxChecksum := c,
        calcChecksum := checksum mode h.ptype h.length pl } := by
  rw [recFull, hl, Nat.add_sub_cancel]

/-- `rec_full` reports a match or a mismatch and nothing else (R145). -/
theorem recFull_result (mode : CsumLenMode) (h : FrameHeader) (pl : List Byte) (c : Half) :
    (recFull mode h pl c).result = .ok ∨ (recFull mode h pl c).result = .checksumMismatch :=
  ite_eq_or_eq _ _ _

/-- The byte that makes the count reach `rx_expected` completes one whole frame: the length that was accepted is the one in
the header of the bytes held (R183, R184). -/
theorem Block.Inv.wholeFrame_of_last {p : Config.Params} {k : Block} {f : List Byte} (hi : k.Inv p) (hf : k.Holds f)
    (h9 : 9 ≤ k.rxCount.toNat) (he : k.rxCount.toNat + 1 = k.rxExpected.toNat) (b : Byte) :
    ∃ h pl c, WholeFrame p (f ++ [b]) h pl c := by
  have hcount := hf.count
  have hcap : p.rxCapacity = p.maxPayload + 11 := rfl
  have hlen : (f ++ [b]).length = k.rxExpected.toNat := by simp [← hcount, he]
  obtain ⟨_, h11, hfits⟩ := hi.phase.payloadPhase h9
  obtain ⟨h, hh⟩ := parseHeader_total (f ++ [b]) (by omega)
  have hexp := hi.expected_of_prefix f [b] _ h hf (by omega) hh
  obtain ⟨pl, c, hbody⟩ := parseBody_total h ((f ++ [b]).drop 9) (by omega) (by rw [List.length_drop]; omega)
  obtain ⟨hsplit, hpl⟩ := parseBody_eq_some _ _ _ _ hbody
  refine ⟨h, pl, c, ?_, hpl, by omega⟩
  rw [List.append_assoc _ pl, ← hsplit]
  exact parseHeader_eq_some _ _ _ hh

/-! ## The statements of 42_reassembler.md -/

/-- Settles O16: the byte of the header phase, with the count in the register. -/
theorem rxByteHeaderPhase : Obligations.RxByteHeaderPhase := by
  intro s b hs h8
  have h := Block.rxByte_header s.params s.block b hs.block.phase.not_complete hs.block.phase.room h8
  exact exec_rxByte (by rw [h]; exact congrArg Except.ok ((s.block.stored b).countTo_succ _))

/-- Settles O17: the header is the one of the nine bytes, and the three clauses are the three outcomes of its length checks. -/
theorem ninthByteChecksTheLength : Obligations.NinthByteChecksTheLength := by
  intro s s1 s0 a3 a2 a1 a0 t l1 b hs h8 hb
  have hf : s.block.Holds [s1, s0, a3, a2, a1, a0, t, l1] := State.holds_of_bufByte (by simp [h8]) hb
  obtain ⟨h, hh, hrx⟩ := Block.rxByte_ninth s.params s.block b _ hs.block.phase.not_complete hs.block.phase.room hf rfl
  obtain rfl : _ = h := congrArg Prod.fst (Option.some.inj hh)
  have hstored : s.block.stored b = { s.block with rxBuf := Memory.insert s.block.rxBuf 8 b } := by
    rw [Block.stored, h8]
    rfl
  rw [hstored] at hrx
  refine ⟨fun h2 => ?_, fun hc => ?_, fun h2 hc => ?_⟩
  · exact exec_rxByte (by rw [hrx, Block.headerDone_malformed _ h2]; rfl)
  · exact exec_rxByte (by rw [hrx, Block.headerDone_tooLarge _ hc]; rfl)
  · exact exec_rxByte (by rw [hrx, Block.headerDone_accepted _ h2 hc]; rfl)

/-- Settles O18: a byte short of the expected length is counted; the one that reaches it completes a whole frame, whose
`rec_full` is latched. -/
theorem payloadBytesAndCompletion : Obligations.PayloadBytesAndCompletion := by
  intro s f b hs h9 hl hb
  have hf := State.holds_of_bufByte hl hb
  refine ⟨fun hlt => ?_, fun he => ?_⟩
  · have h := Block.rxByte_payload s.params s.block b hs.block.phase.not_complete hs.block.phase.room h9 hlt
    exact exec_rxByte (by rw [h]; exact congrArg Except.ok ((s.block.stored b).countTo_succ _))
  · obtain ⟨h, pl, c, hw⟩ := hs.block.wholeFrame_of_last hf h9 he b
    have hrx := hs.block.rxByte_ends f b h pl c hf hw
    rw [recFull_of_length hw.length] at hrx
    exact ⟨_, _, _, _, pl, c, hw.bytes, hw.length.symm, exec_rxByte hrx⟩

/-- Settles O21: the invariant, which every instruction keeps, excludes `Complete`; the byte that ends a frame latches its
`rec_full` and empties the buffer, so the next byte is the first of a fresh frame. -/
theorem completeIsTransient : Obligations.CompleteIsTransient := by
  refine ⟨fun i s t hs h => ?_, fun b c s t hs h9 he h => ?_⟩
  · obtain ⟨k, r, rfl, heff⟩ := exec_effect h
    exact (heff.inv hs.params hs.block).phase.not_complete
  · obtain ⟨k, hk, hinv⟩ := hs.block.rxByte hs.params b
    obtain rfl := Host.Outcome.next.inj ((exec_rxByte hk).symm.trans h)
    obtain ⟨f, hf⟩ := s.block.holds_of_written hs.block.buffer.written
    obtain ⟨hd, pl, cs, hw⟩ := hs.block.wholeFrame_of_last hf h9 he b
    have hends := hs.block.rxByte_ends f b hd pl cs hf hw
    obtain rfl := Except.ok.inj (hends.symm.trans hk)
    refine ⟨Block.finish_rxState _ _, Block.finish_rxCount _ _, Block.finish_done _ _, fun hfree => ?_, ?_⟩
    · rcases (s.block.stored b).finish_cases (recFull s.params.csumLenMode hd pl cs) with ⟨_, e⟩ | ⟨hfull, _⟩
      · rw [State.finishOp_block, e]
        exact recFull_result _ _ _ _
      · exact absurd (hfree.symm.trans hfull) Bool.false_ne_true
    · obtain ⟨u, hu, hcount, hbyte, hslot, _⟩ := hinv.rxByte_first (Block.finish_rxCount _ _) c
      exact ⟨_, exec_rxByte hu, hcount, hbyte, hslot⟩

end Sys2Proof.Machine
end

section
/-! SUPPORT. The decode of a search response, one equation per kind of status, and what its two fields read as. -/

namespace Sys2Proof.Machine

/-- On success the two big-endian fields after the status are kept and the bytes after them are not (R239). -/
@[simp] theorem decodeSearch_success (s1 s0 c1 c0 : Byte) (rest : List Byte) :
    decodeSearch (0x00 :: s1 :: s0 :: c1 :: c0 :: rest) =
      .ok { statusCode := 0x00, slotAndConfidence := some (be16 s1 s0, be16 c1 c0) } := rfl

/-- A status other than success is kept alone: the right side does not mention what follows it (R239). -/
theorem decodeSearch_otherStatus {st : Byte} (rest : List Byte) (h : st ≠ 0x00) :
    decodeSearch (st :: rest) = .ok { statusCode := st, slotAndConfidence := none } :=
  if_neg h

@[simp] theorem SearchResult.slot_some (st : Byte) (s c : Half) : SearchResult.slot ⟨st, some (s, c)⟩ = .ok s := rfl

@[simp] theorem SearchResult.confidence_some (st : Byte) (s c : Half) :
    SearchResult.confidence ⟨st, some (s, c)⟩ = .ok c := rfl

@[simp] theorem SearchResult.slot_none (st : Byte) : SearchResult.slot ⟨st, none⟩ = .error .notMeaningful := rfl

@[simp] theorem SearchResult.confidence_none (st : Byte) :
    SearchResult.confidence ⟨st, none⟩ = .error .notMeaningful := rfl

/-! ## The statement of 43_command_catalog.md on the search response -/

/-- Settles O43: the status decides which of the two results is decoded, and each result fixes what its fields read as. -/
theorem searchResultDecode : Obligations.SearchResultDecode := by
  refine ⟨fun s1 s0 c1 c0 rest => ?_, fun st rest hst => ?_⟩
  · exact ⟨_, decodeSearch_success s1 s0 c1 c0 rest, rfl, SearchResult.slot_some .., SearchResult.confidence_some ..⟩
  · exact ⟨_, decodeSearch_otherStatus rest hst, decodeSearch_otherStatus [] hst, rfl, SearchResult.slot_none st,
      SearchResult.confidence_none st⟩

end Sys2Proof.Machine
end

section
/-! SUPPORT. Who issues an item: the machine with its agents left out, the instructions that run alike in it, and the turn whose
outcome is the item's alone. -/

namespace Sys2Proof.Machine

/-! ### The machine without its agents -/

/-- The machine with nothing pending and no turn to come: what is left are the parameters, the block and the return. -/
def State.withoutAgents (s : State) : State :=
  { s with agents := { transport := [], host := [], tickSource := [], turns := [] } }

/-- An outcome with the agents left out of the state it answers. -/
def dropAgents : Host.Outcome State Fault Refusal → Host.Outcome State Fault Refusal
  | .next t => .next t.withoutAgents
  | .fault f => .fault f
  | .refused r => .refused r

/-- Machines that are equal without their agents have the same block, return and parameters. -/
theorem State.same_of_withoutAgents_eq {s t : State} (h : s.withoutAgents = t.withoutAgents) :
    s.block = t.block ∧ s.ret = t.ret ∧ s.params = t.params := by
  simp only [State.withoutAgents, State.mk.injEq] at h
  obtain ⟨hparams, hblock, _, hret⟩ := h
  exact ⟨hblock, hret, hparams⟩

section Outcome

variable {o o' : Host.Outcome State Fault Refusal} (h : dropAgents o = dropAgents o')
include h

/-- Of two outcomes that are equal without the agents, both answer a state or neither does. -/
theorem dropAgents_next {t : State} (ho : o = .next t) :
    ∃ u, o' = .next u ∧ u.block = t.block ∧ u.ret = t.ret ∧ u.params = t.params := by
  subst ho
  cases o' with
  | next u => exact ⟨u, rfl, State.same_of_withoutAgents_eq (Host.Outcome.next.inj h).symm⟩
  | fault | refused => cases h

/-- Of two outcomes that are equal without the agents, both fault alike or neither does. -/
theorem dropAgents_fault {f : Fault} (ho : o = .fault f) : o' = .fault f := by
  subst ho
  cases o' with
  | fault g => exact h.symm
  | next | refused => cases h

/-- Of two outcomes that are equal without the agents, both are refused alike or neither is. -/
theorem dropAgents_refused {r : Refusal} (ho : o = .refused r) : o' = .refused r := by
  subst ho
  cases o' with
  | refused q => exact h.symm
  | next | fault => cases h

end Outcome

/-! ### No instruction reads the agents -/

theorem State.doneOrFault_dropAgents (s : State) (e : Except Fault (Block × Ret)) :
    dropAgents (s.doneOrFault e) = s.withoutAgents.doneOrFault e := by
  cases e <;> rfl

theorem State.doneBlock_dropAgents (s : State) (e : Except Fault Block) :
    dropAgents (s.doneBlock e) = s.withoutAgents.doneBlock e := by
  cases e <;> rfl

/-- An instruction runs without the agents as it does with them. -/
theorem exec_dropAgents (i : Instr) (s : State) : dropAgents (exec i s) = exec i s.withoutAgents := by
  cases i with
  | decode bs =>
    simp only [exec, execDecode, State.withoutAgents]
    cases decodeBytes s.params bs <;> rfl
  | readReg index =>
    simp only [exec, execReadReg, State.withoutAgents]
    rcases s.block.register s.params index.toNat with _ | _ | _ <;> rfl
  | take => exact s.doneOrFault_dropAgents _
  | rxByte | frameCommand | frameData | frameAck | frameEndOfData => exact s.doneBlock_dropAgents _
  | encode | checksum | verify | arm | tick | reset | getImage | extractFeatures | search | mergeFeatures | storeTemplate
  | loadTemplate | deleteTemplate | emptyLibrary | readParameters | setPassword | verifyPassword | enumerateTemplateCount
  | ledControl50 | ledControl51 => rfl

/-! ### A turn by its first item -/

/-- What a turn comes to in `s`, whatever it leaves pending. -/
def Turn.outcome (s : State) : Turn → Host.Outcome State Fault Refusal
  | .pass _ => .next s
  | .run i _ => exec i s
  | .refuse r => .refused r

/-- A turn's outcome is fixed by the agent's first item: what is pending behind it is not looked at. -/
theorem nextOperation_outcome (p : Config.Params) (done : Bool) (it : Item) (q q' : List Item) (s : State) :
    (nextOperation p done (it :: q)).outcome s = (nextOperation p done (it :: q')).outcome s := by
  cases it with
  | wait => cases done <;> rfl
  | cycle c next =>
    cases next with
    | arm | send => rfl
    | take => cases done <;> rfl
  | issue w =>
    cases w with
    | records bs =>
      cases bs with
      | nil => rfl
      | cons b bs =>
        simp only [nextOperation]
        cases decodeRecord (b :: bs) <;> rfl
    | burst bs =>
      cases bs with
      | nil => rfl
      | cons b bs =>
        simp only [nextOperation]
        cases decodeFrame (b :: bs) <;> rfl
    | command addr payload =>
      simp only [nextOperation]
      cases decodeCommand addr payload <;> rfl

/-- The step of the agent that is given an item and the turn is that turn's outcome. -/
theorem step_withTurn (s : State) (a : Agent) (it : Item) :
    dropAgents (step (s.withTurn a it)) =
      (nextOperation s.params s.block.done (it :: s.agents.queue a)).outcome s.withoutAgents := by
  simp only [step, State.withTurn, State.afterTurn_turns, State.afterTurn_params, State.afterTurn_block,
    State.afterTurn_queue_same]
  cases nextOperation s.params s.block.done (it :: s.agents.queue a) with
  | pass q => rfl
  | run i q => exact exec_dropAgents i _
  | refuse r => rfl

/-! ## The statements of 60_exceptions.md -/

/-- Settles O20: an untaken result stays through a received byte, which sets `OVERRUN` where it ends the frame in flight; and
no effect but those of `ARM` and `RESET` clears `OVERRUN`. -/
theorem overrunKeepsTheOlderResult : Obligations.OverrunKeepsTheOlderResult := by
  obtain ⟨hends, _⟩ := whoWritesOverrun
  refine ⟨fun s t b hs hd h hend => ?_, fun i s t hs h => ?_⟩
  · obtain ⟨k, r, rfl, he⟩ := exec_effect h
    obtain ⟨hslot, hdone⟩ := he.untaken_stays hs.params hs.block hd (by simp) (by simp) (by simp)
    exact ⟨hslot, hdone, (hends b s _ hs h).mpr (.inr ⟨hd, hend⟩)⟩
  · obtain ⟨k, r, rfl, he⟩ := exec_effect h
    exact he.overrun_cleared hs.params hs.block

/-- Settles O58: without the agents, the step is the outcome of the item alone, whichever agent issues it. -/
theorem anyAgentMayIssue : Obligations.AnyAgentMayIssue := by
  intro s a b it
  have h : dropAgents (step (s.withTurn a it)) = dropAgents (step (s.withTurn b it)) := by
    rw [step_withTurn, step_withTurn, nextOperation_outcome]
  exact ⟨fun _ => dropAgents_next h, fun _ => dropAgents_fault h, fun _ => dropAgents_refused h⟩

end Sys2Proof.Machine
end

section
/-! SUPPORT. What `RESET` leaves of the block, against the block at power-on. -/

namespace Sys2Proof.Machine

/-- `RESET` is the block at power-on but for the two elements it does not write: the buffer's bytes and `tx_stream` (R300). -/
theorem Block.resetOp_eq_powerOn (k : Block) :
    k.resetOp = { Block.reset with rxBuf := k.rxBuf, txStream := k.txStream } := rfl

/-- `RESET` is done at every state, and returns nothing (R300). -/
theorem exec_reset (s : State) : exec .reset s = .next (s.finishOp s.block.resetOp .nothing) := rfl

/-! ## The statements of 70_reset_and_hazards.md -/

/-- Settles O31: what `RESET` leaves differs from power-on in the buffer and `tx_stream` alone, and the statement sets both
to their values at power-on. -/
theorem powerOnIsReset : Obligations.PowerOnIsReset := by
  refine ⟨rfl, fun s => ⟨_, exec_reset s, ?_⟩⟩
  rw [State.finishOp_block, Block.resetOp_eq_powerOn]
  rfl

end Sys2Proof.Machine
end

section
/-! SUPPORT. Records, frames and catalog payloads against their decoders: what each decoder reads from an encoding, and of what
encoding a decoder's reading is. -/

namespace Sys2Proof

open Sys2Proof.Machine

/-! ### Counted bytes -/

/-- What is taken and what is left are the bytes, and what is taken has the length asked for. -/
theorem takeBytes_eq_some {n : Nat} {bs p rest : List Byte} (h : takeBytes n bs = some (p, rest)) :
    bs = p ++ rest ∧ p.length = n := by
  unfold takeBytes at h
  split at h
  · next hn =>
    obtain ⟨rfl, rfl⟩ := Prod.mk.inj (Option.some.inj h)
    exact ⟨(List.take_append_drop n bs).symm, List.length_take_of_le hn⟩
  · cases h

/-- Counted bytes are taken back from where their count was written (R115). -/
theorem takeBytes_count {p : List Byte} (hp : countFits p = true) (rest : List Byte) :
    takeBytes (BitVec.ofNat 16 p.length : Half).toNat (p ++ rest) = some (p, rest) := by
  rw [count_toNat _ (of_decide_eq_true hp)]
  simp [takeBytes]

/-- Bytes taken by a 16-bit count are counted bytes, and their count fits. -/
theorem countedBytes_of_takeBytes {n1 n0 : Byte} {bs p rest : List Byte}
    (h : takeBytes (be16 n1 n0).toNat bs = some (p, rest)) :
    n1 :: n0 :: bs = countedBytes p ++ rest ∧ countFits p = true := by
  obtain ⟨rfl, hl⟩ := takeBytes_eq_some h
  have hlt := (be16 n1 n0).isLt
  refine ⟨?_, decide_eq_true (by omega)⟩
  rw [countedBytes, hl, BitVec.ofNat_toNat, BitVec.setWidth_eq, bytes16_be16]
  rfl

/-! ### A record and the bytes after it (R111) -/

/-- A record that is read and the bytes left are the bytes it was read from, and its instruction has an encoding. -/
def RecordOf (bs : List Byte) (i : Instr) (rest : List Byte) : Prop :=
  ∃ r, encode i = .records r ∧ bs = r ++ rest ∧ WellFormed i

/-- A record that ends in counted bytes. -/
theorem recordOf_counted {lead bs p rest rest' : List Byte} {n1 n0 : Byte} {i i' : Instr}
    (he : encode i = .records (lead ++ countedBytes p)) (hwf : countFits p = true → WellFormed i)
    (hp : takeBytes (be16 n1 n0).toNat bs = some (p, rest))
    (h : (.ok (i, rest) : Except DecodeError _) = .ok (i', rest')) : RecordOf (lead ++ n1 :: n0 :: bs) i' rest' := by
  obtain ⟨rfl, rfl⟩ := Prod.mk.inj (Except.ok.inj h)
  obtain ⟨e, hcount⟩ := countedBytes_of_takeBytes hp
  exact ⟨_, he, by rw [e, List.append_assoc], hwf hcount⟩

theorem recordOf_encode {bs rest : List Byte} {i : Instr} (h : decodeEncodeOperands bs = .ok (i, rest)) :
    RecordOf (0x01 :: bs) i rest := by
  unfold decodeEncodeOperands at h
  split at h
  · split at h
    · next hp => exact recordOf_counted (lead := [0x01, _, _, _, _, _]) (by simp [encode]) id hp h
    · cases h
  · cases h

theorem recordOf_decode {bs rest : List Byte} {i : Instr} (h : decodeDecodeOperands bs = .ok (i, rest)) :
    RecordOf (0x02 :: bs) i rest := by
  unfold decodeDecodeOperands at h
  split at h
  · split at h
    · next hp => exact recordOf_counted (lead := [0x02]) (by simp [encode]) id hp h
    · cases h
  · cases h

theorem recordOf_checksum {bs rest : List Byte} {i : Instr} (h : decodeChecksumOperands bs = .ok (i, rest)) :
    RecordOf (0x03 :: bs) i rest := by
  unfold decodeChecksumOperands at h
  split at h
  · split at h
    · next hp => exact recordOf_counted (lead := [0x03, _, _, _]) (by simp [encode]) id hp h
    · cases h
  · cases h

theorem recordOf_verify {bs rest : List Byte} {i : Instr} (h : decodeVerifyOperands bs = .ok (i, rest)) :
    RecordOf (0x04 :: bs) i rest := by
  unfold decodeVerifyOperands at h
  split at h
  · split at h
    · next hp =>
      obtain ⟨rfl, rfl⟩ := Prod.mk.inj (Except.ok.inj h)
      obtain ⟨e, hwf⟩ := countedBytes_of_takeBytes hp
      exact ⟨_, rfl, by simp [e], hwf⟩
    · cases h
  · cases h

theorem recordOf_rxByte {bs rest : List Byte} {i : Instr} (h : decodeRxByteOperands bs = .ok (i, rest)) :
    RecordOf (0x10 :: bs) i rest := by
  unfold decodeRxByteOperands at h
  split at h
  · obtain ⟨rfl, rfl⟩ := Prod.mk.inj (Except.ok.inj h)
    exact ⟨_, rfl, rfl, rfl⟩
  · cases h

theorem recordOf_arm {bs rest : List Byte} {i : Instr} (h : decodeArmOperands bs = .ok (i, rest)) :
    RecordOf (0x11 :: bs) i rest := by
  unfold decodeArmOperands at h
  split at h
  · obtain ⟨rfl, rfl⟩ := Prod.mk.inj (Except.ok.inj h)
    exact ⟨_, rfl, by simp, rfl⟩
  · cases h

theorem recordOf_readReg {bs rest : List Byte} {i : Instr} (h : decodeReadRegOperands bs = .ok (i, rest)) :
    RecordOf (0x14 :: bs) i rest := by
  unfold decodeReadRegOperands at h
  split at h
  · obtain ⟨rfl, rfl⟩ := Prod.mk.inj (Except.ok.inj h)
    exact ⟨_, rfl, rfl, rfl⟩
  · cases h

/-- The three records that are a selector alone. -/
theorem recordOf_selector {sel : Byte} {i i' : Instr} {bs rest : List Byte} (he : encode i = .records [sel])
    (hwf : WellFormed i) (h : (.ok (i, bs) : Except DecodeError _) = .ok (i', rest)) : RecordOf (sel :: bs) i' rest := by
  obtain ⟨rfl, rfl⟩ := Prod.mk.inj (Except.ok.inj h)
  exact ⟨_, he, rfl, hwf⟩

/-- Every selector of R110 reads the record of its own encoding. -/
theorem recordOf_decodeOperands {sel : Byte} {bs rest : List Byte} {i : Instr}
    (h : decodeOperands sel bs = .ok (i, rest)) : RecordOf (sel :: bs) i rest := by
  unfold decodeOperands at h
  split_ifs at h with hencode hdecode hchecksum hverify hrx harm htick htake hreg hreset
  · exact hencode ▸ recordOf_encode h
  · exact hdecode ▸ recordOf_decode h
  · exact hchecksum ▸ recordOf_checksum h
  · exact hverify ▸ recordOf_verify h
  · exact hrx ▸ recordOf_rxByte h
  · exact harm ▸ recordOf_arm h
  · exact htick ▸ recordOf_selector rfl rfl h
  · exact htake ▸ recordOf_selector rfl rfl h
  · exact hreg ▸ recordOf_readReg h
  · exact hreset ▸ recordOf_selector rfl rfl h

/-! ### Whole frames (R100, R103) -/

/-- The frame of one of the four types decodes to its row. -/
theorem decodeFrame_frameBytes {p : List Byte} (hp : frameFits p = true) (s : Half) (a : Word32) (t : Byte) (c : Half) :
    decodeFrame (frameBytes s a t p c) =
      frameInstr { startCode := s, address := a, ptype := t, length := lengthField p } p c := by
  have hl := lengthField_toNat p (of_decide_eq_true hp)
  simp only [decodeFrame, parseHeader_frameBytes]
  rw [parseBody_frame { startCode := s, address := a, ptype := t, length := lengthField p } p c hl]

/-- A row that is read from a frame's fields is encoded by the bytes of that frame. -/
theorem encode_of_frameInstr {h : FrameHeader} {p : List Byte} {c : Half} {i : Instr} (hp : frameFits p = true)
    (hi : frameInstr h p c = .ok i) :
    encode i = .burst (frameBytes h.startCode h.address h.ptype p c) ∧ WellFormed i := by
  unfold frameInstr at hi
  split_ifs at hi with hcommand hdata hack hend <;> obtain rfl := Except.ok.inj hi
  · exact ⟨by rw [hcommand]; rfl, hp⟩
  · exact ⟨by rw [hdata]; rfl, hp⟩
  · exact ⟨by rw [hack]; rfl, hp⟩
  · exact ⟨by rw [hend]; rfl, hp⟩

/-- A burst that decodes is the encoding of its row. -/
theorem encode_of_decodeFrame {bs : List Byte} {i : Instr} (hd : decodeFrame bs = .ok i) :
    encode i = .burst bs ∧ WellFormed i := by
  unfold decodeFrame at hd
  split at hd
  · cases hd
  · next h body hh =>
    split at hd
    · cases hd
    · next p c hb =>
      obtain ⟨rfl, hl⟩ := parseBody_eq_some h body p c hb
      have hlt := h.length.isLt
      have hfield : lengthField p = h.length := by
        rw [lengthField, ← hl, BitVec.ofNat_toNat, BitVec.setWidth_eq]
      obtain ⟨he, hwf⟩ := encode_of_frameInstr (decide_eq_true (by omega)) hd
      refine ⟨?_, hwf⟩
      rw [he, frameBytes, hfield, parseHeader_eq_some bs _ h hh, List.append_assoc]

/-! ### Catalog payloads (R223 to R236) -/

/-- An instruction is encoded by a payload for an address. -/
def CommandOf (addr : Word32) (payload : List Byte) (i : Instr) : Prop :=
  encode i = .command addr payload ∧ WellFormed i

theorem commandOf_noArgs {addr : Word32} {op : Byte} {i : Instr} (h : commandNoArgs addr op = .ok i) :
    CommandOf addr [op] i := by
  unfold commandNoArgs at h
  split_ifs at h with hop hop hop hop hop hop hop <;> obtain rfl := Except.ok.inj h <;> rw [hop] <;> exact ⟨rfl, rfl⟩

theorem commandOf_slot {addr : Word32} {op s : Byte} {i : Instr} (h : commandSlot addr op s = .ok i) :
    CommandOf addr [op, s] i := by
  unfold commandSlot at h
  split_ifs at h with hop
  obtain rfl := Except.ok.inj h
  rw [hop]
  exact ⟨rfl, rfl⟩

theorem commandOf_slotPage {addr : Word32} {op s p1 p0 : Byte} {i : Instr}
    (h : commandSlotPage addr op s p1 p0 = .ok i) : CommandOf addr [op, s, p1, p0] i := by
  unfold commandSlotPage at h
  split_ifs at h with hop hop <;> obtain rfl := Except.ok.inj h <;> rw [hop]
  · exact ⟨by simp [encode, storeTemplatePayload], rfl⟩
  · exact ⟨by simp [encode, loadTemplatePayload], rfl⟩

theorem commandOf_four {addr : Word32} {op a b c d : Byte} {i : Instr} (h : commandFour addr op a b c d = .ok i) :
    CommandOf addr [op, a, b, c, d] i := by
  unfold commandFour at h
  split_ifs at h with hop hop hop <;> obtain rfl := Except.ok.inj h <;> rw [hop]
  · exact ⟨by simp [encode, deleteTemplatePayload], rfl⟩
  · exact ⟨by simp [encode, setPasswordPayload], rfl⟩
  · exact ⟨by simp [encode, verifyPasswordPayload], rfl⟩

theorem commandOf_search {addr : Word32} {op s a1 a0 n1 n0 : Byte} {i : Instr}
    (h : commandSearch addr op s a1 a0 n1 n0 = .ok i) : CommandOf addr [op, s, a1, a0, n1, n0] i := by
  unfold commandSearch at h
  split_ifs at h with hop
  obtain rfl := Except.ok.inj h
  rw [hop]
  exact ⟨by simp [encode, searchPayload], rfl⟩

/-- A payload that decodes is the encoding of its row: the argument layouts are told apart by their number of bytes. -/
theorem commandOf_decodeCommand {addr : Word32} {payload : List Byte} {i : Instr}
    (h : decodeCommand addr payload = .ok i) : CommandOf addr payload i := by
  unfold decodeCommand at h
  split at h
  · cases h
  · split at h
    · cases h
    · split at h
      · exact commandOf_noArgs h
      · exact commandOf_slot h
      · exact commandOf_slotPage h
      · exact commandOf_four h
      · exact commandOf_search h
      · cases h

/-! ### Encodings are read back -/

/-- The record of an instruction is read back from the front of a listing, whatever follows it (R111). -/
theorem decodeRecord_encode {i : Instr} {r : List Byte} (hi : WellFormed i) (he : encode i = .records r)
    (rest : List Byte) : decodeRecord (r ++ rest) = .ok (i, rest) := by
  cases i with
  | encode addr t p =>
    obtain rfl := Issue.records.inj he
    simp only [countedBytes, bytes16, bytes32, List.cons_append, List.nil_append, decodeRecord, decodeOperands, if_true,
      decodeEncodeOperands, be16_bytes16, be32_bytes32, takeBytes_count hi]
  | decode bs =>
    obtain rfl := Issue.records.inj he
    simp only [countedBytes, bytes16, List.cons_append, List.nil_append]
    rw [decodeRecord, decodeOperands, if_neg (by decide), if_pos rfl]
    simp only [decodeDecodeOperands, be16_bytes16, takeBytes_count hi]
  | checksum t len p =>
    obtain rfl := Issue.records.inj he
    simp only [countedBytes, bytes16, List.cons_append, List.nil_append]
    rw [decodeRecord, decodeOperands, if_neg (by decide), if_neg (by decide), if_pos rfl]
    simp only [decodeChecksumOperands, be16_bytes16, takeBytes_count hi]
  | verify s addr t len p c =>
    obtain rfl := Issue.records.inj he
    simp only [countedBytes, bytes16, bytes32, List.cons_append, List.nil_append, List.append_assoc]
    rw [decodeRecord, decodeOperands, if_neg (by decide), if_neg (by decide), if_neg (by decide), if_pos rfl]
    simp only [decodeVerifyOperands, be16_bytes16, be32_bytes32, takeBytes_count hi]
  | rxByte | tick | take | readReg | reset =>
    obtain rfl := Issue.records.inj he
    rfl
  | arm limit =>
    obtain rfl := Issue.records.inj he
    exact congrArg (fun v => Except.ok (Instr.arm v, rest)) (be32_bytes32 limit)
  | _ => cases he

/-- One record and nothing after it. -/
theorem decodeIssue_records {bs : List Byte} {i : Instr} :
    decodeIssue (.records bs) = .ok i ↔ decodeRecord bs = .ok (i, []) := by
  simp only [decodeIssue]
  rcases decodeRecord bs with e | ⟨j, _ | ⟨b, rest⟩⟩ <;> simp

/-- The payload of a CMD row is read back, its fields assembled from their bytes (R223 to R236). -/
theorem decodeCommand_encode {i : Instr} {addr : Word32} {payload : List Byte} (he : encode i = .command addr payload) :
    decodeCommand addr payload = .ok i := by
  cases i with
  | getImage | extractFeatures | mergeFeatures | emptyLibrary | readParameters | enumerateTemplateCount | ledControl50
  | ledControl51 =>
    obtain ⟨rfl, rfl⟩ := Issue.command.inj he
    rfl
  | search | storeTemplate | loadTemplate | deleteTemplate =>
    obtain ⟨rfl, rfl⟩ := Issue.command.inj he
    show Except.ok _ = _
    simp only [be16_bytes16]
  | setPassword | verifyPassword =>
    obtain ⟨rfl, rfl⟩ := Issue.command.inj he
    show Except.ok _ = _
    rw [be32_bytes32]
  | _ => cases he

/-- The bytes of a FRAME row are read back: the type byte picks the row (R103). -/
theorem decodeFrame_encode {i : Instr} {bs : List Byte} (hi : WellFormed i) (he : encode i = .burst bs) :
    decodeFrame bs = .ok i := by
  cases i with
  | frameCommand s a p c =>
    obtain rfl := Issue.burst.inj he
    exact decodeFrame_frameBytes hi s a 1 c
  | frameData s a p c =>
    obtain rfl := Issue.burst.inj he
    exact decodeFrame_frameBytes hi s a 2 c
  | frameAck s a p c =>
    obtain rfl := Issue.burst.inj he
    exact decodeFrame_frameBytes hi s a 7 c
  | frameEndOfData s a p c =>
    obtain rfl := Issue.burst.inj he
    exact decodeFrame_frameBytes hi s a 8 c
  | _ => cases he

/-! ## The statements of 30_encoding.md on the decoder -/

/-- Settles O4: the encoding has one of the three forms, and the decoder of each form reads its rows back. -/
theorem decodeOfEncodeIsIdentity : Obligations.DecodeOfEncodeIsIdentity := by
  intro i hi
  cases he : encode i with
  | records r =>
    have h := decodeRecord_encode hi he []
    rw [List.append_nil] at h
    exact decodeIssue_records.mpr h
  | burst bs => exact decodeFrame_encode hi he
  | command addr payload => exact decodeCommand_encode he

/-- Settles O5: whichever form is issued, what its decoder reads is encoded by the bytes read, with nothing left over. -/
theorem encodeOfDecodeIsIdentity : Obligations.EncodeOfDecodeIsIdentity := by
  intro w i h
  cases w with
  | records bs =>
    have hr := decodeIssue_records.mp h
    rcases bs with _ | ⟨sel, bs⟩
    · cases hr
    · obtain ⟨r, he, hbs, hwf⟩ := recordOf_decodeOperands hr
      rw [List.append_nil] at hbs
      exact ⟨hbs ▸ he, hwf⟩
  | burst bs =>
    have hf : decodeFrame bs = .ok i := h
    exact encode_of_decodeFrame hf
  | command addr payload =>
    have hc : decodeCommand addr payload = .ok i := h
    exact commandOf_decodeCommand hc

/-- Settles O6: the decoder computes on the bytes written out. -/
theorem specWordsDecode : Obligations.SpecWordsDecode := by
  refine ⟨?_, ?_, ?_, ?_, ?_, ?_⟩ <;> rfl

end Sys2Proof
end

section
/-! SUPPORT. One turn of the machine: what each kind of pending item comes to, and that a turn keeps the invariant and does not
fault. -/

namespace Sys2Proof.Machine

/-! ### What a turn runs -/

section Turn

variable {s : State} {a : Agent} {ts : List Agent} {q : List Item} {i : Instr}

/-- The step of a turn that runs an instruction. -/
theorem step_run (ht : s.agents.turns = a :: ts)
    (h : nextOperation s.params s.block.done (s.agents.queue a) = .run i q) :
    step s = exec i (s.afterTurn a q ts) := by
  simp only [step, ht, h]

/-- The step of a turn that passes. -/
theorem step_pass (ht : s.agents.turns = a :: ts)
    (h : nextOperation s.params s.block.done (s.agents.queue a) = .pass q) : step s = .next (s.afterTurn a q ts) := by
  simp only [step, ht, h]

end Turn

section NextOperation

variable (p : Config.Params) (done : Bool) (q : List Item)

/-- A listing runs its first record, and the rest of it stays pending (R111). -/
theorem nextOperation_records {bs rest : List Byte} {i : Instr} (h : decodeRecord bs = .ok (i, rest)) :
    nextOperation p done (.issue (.records bs) :: q) = .run i (recordsThen rest q) := by
  cases bs with
  | nil => cases h
  | cons b bs => simp only [nextOperation, h]

/-- A burst that is a whole frame of a listed type runs its FRAME row. -/
theorem nextOperation_burst {bs : List Byte} {i : Instr} (h : decodeFrame bs = .ok i) :
    nextOperation p done (.issue (.burst bs) :: q) = .run i q := by
  cases bs with
  | nil => cases h
  | cons b bs => simp only [nextOperation, h]

/-- A payload of a listed layout runs its CMD row. -/
theorem nextOperation_command {addr : Word32} {payload : List Byte} {i : Instr}
    (h : decodeCommand addr payload = .ok i) : nextOperation p done (.issue (.command addr payload) :: q) = .run i q := by
  simp only [nextOperation, h]

/-- An item that decodes runs its instruction and is used up, in whichever form it is issued. -/
theorem nextOperation_issue {w : Issue} {i : Instr} (h : decodeIssue w = .ok i) :
    nextOperation p done (.issue w :: q) = .run i q := by
  cases w with
  | records bs => exact nextOperation_records p done q (decodeIssue_records.mp h)
  | burst bs => exact nextOperation_burst p done q h
  | command addr payload => exact nextOperation_command p done q h

/-- A burst that is no whole frame of a listed type is received by its first byte (log 8). -/
theorem nextOperation_unlistedBurst {b : Byte} {bs : List Byte} {e : DecodeError} (h : decodeFrame (b :: bs) = .error e) :
    nextOperation p done (.issue (.burst (b :: bs)) :: q) = .run (.rxByte b) (burstThen bs q) := by
  simp only [nextOperation, h]

/-- A payload of no listed layout is sent as it is (log 8). -/
theorem nextOperation_unlistedCommand {addr : Word32} {payload : List Byte} {e : DecodeError}
    (h : decodeCommand addr payload = .error e) :
    nextOperation p done (.issue (.command addr payload) :: q) = .run (.encode addr 0x01 payload) q := by
  simp only [nextOperation, h]

/-- A cycle whose request is valid goes on to wait after it is sent (R241). -/
theorem nextOperation_send_valid {c : CommandRequest} (h : encodeRefusal p 0x01 c.payload = none) :
    nextOperation p done (.cycle c .send :: q) = .run (.encode c.addr 0x01 c.payload) (.cycle c .take :: q) := by
  simp only [nextOperation, h, Option.isSome_none, Bool.false_eq_true, if_false]

/-- A cycle whose request is invalid is over (R241, log 18). -/
theorem nextOperation_send_refused {c : CommandRequest} {r : EncodeReason}
    (h : encodeRefusal p 0x01 c.payload = some r) :
    nextOperation p done (.cycle c .send :: q) = .run (.encode c.addr 0x01 c.payload) q := by
  simp only [nextOperation, h, Option.isSome_some, if_true]

end NextOperation

/-! ### The invariant and faults, instruction by instruction -/

/-- A turn used up leaves what the invariant speaks of. -/
theorem State.Inv.afterTurn {s : State} (hs : s.Inv) (a : Agent) (q : List Item) (ts : List Agent) :
    (s.afterTurn a q ts).Inv :=
  ⟨hs.params, hs.block⟩

/-- Every instruction keeps the machine's invariant. -/
theorem State.Inv.of_exec {i : Instr} {s t : State} (hs : s.Inv) (h : exec i s = .next t) : t.Inv := by
  obtain ⟨k, r, rfl, he⟩ := exec_effect h
  exact ⟨hs.params, he.inv hs.params hs.block⟩

/-- `DECODE` gives a record of every byte sequence (R144). -/
theorem decodeBytes_total (p : Config.Params) (bs : List Byte) : ∃ r, decodeBytes p bs = .ok r := by
  cases hh : parseHeader bs with
  | none => exact ⟨recEmpty .frameMalformed, by simp only [decodeBytes, hh]⟩
  | some hb =>
    obtain ⟨r, _, hr, _⟩ := decodeBytes_sameResult (p := p) hh hh rfl rfl
    exact ⟨r, hr⟩

/-- No register of a block that meets the invariant reads as a fault. -/
theorem Block.Inv.register_ne_error {p : Config.Params} {k : Block} (hk : k.Inv p) (n : Nat) (f : Fault) :
    k.register p n ≠ some (.error f) := by
  unfold Block.register
  split <;> simp [hk.phase.not_complete, hk.slot.legalCode]

/-- An operation that answers a state does not fault. -/
theorem noFault_of_next {o : Host.Outcome State Fault Refusal} {t : State} (h : o = .next t) : NoFault o := by
  rintro f rfl
  cases h

/-- A wire frame delivered answers a state (R195). -/
theorem State.Inv.deliverFrame_answers {s : State} (hs : s.Inv) (st : Half) (addr : Word32) (t : Byte) (pl : List Byte)
    (c : Half) : ∃ u, s.deliverFrame st addr t pl c = .next u := by
  obtain ⟨k, hk, _⟩ := Block.Inv.rxBytes hs.params (frameBytes st addr t pl c) hs.block
  exact ⟨_, (s.doneBlock_eq_next _ _).mpr ⟨k, hk, rfl⟩⟩

/-- No instruction faults in a state that meets the invariant. -/
theorem State.Inv.exec_noFault {s : State} (hs : s.Inv) (i : Instr) : NoFault (exec i s) := by
  cases i with
  | decode bs =>
    obtain ⟨r, hr⟩ := decodeBytes_total s.params bs
    exact noFault_of_next (exec_decode hr)
  | rxByte b =>
    obtain ⟨k, hk, _⟩ := hs.block.rxByte hs.params b
    exact noFault_of_next (exec_rxByte hk)
  | take => exact noFault_of_next ((s.doneOrFault_eq_next _ _).mpr ⟨_, Block.take_eq hs.block.slot, rfl⟩)
  | readReg index =>
    intro f
    simp only [exec, execReadReg]
    split
    · simp
    · simp [State.done]
    · next h => exact absurd h (hs.block.register_ne_error _ _)
  | frameCommand st a pl c =>
    obtain ⟨u, hu⟩ := hs.deliverFrame_answers st a 1 pl c
    exact noFault_of_next hu
  | frameData st a pl c =>
    obtain ⟨u, hu⟩ := hs.deliverFrame_answers st a 2 pl c
    exact noFault_of_next hu
  | frameAck st a pl c =>
    obtain ⟨u, hu⟩ := hs.deliverFrame_answers st a 7 pl c
    exact noFault_of_next hu
  | frameEndOfData st a pl c =>
    obtain ⟨u, hu⟩ := hs.deliverFrame_answers st a 8 pl c
    exact noFault_of_next hu
  | _ => exact noFault_of_next rfl

/-! ## The statements on every step -/

/-- Settles O54: a step is nothing, a turn that passes, or an instruction after a turn, and each keeps the invariant. -/
theorem everyStepKeepsTheInvariant : Obligations.EveryStepKeepsTheInvariant := by
  intro s t hs h
  rcases step_cases s t h with ⟨_, rfl⟩ | ⟨a, ts, q, _, ⟨_, rfl⟩ | ⟨i, _, hi⟩⟩
  · exact hs
  · exact hs.afterTurn a q ts
  · exact (hs.afterTurn a q ts).of_exec hi

/-- Settles O55: a turn passes, is refused, or runs an instruction, and no instruction faults. -/
theorem noStepFaults : Obligations.NoStepFaults := by
  intro s hs
  unfold step
  split
  · exact noFault_of_next rfl
  · split
    · exact noFault_of_next rfl
    · exact (hs.afterTurn _ _ _).exec_noFault _
    · simp [NoFault]

/-- Settles O56: the clauses are parts of the invariant, which the step keeps, read through the count's phase. -/
theorem handoffInvariantsAfterEveryStep : Obligations.HandoffInvariantsAfterEveryStep := by
  intro s t hs h
  obtain ⟨_, hk⟩ := everyStepKeepsTheInvariant s t hs h
  have hstate := hk.phase.stateOfCount
  refine ⟨hk.watchdog.waitingMeansEmpty, hk.slot.emptyIff, hstate, fun hne => ?_, fun heq => ?_⟩
  · refine hk.phase.headerPhase (Nat.le_of_lt_succ (Nat.lt_of_not_le fun h9 => hne ?_))
    rw [hstate, RxState.ofCount_payload h9]
  · have h9 : 9 ≤ t.block.rxCount.toNat := by
      by_contra hlt
      rw [hstate, RxState.ofCount] at heq
      split at heq
      · cases heq
      · rw [if_pos (by omega)] at heq
        cases heq
    obtain ⟨hlt, h11, hcap⟩ := hk.phase.payloadPhase h9
    exact ⟨h11, hcap, h9, hlt⟩

/-- Settles O53: at power-on the buffer, the slot and the watchdog are empty. -/
theorem powerOnMeetsTheInvariant : Obligations.PowerOnMeetsTheInvariant where
  params := by decide
  block := Block.inv_of_empty _ _ ⟨List.Pairwise.nil, by simp [State.reset, Block.reset], by simp [State.reset, Block.reset]⟩
    rfl rfl rfl rfl rfl rfl

/-- Settles O52: an instruction writes the block and the return alone, so a step changes the agents by its turn alone. -/
theorem stepKeepsParametersAndOtherAgents : Obligations.StepKeepsParametersAndOtherAgents := by
  intro s t h
  rcases step_cases s t h with ⟨ht, rfl⟩ | ⟨a, ts, q, ht, hturn⟩
  · exact ⟨rfl, fun a ts ht' => by simp [ht] at ht', fun _ => rfl⟩
  · have hsame : t.params = s.params ∧ t.agents = (s.afterTurn a q ts).agents := by
      rcases hturn with ⟨_, rfl⟩ | ⟨i, _, hi⟩
      · exact ⟨rfl, rfl⟩
      · obtain ⟨k, r, rfl, _⟩ := exec_effect hi
        exact ⟨rfl, rfl⟩
    obtain ⟨hparams, hagents⟩ := hsame
    refine ⟨hparams, fun a' ts' ht' => ?_, fun hnil => by simp [ht] at hnil⟩
    obtain ⟨rfl, rfl⟩ := List.cons.inj (ht.symm.trans ht')
    rw [hagents]
    exact ⟨rfl, fun b hb => s.afterTurn_queue_other a b q ts hb⟩

/-! ## The statements on a turn -/

/-- Settles O1: what the decoder reads of the first item is what the turn runs. -/
theorem stepRunsTheIssuedInstruction : Obligations.StepRunsTheIssuedInstruction := by
  refine ⟨fun s a ts w q i ht hq h => ?_, fun s a ts bs rest q i ht hq h hne => ?_, fun s a ts q => ?_⟩
  · exact step_run ht (hq ▸ nextOperation_issue _ _ q h)
  · obtain ⟨b, rest, rfl⟩ := List.exists_cons_of_ne_nil hne
    exact step_run ht (hq ▸ nextOperation_records _ _ q h)
  · exact ⟨rfl, rfl, rfl, rfl, s.afterTurn_queue_same a q ts, fun b => s.afterTurn_queue_other a b q ts⟩

/-- Settles O2: what the decoder rejects of a burst or of a payload has its form run instead. -/
theorem unlistedBurstsAndCommandsRun : Obligations.UnlistedBurstsAndCommandsRun := by
  refine ⟨fun s a ts b bs q e ht hq h => ?_, fun s a ts addr p q e ht hq h => ?_⟩
  · exact step_run ht (hq ▸ nextOperation_unlistedBurst _ _ q h)
  · exact step_run ht (hq ▸ nextOperation_unlistedCommand _ _ q h)

/-- Settles O38: a held item passes while `DONE = 0` and takes at `DONE = 1`; a cycle runs the operation it has come to, and its
`ENCODE` is refused by its length alone, the type being that of a Command. -/
theorem waitHoldsUntilDone : Obligations.WaitHoldsUntilDone := by
  intro s a ts q ht
  refine ⟨fun hq => ⟨fun hd => step_pass ht ?_, fun hd => step_run ht ?_⟩, fun c hq => step_run ht (by rw [hq]; rfl),
    fun c hq => ⟨fun hfits => ?_, fun hlong => ?_⟩, fun c hq => ⟨fun hd => step_pass ht ?_, fun hd => step_run ht ?_⟩⟩
  · rw [hq, hd]; rfl
  · rw [hq, hd]; rfl
  · exact step_run ht (hq ▸ nextOperation_send_valid _ _ q (encodeRefusal_none hfits (by decide)))
  · have hr := encodeRefusal_long s.params 0x01 c.payload hlong
    refine ⟨_, (step_run ht (hq ▸ nextOperation_send_refused _ _ q hr)).trans (exec_encode_refused c.addr hr), rfl, ?_, rfl⟩
    exact s.afterTurn_queue_same a q ts
  · rw [hq, hd]; rfl
  · rw [hq, hd]; rfl

end Sys2Proof.Machine
end

section
/-! SUPPORT. What a received byte writes, at every block; and what no operation reads: the transmitted bytes, and the bytes of
the buffer at and above `rx_count`. -/

namespace Sys2Proof.Machine

/-! ### The latch by the slot it finds -/

/-- The latch into a free slot delivers (R262). -/
theorem Block.finish_free {k : Block} {r : Record} (hd : k.done = false) : k.finish r = k.emptyBuffer.deliver r :=
  if_neg (by simp [hd])

/-- The latch into a full slot drops and marks (R262, R268). -/
theorem Block.finish_full {k : Block} {r : Record} (hd : k.done = true) : k.finish r = k.emptyBuffer.markOverrun :=
  if_pos hd

/-! ### What a received byte writes, whatever the block -/

section Received

variable {p : Config.Params} {k k' : Block}

/-- Everything the header's checks can do. -/
theorem Block.headerDone_cases (p : Config.Params) (k : Block) (h : FrameHeader) :
    (∃ n, k.headerDone p h = k.expect n) ∨ ∃ r, k.headerDone p h = k.finish r := by
  unfold Block.headerDone
  split_ifs
  · exact .inr ⟨_, rfl⟩
  · exact .inr ⟨_, rfl⟩
  · exact .inl ⟨_, rfl⟩

/-- Everything a stored byte can do: it is counted, or as the ninth byte it ends an accepted header, or it ends the frame in
flight. -/
theorem Block.byteStored_cases {c : Nat} (h : k.byteStored p c = .ok k') :
    (∃ st, k' = k.countTo c st) ∨ (c = 9 ∧ ∃ n, k' = k.expect n) ∨ ∃ r, k' = k.finish r := by
  unfold Block.byteStored at h
  split_ifs at h with h8 h9 hlt
  · exact .inl ⟨_, (Except.ok.inj h).symm⟩
  · unfold Block.readHeader at h
    split at h
    · cases h
    · split at h
      · cases h
      · next hd _ _ =>
        obtain rfl := Except.ok.inj h
        rcases k.headerDone_cases p hd with ⟨n, e⟩ | ⟨r, e⟩
        · exact .inr (.inl ⟨h9, n, e⟩)
        · exact .inr (.inr ⟨r, e⟩)
  · exact .inl ⟨_, (Except.ok.inj h).symm⟩
  · unfold Block.readFrame at h
    split at h
    · cases h
    · split at h
      · cases h
      · exact .inr (.inr ⟨_, (Except.ok.inj h).symm⟩)

/-- A byte that is received has been stored. -/
theorem Block.rxByte_ok {b : Byte} (h : k.rxByte p b = .ok k') :
    (k.stored b).byteStored p (k.rxCount.toNat + 1) = .ok k' := by
  unfold Block.rxByte at h
  split at h
  · cases h
  · split at h
    · cases h
    · next m hm =>
      obtain ⟨_, rfl⟩ := (memWrite_eq_ok _ _ _ _ _).mp hm
      exact h

/-- A received byte writes the buffer at `rx_count` alone (R34). -/
theorem Block.rxByte_rxBuf {b : Byte} (h : k.rxByte p b = .ok k') :
    k'.rxBuf = Memory.insert k.rxBuf k.rxCount.toNat b := by
  rcases Block.byteStored_cases (Block.rxByte_ok h) with ⟨st, rfl⟩ | ⟨_, n, rfl⟩ | ⟨r, rfl⟩
  · rfl
  · rfl
  · rw [Block.finish_rxBuf]
    rfl

/-- A received byte sends nothing. -/
theorem Block.rxByte_txStream {b : Byte} (h : k.rxByte p b = .ok k') : k'.txStream = k.txStream := by
  rcases Block.byteStored_cases (Block.rxByte_ok h) with ⟨st, rfl⟩ | ⟨_, n, rfl⟩ | ⟨r, rfl⟩
  · rfl
  · rfl
  · rw [Block.finish_txStream]
    rfl

/-- A received byte moves the count on by one at most. -/
theorem Block.rxByte_count_le {b : Byte} (h : k.rxByte p b = .ok k') : k'.rxCount.toNat ≤ k.rxCount.toNat + 1 := by
  rcases Block.byteStored_cases (Block.rxByte_ok h) with ⟨st, rfl⟩ | ⟨h9, n, rfl⟩ | ⟨r, rfl⟩
  · rw [Block.countTo_rxCount, BitVec.toNat_ofNat]
    exact Nat.mod_le _ _
  · exact h9.ge
  · simp

/-- Bytes received send nothing. -/
theorem Block.rxBytes_txStream (bs : List Byte) : ∀ {k k' : Block}, k.rxBytes p bs = .ok k' →
    k'.txStream = k.txStream := by
  induction bs with
  | nil =>
    intro k k' h
    cases h
    rfl
  | cons b bs ih =>
    intro k k' h
    rw [Block.rxBytes] at h
    split at h
    · cases h
    · next k1 h1 => exact (ih h).trans (Block.rxByte_txStream h1)

/-- Bytes received leave the buffer as it was from where as many bytes as they are would end. -/
theorem Block.rxBytes_lookup_above (bs : List Byte) : ∀ {k k' : Block} {j : Nat}, k.rxBytes p bs = .ok k' →
    k.rxCount.toNat + bs.length ≤ j → Memory.lookup k'.rxBuf j = Memory.lookup k.rxBuf j := by
  induction bs with
  | nil =>
    intro k k' j h _
    cases h
    rfl
  | cons b bs ih =>
    intro k k' j h hj
    rw [List.length_cons] at hj
    rw [Block.rxBytes] at h
    split at h
    · cases h
    · next k1 h1 =>
      have hle := Block.rxByte_count_le h1
      rw [ih h (by omega), Block.rxByte_rxBuf h1, Memory.lookup_insert_other _ _ _ _ (by omega)]

end Received

/-! ### The transmitted bytes are not read by receiving (D20) -/

/-- The block with other transmitted bytes. -/
def Block.withTx (k : Block) (tx : List Byte) : Block := { k with txStream := tx }

section WithTx

variable (p : Config.Params) (k : Block) (tx : List Byte)

theorem Block.finish_withTx (r : Record) : (k.withTx tx).finish r = (k.finish r).withTx tx := by
  cases hd : k.done with
  | false =>
    rw [Block.finish_free hd]
    exact Block.finish_free hd
  | true =>
    rw [Block.finish_full hd]
    exact Block.finish_full hd

theorem Block.headerDone_withTx (h : FrameHeader) : (k.withTx tx).headerDone p h = (k.headerDone p h).withTx tx := by
  unfold Block.headerDone
  split_ifs
  · exact k.finish_withTx tx _
  · exact k.finish_withTx tx _
  · rfl

theorem Block.readHeader_withTx : (k.withTx tx).readHeader p = (k.readHeader p).map (·.withTx tx) := by
  unfold Block.readHeader
  rw [show (k.withTx tx).rxBuf = k.rxBuf from rfl]
  split
  · rfl
  · split
    · rfl
    · exact congrArg Except.ok (k.headerDone_withTx p tx _)

theorem Block.readFrame_withTx (c : Nat) : (k.withTx tx).readFrame p c = (k.readFrame p c).map (·.withTx tx) := by
  unfold Block.readFrame
  rw [show (k.withTx tx).rxBuf = k.rxBuf from rfl, show (k.withTx tx).rxExpected = k.rxExpected from rfl]
  split
  · rfl
  · split
    · rfl
    · exact congrArg Except.ok (k.finish_withTx tx _)

theorem Block.byteStored_withTx (c : Nat) : (k.withTx tx).byteStored p c = (k.byteStored p c).map (·.withTx tx) := by
  unfold Block.byteStored
  rw [show (k.withTx tx).rxExpected = k.rxExpected from rfl]
  split_ifs
  · rfl
  · exact k.readHeader_withTx p tx
  · rfl
  · exact k.readFrame_withTx p tx c

theorem Block.rxByte_withTx (b : Byte) : (k.withTx tx).rxByte p b = (k.rxByte p b).map (·.withTx tx) := by
  unfold Block.rxByte
  rw [show (k.withTx tx).rxState = k.rxState from rfl, show (k.withTx tx).rxBuf = k.rxBuf from rfl,
    show (k.withTx tx).rxCount = k.rxCount from rfl]
  split_ifs
  · rfl
  · split
    · rfl
    · exact (k.withBuf _).byteStored_withTx p tx _

end WithTx

/-- Bytes received with other transmitted bytes are received alike. -/
theorem Block.rxBytes_withTx (p : Config.Params) (tx : List Byte) (bs : List Byte) : ∀ {k k' : Block},
    k.rxBytes p bs = .ok k' → (k.withTx tx).rxBytes p bs = .ok (k'.withTx tx) := by
  induction bs with
  | nil =>
    intro k k' h
    cases h
    rfl
  | cons b bs ih =>
    intro k k' h
    rw [Block.rxBytes] at h ⊢
    rw [k.rxByte_withTx p tx b]
    split at h
    · cases h
    · next k1 h1 =>
      rw [h1]
      exact ih h

/-! ### The stale bytes of the buffer are not read by receiving (R34, U1) -/

/-- Blocks that differ in stale bytes alone are one block with two buffers. -/
theorem Block.SameButStale.eq_withBuf {k k' : Block} (h : k.SameButStale k') : k' = k.withBuf k'.rxBuf :=
  (congrArg (·.withBuf k'.rxBuf) h.1).symm

/-- A block with another buffer that agrees with its own below `rx_count`. -/
theorem Block.sameButStale_withBuf {k : Block} {m : List Host.Cell}
    (h : ∀ j, j < k.rxCount.toNat → Memory.lookup k.rxBuf j = Memory.lookup m j) : k.SameButStale (k.withBuf m) :=
  ⟨rfl, h⟩

/-- Blocks that differ in stale bytes alone hold the same frame in flight. -/
theorem Block.SameButStale.holds {k k' : Block} {f : List Byte} (h : k.SameButStale k') (hf : k.Holds f) :
    k'.Holds f := by
  obtain ⟨_, hbelow⟩ := id h
  rw [h.eq_withBuf]
  exact ⟨hf.count, fun i hi => (hbelow i (hf.count ▸ hi)).symm.trans (hf.bytes i hi)⟩

theorem Block.finish_withBuf (k : Block) (m : List Host.Cell) (r : Record) :
    (k.withBuf m).finish r = (k.finish r).withBuf m := by
  cases hd : k.done with
  | false =>
    rw [Block.finish_free hd]
    exact Block.finish_free hd
  | true =>
    rw [Block.finish_full hd]
    exact Block.finish_full hd

theorem Block.headerDone_withBuf (p : Config.Params) (k : Block) (m : List Host.Cell) (h : FrameHeader) :
    (k.withBuf m).headerDone p h = (k.headerDone p h).withBuf m := by
  unfold Block.headerDone
  split_ifs
  · exact k.finish_withBuf m _
  · exact k.finish_withBuf m _
  · rfl

/-- A byte received with another buffer that holds the same frame in flight does the same, and is stored in that buffer. -/
theorem Block.Inv.rxByte_withBuf {p : Config.Params} {k k1 : Block} {m : List Host.Cell} {f : List Byte} {b : Byte}
    (hk : k.Inv p) (hk' : (k.withBuf m).Inv p) (hf : k.Holds f) (hf' : (k.withBuf m).Holds f)
    (h : k.rxByte p b = .ok k1) :
    (k.withBuf m).rxByte p b = .ok (k1.withBuf (Memory.insert m k.rxCount.toNat b)) := by
  have hs := hk.phase.not_complete
  have hroom := hk.phase.room
  have hcount := hf.count
  rcases lt_trichotomy k.rxCount.toNat 8 with h8 | h8 | h8
  · obtain rfl := Except.ok.inj ((Block.rxByte_header p k b hs hroom h8).symm.trans h)
    exact Block.rxByte_header p (k.withBuf m) b hs hroom h8
  · obtain ⟨hd, hh, e⟩ := Block.rxByte_ninth p k b f hs hroom hf (by omega)
    obtain ⟨hd', hh', e'⟩ := Block.rxByte_ninth p (k.withBuf m) b f hs hroom hf' (by omega)
    obtain rfl : hd = hd' := congrArg Prod.fst (Option.some.inj (hh.symm.trans hh'))
    obtain rfl := Except.ok.inj (e.symm.trans h)
    rw [e']
    exact congrArg Except.ok ((k.stored b).headerDone_withBuf p _ hd)
  · obtain ⟨hlt, _, _⟩ := hk.phase.payloadPhase h8
    rcases Nat.lt_or_ge (k.rxCount.toNat + 1) k.rxExpected.toNat with hmore | hlast
    · obtain rfl := Except.ok.inj ((Block.rxByte_payload p k b hs hroom h8 hmore).symm.trans h)
      exact Block.rxByte_payload p (k.withBuf m) b hs hroom h8 hmore
    · obtain ⟨hd, pl, c, hw⟩ := hk.wholeFrame_of_last hf h8 (Nat.le_antisymm hlt hlast) b
      obtain rfl := Except.ok.inj ((hk.rxByte_ends f b hd pl c hf hw).symm.trans h)
      rw [hk'.rxByte_ends f b hd pl c hf' hw]
      exact congrArg Except.ok ((k.stored b).finish_withBuf _ _)

/-- A received byte keeps two blocks different in stale bytes alone. -/
theorem Block.SameButStale.rxByte {p : Config.Params} {k k' k1 : Block} {b : Byte} (h : k.SameButStale k')
    (hk : k.Inv p) (hk' : k'.Inv p) (hb : k.rxByte p b = .ok k1) :
    ∃ k1', k'.rxByte p b = .ok k1' ∧ k1.SameButStale k1' := by
  obtain ⟨f, hf⟩ := k.holds_of_written hk.buffer.written
  have hf' := h.holds hf
  obtain ⟨_, hbelow⟩ := id h
  rw [h.eq_withBuf] at hk' hf' ⊢
  refine ⟨_, hk.rxByte_withBuf hk' hf hf' hb, Block.sameButStale_withBuf fun j hj => ?_⟩
  have hle := Block.rxByte_count_le hb
  rw [Block.rxByte_rxBuf hb]
  by_cases hjc : j = k.rxCount.toNat
  · subst hjc
    rw [Memory.lookup_insert_same, Memory.lookup_insert_same]
  · rw [Memory.lookup_insert_other _ _ _ _ hjc, Memory.lookup_insert_other _ _ _ _ hjc, hbelow j (by omega)]

/-- Bytes received keep two blocks different in stale bytes alone. -/
theorem Block.SameButStale.rxBytes {p : Config.Params} (hp : p.wf) (bs : List Byte) : ∀ {k k' k1 : Block},
    k.SameButStale k' → k.Inv p → k'.Inv p → k.rxBytes p bs = .ok k1 →
    ∃ k1', k'.rxBytes p bs = .ok k1' ∧ k1.SameButStale k1' := by
  induction bs with
  | nil =>
    intro k k' k1 h _ _ hb
    cases hb
    exact ⟨k', rfl, h⟩
  | cons b bs ih =>
    intro k k' k1 h hk hk' hb
    obtain ⟨k2, h2, i2⟩ := hk.rxByte hp b
    obtain ⟨k2', h2', i2'⟩ := hk'.rxByte hp b
    obtain ⟨_, e, hsame⟩ := h.rxByte hk hk' h2
    obtain rfl := Except.ok.inj (h2'.symm.trans e)
    simp only [Block.rxBytes, h2, h2'] at hb ⊢
    exact ih hsame i2 i2' hb

/-! ### Rows that do not receive read neither -/

/-- The machine with another buffer and other transmitted bytes. -/
def State.withUnread (s : State) (m : List Host.Cell) (tx : List Byte) : State :=
  { s with block := (s.block.withBuf m).withTx tx }

/-- Machines that differ in stale bytes alone are one machine with two buffers. -/
theorem State.SameButStale.eq_withUnread {s s' : State} (h : s.SameButStale s') :
    s' = s.withUnread s'.block.rxBuf s.block.txStream := by
  obtain ⟨hparams, hagents, hret, hblock⟩ := h
  have hk := hblock.eq_withBuf
  obtain ⟨params, block, agents, ret⟩ := s
  obtain ⟨params', block', agents', ret'⟩ := s'
  subst hparams hagents hret
  exact congrArg (State.mk params · agents ret) hk

/-- `ENCODE` reads neither, and appends the same bytes. -/
theorem Block.encode_withUnread (p : Config.Params) (k : Block) (addr : Word32) (t : Byte) (pl : List Byte) :
    ∃ bs, (k.encode p addr t pl).1.txStream = k.txStream ++ bs ∧ ∀ m tx,
      ((k.withBuf m).withTx tx).encode p addr t pl =
        (((k.encode p addr t pl).1.withBuf m).withTx (tx ++ bs), (k.encode p addr t pl).2) := by
  cases hr : encodeRefusal p t pl with
  | none =>
    refine ⟨encodeFrame p addr t pl, by rw [Block.encode_valid _ _ _ _ _ hr]; rfl, fun m tx => ?_⟩
    rw [Block.encode_valid _ _ _ _ _ hr, Block.encode_valid _ _ _ _ _ hr]
    rfl
  | some r =>
    refine ⟨[], by rw [Block.encode_refused _ _ _ _ _ _ hr, List.append_nil], fun m tx => ?_⟩
    rw [Block.encode_refused _ _ _ _ _ _ hr, Block.encode_refused _ _ _ _ _ _ hr, List.append_nil]

/-- A tick short of the limit is counted (R190). -/
theorem Block.tick_counts {k : Block} (hw : k.waiting = true) (hl : k.wdtCount.toNat + 1 < k.wdtLimit.toNat) :
    k.tick = k.countTick (k.wdtCount.toNat + 1) := by
  simp only [Block.tick, hw, if_true, if_neg (Nat.not_le.mpr hl)]

/-- The tick that reaches the limit latches the timeout (R190). -/
theorem Block.tick_expires {k : Block} (hw : k.waiting = true) (hl : k.wdtLimit.toNat ≤ k.wdtCount.toNat + 1) :
    k.tick = (k.countTick (k.wdtCount.toNat + 1)).finish (recEmpty .framingTimeout) := by
  simp only [Block.tick, hw, if_true, if_pos hl]

/-- `TICK` reads neither. -/
theorem Block.tick_withUnread (k : Block) (m : List Host.Cell) (tx : List Byte) :
    ((k.withBuf m).withTx tx).tick = (k.tick.withBuf m).withTx tx := by
  rcases k.tick_cases with ⟨hw, e⟩ | ⟨hw, hl, e⟩ | ⟨hw, hl, e⟩ <;> rw [e]
  · exact Block.tick_idle hw
  · exact Block.tick_counts hw hl
  · rw [← Block.finish_withBuf, ← Block.finish_withTx]
    exact Block.tick_expires hw hl

/-- `TAKE` reads neither. -/
theorem Block.take_withUnread {k k' : Block} {r : Ret} (m : List Host.Cell) (tx : List Byte) (h : k.take = .ok (k', r)) :
    ((k.withBuf m).withTx tx).take = .ok ((k'.withBuf m).withTx tx, r) := by
  unfold Block.take at h ⊢
  rw [show ((k.withBuf m).withTx tx).done = k.done from rfl, show ((k.withBuf m).withTx tx).slot = k.slot from rfl]
  split at h <;> rename_i hd
  · rw [if_pos hd]
    split at h
    · obtain ⟨rfl, rfl⟩ := Prod.mk.inj (Except.ok.inj h)
      rfl
    · cases h
  · obtain ⟨rfl, rfl⟩ := Prod.mk.inj (Except.ok.inj h)
    rw [if_neg hd]

/-- The register view shows neither. -/
theorem Block.register_withUnread (p : Config.Params) (k : Block) (m : List Host.Cell) (tx : List Byte) (n : Nat) :
    ((k.withBuf m).withTx tx).register p n = k.register p n := rfl

/-- From `s` an instruction answers `t`, and with another buffer and other transmitted bytes it answers the same but for
those: the buffer it was given, and the transmitted bytes with the same bytes appended. -/
def ReadsNeither (i : Instr) (s t : State) : Prop :=
  ∃ bs, t.block.txStream = s.block.txStream ++ bs ∧
    ∀ m tx, exec i (s.withUnread m tx) = .next (t.withUnread m (tx ++ bs))

/-- An instruction that sends nothing reads neither where it runs alike. -/
theorem readsNeither_of_silent {i : Instr} {s t : State} (htx : t.block.txStream = s.block.txStream)
    (h : ∀ m tx, exec i (s.withUnread m tx) = .next (t.withUnread m tx)) : ReadsNeither i s t :=
  ⟨[], by rw [htx, List.append_nil], fun m tx => by rw [h m tx, List.append_nil]⟩

/-- An instruction that is an `ENCODE` reads neither. -/
theorem readsNeither_of_encode {i : Instr} {s t : State} (addr : Word32) (ty : Byte) (pl : List Byte)
    (hi : ∀ s : State, exec i s = s.done (s.block.encode s.params addr ty pl)) (h : exec i s = .next t) :
    ReadsNeither i s t := by
  obtain rfl := (s.done_eq_next t _).mp ((hi s).symm.trans h)
  obtain ⟨bs, htx, he⟩ := Block.encode_withUnread s.params s.block addr ty pl
  refine ⟨bs, htx, fun m tx => ?_⟩
  rw [hi, show (s.withUnread m tx).block = (s.block.withBuf m).withTx tx from rfl,
    show (s.withUnread m tx).params = s.params from rfl, he]
  rfl

/-- No row but those that receive reads the buffer's bytes, and no such row reads the transmitted bytes. -/
theorem exec_readsNeither {i : Instr} {s t : State} (hi : i.receives = false) (h : exec i s = .next t) :
    ReadsNeither i s t := by
  cases i with
  | encode addr ty pl => exact readsNeither_of_encode addr ty pl (fun _ => rfl) h
  | decode bs =>
    obtain ⟨r, hr⟩ := decodeBytes_total s.params bs
    obtain rfl := Host.Outcome.next.inj ((exec_decode hr).symm.trans h)
    exact readsNeither_of_silent rfl fun m tx => exec_decode hr
  | take =>
    obtain ⟨⟨k, r⟩, hk, rfl⟩ := (s.doneOrFault_eq_next t _).mp h
    refine readsNeither_of_silent ?_ fun m tx =>
      (State.doneOrFault_eq_next _ _ _).mpr ⟨_, Block.take_withUnread m tx hk, rfl⟩
    rcases Block.take_ok_cases hk with ⟨_, rfl⟩ | ⟨_, rfl⟩ <;> rfl
  | readReg index =>
    simp only [exec, execReadReg] at h
    split at h
    · cases h
    · next v hv =>
      obtain rfl := Host.Outcome.next.inj h
      exact readsNeither_of_silent rfl fun m tx =>
        exec_readReg_word ((Block.register_withUnread s.params s.block m tx _).trans hv)
    · cases h
  | tick =>
    obtain rfl := Host.Outcome.next.inj h
    refine readsNeither_of_silent ?_ fun m tx => ?_
    · rcases s.block.tick_cases with ⟨_, e⟩ | ⟨_, _, e⟩ | ⟨_, _, e⟩ <;> simp [e]
    · exact congrArg (fun k => Host.Outcome.next ((s.withUnread m tx).finishOp k .nothing))
        (s.block.tick_withUnread m tx)
  | checksum | verify | arm | reset =>
    obtain rfl := Host.Outcome.next.inj h
    exact readsNeither_of_silent rfl fun m tx => rfl
  | rxByte | frameCommand | frameData | frameAck | frameEndOfData => cases hi
  | getImage | extractFeatures | search | mergeFeatures | storeTemplate | loadTemplate | deleteTemplate | emptyLibrary
  | readParameters | setPassword | verifyPassword | enumerateTemplateCount | ledControl50 | ledControl51 =>
    exact readsNeither_of_encode _ 0x01 _ (fun _ => rfl) h

/-- What a row that receives does: its bytes are received (R193). -/
theorem exec_receives {i : Instr} (hi : i.receives = true) :
    ∃ bs, bs ≠ [] ∧ ∀ s : State, exec i s = s.doneBlock (s.block.rxBytes s.params bs) := by
  cases i with
  | rxByte b =>
    refine ⟨[b], List.cons_ne_nil _ _, fun s => ?_⟩
    rw [Block.rxBytes_singleton]
    rfl
  | frameCommand st a p c => exact ⟨frameBytes st a 1 p c, List.cons_ne_nil _ _, fun _ => rfl⟩
  | frameData st a p c => exact ⟨frameBytes st a 2 p c, List.cons_ne_nil _ _, fun _ => rfl⟩
  | frameAck st a p c => exact ⟨frameBytes st a 7 p c, List.cons_ne_nil _ _, fun _ => rfl⟩
  | frameEndOfData st a p c => exact ⟨frameBytes st a 8 p c, List.cons_ne_nil _ _, fun _ => rfl⟩
  | _ => cases hi

/-! ### Who writes the buffer and the count -/

/-- A row that does not receive leaves the buffer's bytes. -/
theorem Block.Effect.rxBuf {p : Config.Params} {k k' : Block} {i : Instr} {r : Ret} (h : k.Effect p i k' r)
    (hi : i.receives = false) : k'.rxBuf = k.rxBuf := by
  cases h with
  | receive hi' _ => simp [hi'] at hi
  | arm | reset | read => rfl
  | tick => rcases k.tick_cases with ⟨_, e⟩ | ⟨_, _, e⟩ | ⟨_, _, e⟩ <;> simp [e]
  | take h => rcases Block.take_ok_cases h with ⟨_, rfl⟩ | ⟨_, rfl⟩ <;> rfl
  | send _ addr ty pl =>
    rcases Block.encode_block p k addr ty pl with e | e <;> rw [e]
    rfl

/-- A row that does not receive leaves the count as it was, or empties the buffer. -/
theorem Block.Effect.rxCount_le {p : Config.Params} {k k' : Block} {i : Instr} {r : Ret} (h : k.Effect p i k' r)
    (hi : i.receives = false) : k'.rxCount.toNat ≤ k.rxCount.toNat := by
  cases h with
  | receive hi' _ => simp [hi'] at hi
  | arm | reset => exact Nat.zero_le _
  | read => exact le_rfl
  | tick => rcases k.tick_cases with ⟨_, e⟩ | ⟨_, _, e⟩ | ⟨_, _, e⟩ <;> simp [e]
  | take h => rcases Block.take_ok_cases h with ⟨_, rfl⟩ | ⟨_, rfl⟩ <;> exact le_rfl
  | send _ addr ty pl =>
    rcases Block.encode_block p k addr ty pl with e | e <;> rw [e]
    rfl

/-- Where no byte is received, nothing is armed or reset and no tick expires, the reassembler stands where it did. -/
theorem Block.Effect.reassembler {p : Config.Params} {k k' : Block} {i : Instr} {r : Ret} (h : k.Effect p i k' r)
    (hi : i.receives = false) (ha : ∀ limit, i ≠ .arm limit) (hr : i ≠ .reset)
    (ht : i = .tick → k.waiting = false ∨ k.wdtCount.toNat + 1 < k.wdtLimit.toNat) :
    k'.rxCount = k.rxCount ∧ k'.rxExpected = k.rxExpected ∧ k'.rxState = k.rxState := by
  cases h with
  | receive hi' _ => simp [hi'] at hi
  | arm limit => exact absurd rfl (ha limit)
  | reset => exact absurd rfl hr
  | read => exact ⟨rfl, rfl, rfl⟩
  | tick =>
    rcases k.tick_cases with ⟨_, e⟩ | ⟨_, _, e⟩ | ⟨hw, hl, _⟩
    · rw [e]
      exact ⟨rfl, rfl, rfl⟩
    · rw [e]
      exact ⟨rfl, rfl, rfl⟩
    · rcases ht rfl with hw' | hl'
      · simp [hw] at hw'
      · exact absurd hl (Nat.not_le.mpr hl')
  | take h => rcases Block.take_ok_cases h with ⟨_, rfl⟩ | ⟨_, rfl⟩ <;> exact ⟨rfl, rfl, rfl⟩
  | send _ addr ty pl => rcases Block.encode_block p k addr ty pl with e | e <;> rw [e] <;> exact ⟨rfl, rfl, rfl⟩

/-- Bytes are transmitted by a row that sends alone, and are what it returns (R47, R141). -/
theorem Block.Effect.txStream {p : Config.Params} {k k' : Block} {i : Instr} {r : Ret} (h : k.Effect p i k' r) :
    k'.txStream = k.txStream ∨ ∃ bs, k'.txStream = k.txStream ++ bs ∧ i.sends = true ∧ r = .encoded bs := by
  cases h with
  | receive _ h => exact .inl (Block.rxBytes_txStream _ h)
  | arm | reset | read => exact .inl rfl
  | tick => rcases k.tick_cases with ⟨_, e⟩ | ⟨_, _, e⟩ | ⟨_, _, e⟩ <;> simp [e]
  | take h => rcases Block.take_ok_cases h with ⟨_, rfl⟩ | ⟨_, rfl⟩ <;> exact .inl rfl
  | send hi addr ty pl =>
    cases hr : encodeRefusal p ty pl with
    | none =>
      rw [Block.encode_valid _ _ _ _ _ hr]
      exact .inr ⟨_, rfl, hi, rfl⟩
    | some reason =>
      rw [Block.encode_refused _ _ _ _ _ _ hr]
      exact .inl rfl

/-- A reading writes nothing of the block. -/
theorem Block.Effect.reads_block {p : Config.Params} {k k' : Block} {i : Instr} {r : Ret} (h : k.Effect p i k' r)
    (hi : i.reads = true) : k' = k := by
  cases h with
  | read => rfl
  | arm | tick | take | reset => cases hi
  | @receive i _ _ hr _ => cases i <;> simp [Instr.reads, Instr.receives] at hi hr
  | @send i hs _ _ _ => cases i <;> simp [Instr.reads, Instr.sends] at hi hs

/-- No instruction reads what the latest operation returned (log 5). -/
theorem exec_ignores_ret (i : Instr) (s : State) (r : Ret) : exec i (s.finishOp s.block r) = exec i s := by
  cases i <;> rfl

/-! ## The statements on what is written and what is read -/

/-- Settles O60: a row that receives stores the same byte at the same index in either buffer; any other row reads neither
buffer. -/
theorem staleBytesAreNeverObserved : Obligations.StaleBytesAreNeverObserved := by
  intro i s s' t hs hs' hsame h
  obtain ⟨hparams, hagents, _, hblock⟩ := id hsame
  cases hi : i.receives with
  | true =>
    obtain ⟨bs, _, he⟩ := exec_receives hi
    rw [he] at h
    obtain ⟨k, hk, rfl⟩ := (State.doneBlock_eq_next _ t _).mp h
    obtain ⟨k', hk', hstale⟩ := hblock.rxBytes hs.params bs hs.block (hparams ▸ hs'.block) hk
    refine ⟨_, (he s').trans ((s'.doneBlock_eq_next _ _).mpr ⟨k', hparams ▸ hk', rfl⟩), ?_⟩
    exact ⟨hparams, hagents, rfl, hstale⟩
  | false =>
    obtain ⟨bs, htx, he⟩ := exec_readsNeither hi h
    have hother := he s'.block.rxBuf s.block.txStream
    rw [← hsame.eq_withUnread, ← htx] at hother
    obtain ⟨k, r, rfl, heff⟩ := exec_effect h
    refine ⟨_, hother, rfl, rfl, rfl, Block.sameButStale_withBuf fun j hj => ?_⟩
    obtain ⟨_, hbelow⟩ := hblock
    rw [State.finishOp_block, heff.rxBuf hi]
    exact hbelow j (Nat.lt_of_lt_of_le hj (heff.rxCount_le hi))

/-- Settles O59: receiving carries the transmitted bytes along, and no other row reads them. -/
theorem transmitStreamIsNeverRead : Obligations.TransmitStreamIsNeverRead := by
  intro i s t tx h
  cases hi : i.receives with
  | true =>
    obtain ⟨bs, _, he⟩ := exec_receives hi
    rw [he] at h ⊢
    obtain ⟨k, hk, rfl⟩ := (s.doneBlock_eq_next t _).mp h
    exact ⟨_, tx, (State.doneBlock_eq_next _ _ _).mpr ⟨_, Block.rxBytes_withTx s.params tx bs hk, rfl⟩, rfl⟩
  | false =>
    obtain ⟨bs, _, he⟩ := exec_readsNeither hi h
    obtain ⟨k, r, rfl, heff⟩ := exec_effect h
    refine ⟨_, tx ++ bs, he s.block.rxBuf tx, ?_⟩
    rw [← heff.rxBuf hi]
    rfl

/-- Settles O23: a received byte is an insertion at `rx_count`, and no effect but receiving writes the buffer. -/
theorem bufferBytesFrame : Obligations.BufferBytesFrame := by
  refine ⟨fun b s t h j => ?_, fun i s t hi h j => ?_⟩
  · obtain ⟨k, hk, rfl⟩ := (s.doneBlock_eq_next t _).mp h
    rw [State.bufByte, State.finishOp_block, Block.rxByte_rxBuf hk]
    split
    · next hj => rw [hj, Memory.lookup_insert_same]
    · next hj => exact Memory.lookup_insert_other _ _ _ _ hj
  · obtain ⟨k, r, rfl, he⟩ := exec_effect h
    exact congrArg (Memory.lookup · j) (he.rxBuf hi)

/-- Settles O49: each effect leaves the transmitted bytes or is a frame sent and returned. -/
theorem whoWritesTheTransmitStream : Obligations.WhoWritesTheTransmitStream := by
  intro i s t h
  obtain ⟨k, r, rfl, he⟩ := exec_effect h
  rcases he.txStream with htx | ⟨bs, htx, hsends, hret⟩
  · exact ⟨[], htx.trans (List.append_nil _).symm, fun hne => absurd rfl hne⟩
  · exact ⟨bs, htx, fun _ => ⟨hsends, hret⟩⟩

/-- Settles O50: the effects left are those that do not touch the reassembler. -/
theorem whoWritesTheReassembler : Obligations.WhoWritesTheReassembler := by
  intro i s t h hi ha hr ht
  obtain ⟨k, r, rfl, he⟩ := exec_effect h
  exact he.reassembler hi ha hr ht

/-- Settles O51: a reading changes the return alone, which no instruction reads. -/
theorem readingChangesNothing : Obligations.ReadingChangesNothing := by
  intro i s t h hform
  have hi : i.reads = true := by
    rcases hform with ⟨_, rfl⟩ | ⟨_, _, _, rfl⟩ | ⟨_, _, _, _, _, _, rfl⟩ | ⟨_, rfl⟩ <;> rfl
  obtain ⟨k, r, rfl, he⟩ := exec_effect h
  obtain rfl := he.reads_block hi
  exact ⟨rfl, rfl, rfl, (exec_ignores_ret i s r).trans h⟩

/-- Settles O24: a FRAME row and its bytes one by one are the same bytes received, and a run may be cut anywhere. -/
theorem chunkingDoesNotMatter : Obligations.ChunkingDoesNotMatter := by
  refine ⟨fun st a p c s => ⟨?_, ?_, ?_, ?_⟩, fun bs cs s t h => ?_⟩
  · exact (runInstrs_rxBytes _ _ s).symm
  · exact (runInstrs_rxBytes _ _ s).symm
  · exact (runInstrs_rxBytes _ _ s).symm
  · exact (runInstrs_rxBytes _ _ s).symm
  · rw [List.map_append]
    exact runInstrs_append _ _ s t h

end Sys2Proof.Machine
end

section
/-! SUPPORT. Frames received byte by byte: a whole frame, a header whose length is refused, and what the latch leaves. -/

namespace Sys2Proof.Machine

/-! ### The latch and the state it leaves -/

/-- A frame that ends in `k1`, which is `k` but for the frame in flight, is delivered to `k` where its slot is free. -/
theorem Block.SameOutside.finish_free {k k1 : Block} (h : k.SameOutside k1) (hd : k.done = false) (r : Record) :
    k1.finish r = { k.emptyBuffer with rxBuf := k1.rxBuf, slot := r, done := true, waiting := false } := by
  obtain ⟨_, hdone, _, hoverrun, hcount, hlimit, htx⟩ := h
  rw [Block.finish_free (hdone.trans hd)]
  simp only [Block.emptyBuffer, Block.deliver, hoverrun, hcount, hlimit, htx]

/-- A frame that ends in `k1`, which is `k` but for the frame in flight, is dropped where the slot of `k` is full. -/
theorem Block.SameOutside.finish_full {k k1 : Block} (h : k.SameOutside k1) (hd : k.done = true) (r : Record) :
    k1.finish r = { k.emptyBuffer with rxBuf := k1.rxBuf, overrun := true } := by
  obtain ⟨hslot, hdone, hwaiting, _, hcount, hlimit, htx⟩ := h
  rw [Block.finish_full (hdone.trans hd)]
  simp only [Block.emptyBuffer, Block.markOverrun, hslot, hdone, hwaiting, hcount, hlimit, htx]

/-- An empty buffer is at rest (R32, R35). -/
theorem Block.PhaseInv.emptyBuffer_eq {p : Config.Params} {k : Block} (h : k.PhaseInv p) (h0 : k.rxCount = 0) :
    k.emptyBuffer = k := by
  have hstate := h.stateOfCount
  have hexpected := h.headerPhase (by simp [h0])
  obtain ⟨rxState, rxCount, rxExpected⟩ := k
  simp only at h0 hstate hexpected
  subst h0 hstate hexpected
  rfl

theorem Block.SameOutside.refl (k : Block) : k.SameOutside k := ⟨rfl, rfl, rfl, rfl, rfl, rfl, rfl⟩

theorem Block.SameOutside.trans {k k1 k2 : Block} (a : k.SameOutside k1) (b : k1.SameOutside k2) : k.SameOutside k2 :=
  ⟨b.slot.trans a.slot, b.done.trans a.done, b.waiting.trans a.waiting, b.overrun.trans a.overrun,
    b.wdtCount.trans a.wdtCount, b.wdtLimit.trans a.wdtLimit, b.txStream.trans a.txStream⟩

/-- A stored byte is inside the buffer. -/
theorem Block.stored_sameOutside (k : Block) (b : Byte) : k.SameOutside (k.stored b) :=
  ⟨rfl, rfl, rfl, rfl, rfl, rfl, rfl⟩

section Bytes

variable {p : Config.Params} {k : Block}

/-! ### A whole frame -/

/-- `rec_full` reports a match where the checksum is right (R145). -/
theorem recFull_ok {mode : CsumLenMode} {h : FrameHeader} {pl : List Byte} {c : Half}
    (hc : checksum mode h.ptype h.length pl = c) : (recFull mode h pl c).result = .ok :=
  if_pos hc

/-- A whole frame is within the capacity (R9). -/
theorem WholeFrame.accepted {f pl : List Byte} {h : FrameHeader} {c : Half} (w : WholeFrame p f h pl c) :
    9 + h.length.toNat ≤ p.rxCapacity := by
  have hcap : p.rxCapacity = p.maxPayload + 11 := rfl
  have hl := w.length
  have hfits := w.fits
  omega

/-- `DECODE` of a whole frame is its `rec_full` (R144). -/
theorem WholeFrame.decodeBytes {f pl : List Byte} {h : FrameHeader} {c : Half} (w : WholeFrame p f h pl c) :
    decodeBytes p f = .ok (recFull p.csumLenMode h pl c) :=
  decodeBytes_frame w.header w.length w.accepted

/-- Header bytes of an accepted length and as many bytes after them are one whole frame (R101, R102). -/
theorem wholeFrame_of_accepted {h : FrameHeader} {body : List Byte} (h2 : 2 ≤ h.length.toNat)
    (hc : 9 + h.length.toNat ≤ p.rxCapacity) (hl : body.length = h.length.toNat) :
    ∃ pl c, WholeFrame p (bytes16 h.startCode ++ bytes32 h.address ++ [h.ptype] ++ bytes16 h.length ++ body) h pl c := by
  have hcap : p.rxCapacity = p.maxPayload + 11 := rfl
  obtain ⟨pl, c, hbody⟩ := parseBody_total h body h2 hl
  obtain ⟨rfl, hlen⟩ := parseBody_eq_some h body pl c hbody
  exact ⟨pl, c, (List.append_assoc _ _ _).symm, hlen, by omega⟩

/-- The frame in flight and the bytes still awaited are one whole frame (R183, R184). -/
theorem Block.Inv.wholeFrame_of_awaited {f g : List Byte} (hi : k.Inv p) (hf : k.Holds f) (h9 : 9 ≤ k.rxCount.toNat)
    (he : (f ++ g).length = k.rxExpected.toNat) : ∃ h pl c, WholeFrame p (f ++ g) h pl c := by
  have hcount := hf.count
  obtain ⟨_, h11, hfits⟩ := hi.phase.payloadPhase h9
  obtain ⟨h, hh⟩ := parseHeader_total (f ++ g) (by omega)
  have hexp := hi.expected_of_prefix f g _ h hf (by omega) hh
  obtain ⟨pl, c, hw⟩ := wholeFrame_of_accepted (p := p) (h := h) (body := (f ++ g).drop 9) (by omega) (by omega)
    (by rw [List.length_drop]; omega)
  exact ⟨h, pl, c, (parseHeader_eq_some _ _ h hh).symm ▸ hw⟩

/-- The bytes that complete a whole frame of which part is held latch its `rec_full`, and its bytes stand in the buffer. -/
theorem Block.Inv.rxBytes_completes {f g pl : List Byte} {h : FrameHeader} {c : Half} (hp : p.wf) (hi : k.Inv p)
    (hf : k.Holds f) (hw : WholeFrame p (f ++ g) h pl c) (hg : g ≠ []) :
    ∃ k1, k.SameOutside k1 ∧ (∀ j, j < (f ++ g).length → Memory.lookup k1.rxBuf j = (f ++ g)[j]?) ∧
      k.rxBytes p g = .ok (k1.finish (recFull p.csumLenMode h pl c)) := by
  obtain ⟨g, b, rfl⟩ := List.eq_nil_or_concat' g |>.resolve_left hg
  rw [← List.append_assoc] at hw ⊢
  obtain ⟨k1, e1, i1, hf1, s1⟩ := Block.Inv.rxBytes_inside hp h pl c g f [b] hi hf hw (List.cons_ne_nil _ _)
  refine ⟨k1.stored b, s1.trans (k1.stored_sameOutside b), ?_, ?_⟩
  · have hstored := lookup_stored k1.rxBuf (f ++ g) b hf1.bytes
    rw [← hf1.count] at hstored
    exact hstored
  · rw [Block.rxBytes_append p g [b] k k1 e1, Block.rxBytes_singleton, i1.rxByte_ends _ b h pl c hf1 hw]

/-! ### A header alone -/

/-- The header of header bytes written out, whatever follows them. -/
theorem parseHeader_fields (sc : Half) (a : Word32) (t : Byte) (len : Half) (body : List Byte) :
    parseHeader (bytes16 sc ++ bytes32 a ++ [t] ++ bytes16 len ++ body) =
      some ({ startCode := sc, address := a, ptype := t, length := len }, body) := by
  simp [bytes16, bytes32, parseHeader]

/-- Bytes of a header before its ninth are held, whatever they are (R182). -/
theorem Block.Inv.rxBytes_header (hp : p.wf) (g : List Byte) : ∀ {k : Block} {f : List Byte}, k.Inv p → k.Holds f →
    f.length + g.length ≤ 8 → ∃ k', k.rxBytes p g = .ok k' ∧ k'.Inv p ∧ k'.Holds (f ++ g) ∧ k.SameOutside k' := by
  induction g with
  | nil =>
    intro k f hi hf _
    exact ⟨k, rfl, hi, by rwa [List.append_nil], .refl k⟩
  | cons b g ih =>
    intro k f hi hf hl
    rw [List.length_cons] at hl
    have hcount := hf.count
    obtain ⟨k1, e1, i1⟩ := hi.rxByte hp b
    have e := Block.rxByte_header p k b hi.phase.not_complete hi.phase.room (by omega)
    obtain rfl := Except.ok.inj (e.symm.trans e1)
    obtain ⟨k2, e2, i2, hf2, s2⟩ := ih i1 (Block.stored_holds k b f _ hf (by omega)) (by simp; omega)
    refine ⟨k2, by simp only [Block.rxBytes, e1, e2], i2, by simpa using hf2, .trans ⟨?_, ?_, ?_, ?_, ?_, ?_, ?_⟩ s2⟩ <;> rfl

/-- Nine bytes into an empty buffer have their length checked (R183). -/
theorem Block.Inv.rxBytes_nine {f : List Byte} {h : FrameHeader} (hp : p.wf) (hi : k.Inv p) (h0 : k.rxCount = 0)
    (h9 : f.length = 9) (hh : parseHeader f = some (h, [])) :
    ∃ k1, k.SameOutside k1 ∧ k.rxBytes p f = .ok (k1.headerDone p h) := by
  have hne : f ≠ [] := by
    rintro rfl
    cases h9
  obtain ⟨g, b, rfl⟩ := List.eq_nil_or_concat' f |>.resolve_left hne
  have h8 : g.length = 8 := by simpa using h9
  obtain ⟨k1, e1, i1, hf1, s1⟩ := Block.Inv.rxBytes_header hp g hi (k.holds_nil h0) (by simp [h8])
  obtain ⟨h', hh', e2⟩ := Block.rxByte_ninth p k1 b g i1.phase.not_complete i1.phase.room hf1 h8
  obtain rfl : h = h' := congrArg Prod.fst (Option.some.inj (hh.symm.trans hh'))
  exact ⟨k1.stored b, s1.trans (k1.stored_sameOutside b),
    by rw [Block.rxBytes_append p g [b] k k1 e1, Block.rxBytes_singleton, e2]⟩

/-- A length that is not accepted is refused by `DECODE` of the header and at the ninth byte with the same record (R147). -/
theorem refused_header {f : List Byte} {h : FrameHeader} (hh : parseHeader f = some (h, []))
    (hl : h.length.toNat < 2 ∨ p.rxCapacity < 9 + h.length.toNat) :
    ∃ r : Record, (r.result = .frameMalformed ∨ r.result = .frameTooLarge) ∧ decodeBytes p f = .ok r ∧
      ∀ k : Block, k.headerDone p h = k.finish r := by
  rcases Nat.lt_or_ge h.length.toNat 2 with h2 | h2
  · exact ⟨_, .inl rfl, decodeBytes_lengthBelowTwo hh h2, fun k => k.headerDone_malformed h2⟩
  · have hc := hl.resolve_left (Nat.not_lt.mpr h2)
    exact ⟨_, .inr rfl, decodeBytes_tooLarge hh h2 hc, fun k => k.headerDone_tooLarge hc⟩

end Bytes

/-! ### Runs of received bytes -/

section Runs

variable {s : State}

/-- A run of bytes of which the block holds the last state. -/
theorem runInstrs_rxByte_of_ok {bs : List Byte} {k : Block} (h : s.block.rxBytes s.params bs = .ok k) :
    ∃ w, runInstrs (bs.map .rxByte) s = .next w ∧ w.block = k := by
  cases bs with
  | nil =>
    cases h
    exact ⟨s, rfl, rfl⟩
  | cons b bs => exact ⟨_, runInstrs_rxBytes_ok _ s k (List.cons_ne_nil _ _) h, rfl⟩

/-- The bytes of a whole frame but some of its last latch nothing. -/
theorem State.Inv.run_prefix {f pl : List Byte} {h : FrameHeader} {c : Half} {n : Nat} (hs : s.Inv)
    (h0 : s.block.rxCount = 0) (hw : WholeFrame s.params f h pl c) (hn : n < f.length) :
    ∃ w, runInstrs ((f.take n).map .rxByte) s = .next w ∧ s.block.SameOutside w.block := by
  have hrest : f.drop n ≠ [] := by simpa using hn
  obtain ⟨k, e, _, _, hsame⟩ := Block.Inv.rxBytes_inside hs.params h pl c (f.take n) [] (f.drop n) hs.block
    (s.block.holds_nil h0) (by simpa using hw) hrest
  obtain ⟨w, hw, rfl⟩ := runInstrs_rxByte_of_ok e
  exact ⟨w, hw, hsame⟩

/-- A whole frame into an empty buffer latches its `rec_full`. -/
theorem State.Inv.run_wholeFrame {f pl : List Byte} {h : FrameHeader} {c : Half} (hs : s.Inv)
    (h0 : s.block.rxCount = 0) (hw : WholeFrame s.params f h pl c) :
    ∃ k, s.block.SameOutside k ∧
      runInstrs (f.map .rxByte) s = .next (s.finishOp (k.finish (recFull s.params.csumLenMode h pl c)) .nothing) := by
  have hne : f ≠ [] := by
    rintro rfl
    have hsize := hw.size
    rw [List.length_nil] at hsize
    omega
  obtain ⟨k, hsame, _, e⟩ := hs.block.rxBytes_completes hs.params (s.block.holds_nil h0) hw hne
  exact ⟨k, hsame, runInstrs_rxBytes_ok f s _ hne e⟩

/-- The bytes of a header before its ninth latch nothing. -/
theorem State.Inv.run_headerPrefix {g : List Byte} (hs : s.Inv) (h0 : s.block.rxCount = 0) (hg : g.length ≤ 8) :
    ∃ w, runInstrs (g.map .rxByte) s = .next w ∧ s.block.SameOutside w.block := by
  obtain ⟨k, e, _, _, hsame⟩ := Block.Inv.rxBytes_header hs.params g hs.block (s.block.holds_nil h0) (by simpa using hg)
  obtain ⟨w, hw, rfl⟩ := runInstrs_rxByte_of_ok e
  exact ⟨w, hw, hsame⟩

/-- Nine bytes into an empty buffer have their length checked. -/
theorem State.Inv.run_nine {f : List Byte} {h : FrameHeader} (hs : s.Inv) (h0 : s.block.rxCount = 0)
    (h9 : f.length = 9) (hh : parseHeader f = some (h, [])) :
    ∃ k, s.block.SameOutside k ∧
      runInstrs (f.map .rxByte) s = .next (s.finishOp (k.headerDone s.params h) .nothing) := by
  obtain ⟨k, hsame, e⟩ := hs.block.rxBytes_nine hs.params h0 h9 hh
  refine ⟨k, hsame, runInstrs_rxBytes_ok f s _ ?_ e⟩
  rintro rfl
  cases h9

end Runs

/-- The row of each packet type is the delivery of its frame. -/
theorem exec_frameRow {st : Half} {a : Word32} {p : List Byte} {c : Half} {row : Instr × Byte}
    (h : row ∈ [((.frameCommand st a p c, 1) : Instr × Byte), (.frameData st a p c, 2), (.frameAck st a p c, 7),
      (.frameEndOfData st a p c, 8)]) (s : State) : exec row.1 s = s.deliverFrame st a row.2 p c := by
  simp only [List.mem_cons, List.not_mem_nil, or_false] at h
  rcases h with rfl | rfl | rfl | rfl <;> rfl

/-! ## The statements of 42_reassembler.md on frames -/

/-- Settles O22: the phase bounds the count, so there is room; the bytes awaited complete a whole frame, which is latched. -/
theorem bufferNeverOverflows : Obligations.BufferNeverOverflows := by
  intro s hs
  refine ⟨?_, hs.block.phase.room, fun b => ?_, fun bs h9 he => ?_⟩
  · rcases Nat.lt_or_ge 8 s.block.rxCount.toNat with h9 | h8
    · obtain ⟨hlt, _, hcap⟩ := hs.block.phase.payloadPhase h9
      exact .inr ⟨hlt, hcap⟩
    · exact .inl h8
  · obtain ⟨k, hk, _⟩ := hs.block.rxByte hs.params b
    exact ⟨_, exec_rxByte hk⟩
  · obtain ⟨f, hf⟩ := s.block.holds_of_written hs.block.buffer.written
    obtain ⟨hlt, _, _⟩ := hs.block.phase.payloadPhase h9
    have hcount := hf.count
    have hne : bs ≠ [] := by
      rintro rfl
      rw [List.length_nil] at he
      omega
    obtain ⟨h, pl, c, hw⟩ := hs.block.wholeFrame_of_awaited hf h9 (g := bs) (by rw [List.length_append]; omega)
    obtain ⟨k, _, _, e⟩ := hs.block.rxBytes_completes hs.params hf hw hne
    exact ⟨_, runInstrs_rxBytes_ok bs s _ hne e, Block.finish_rxCount _ _, Block.finish_rxState _ _,
      Block.finish_done _ _⟩

/-- Settles O25: the frame is whole, its bytes stand where they were received, and the latch finds the slot free. -/
theorem frameRowsAreLatched : Obligations.FrameRowsAreLatched := by
  intro st a p c s hs h0 hd hl row hrow
  have hw := wholeFrame_frameBytes s.params hs.params st a row.2 p c hl
  have hsize := frameBytes_length st a row.2 p c
  have hne : frameBytes st a row.2 p c ≠ [] := List.cons_ne_nil _ _
  obtain ⟨k, hsame, hbytes, e⟩ := hs.block.rxBytes_completes (g := frameBytes st a row.2 p c) hs.params
    (s.block.holds_nil h0) hw hne
  refine ⟨k.rxBuf, ?_, fun j hj => hbytes j (by rw [List.nil_append]; omega), fun j hj => ?_⟩
  · rw [hsame.finish_free hd, hs.block.phase.emptyBuffer_eq h0, recFull_of_length hw.length] at e
    rw [exec_frameRow hrow]
    exact (s.doneBlock_eq_next _ _).mpr ⟨_, e, rfl⟩
  · have habove := Block.rxBytes_lookup_above _ e (j := j) (by simp [h0]; omega)
    rwa [Block.finish_rxBuf] at habove

/-- Settles O26: bytes received keep the invariant and touch the handoff only as `Block.Received` says. -/
theorem frameRowsCompleteAnywhere : Obligations.FrameRowsCompleteAnywhere := by
  intro st a p c s hs i hi
  have hreceives : i.receives = true := by
    simp only [List.mem_cons, List.not_mem_nil, or_false] at hi
    rcases hi with rfl | rfl | rfl | rfl <;> rfl
  obtain ⟨bs, _, he⟩ := exec_receives hreceives
  obtain ⟨k, hk, hinv⟩ := Block.Inv.rxBytes hs.params bs hs.block
  have hrec := Block.Inv.rxBytes_received hs.params bs hs.block hk
  refine ⟨_, (he s).trans ((s.doneBlock_eq_next _ _).mpr ⟨k, hk, rfl⟩), ⟨hs.params, hinv⟩, rfl, rfl, rfl, ?_⟩
  exact ⟨hrec.txStream, hrec.wdtCount, hrec.wdtLimit, hrec.untaken⟩

/-- Settles O27: both sides are `rec_full` of a whole frame, or the record that refuses a header's length. -/
theorem decodeAgreesWithTheReassembler : Obligations.DecodeAgreesWithTheReassembler := by
  intro s sc a t len body hs h0 hd
  refine ⟨fun h2 hc hl => ?_, fun hrefused => ?_⟩
  · obtain ⟨pl, c, hw⟩ := wholeFrame_of_accepted (p := s.params)
      (h := { startCode := sc, address := a, ptype := t, length := len }) h2 hc hl
    obtain ⟨k, hsame, hrun⟩ := hs.run_wholeFrame h0 hw
    rw [hsame.finish_free hd] at hrun
    refine ⟨_, _, _, exec_decode hw.decodeBytes, rfl, hrun, rfl, rfl, rfl, rfl, fun n hn => ?_⟩
    obtain ⟨w, hrunw, hsamew⟩ := hs.run_prefix h0 hw hn
    exact ⟨w, hrunw, hsamew.done.trans hd⟩
  · have hh := parseHeader_fields sc a t len []
    rw [List.append_nil] at hh
    obtain ⟨r, hr, hdecode, hfinish⟩ := refused_header (p := s.params) hh hrefused
    obtain ⟨k, hsame, hrun⟩ := hs.run_nine h0 rfl hh
    rw [hfinish, hsame.finish_free hd] at hrun
    refine ⟨_, _, r, exec_decode hdecode, rfl, hr, hrun, rfl, rfl, rfl, fun n hn => ?_, ?_⟩
    · obtain ⟨w, hrunw, hsamew⟩ := hs.run_headerPrefix h0
        (g := (bytes16 sc ++ bytes32 a ++ [t] ++ bytes16 len).take n) (by rw [List.length_take]; omega)
      exact ⟨w, hrunw, hsamew.done.trans hd⟩
    · rw [List.map_append]
      exact runInstrs_append _ _ s _ hrun

/-- Settles O28: the frame that is sent is whole and its checksum right. -/
theorem exactlyOneCompletionPerFrame : Obligations.ExactlyOneCompletionPerFrame := by
  intro s addr t p hs h0 hd hl ht
  have hw := wholeFrame_frameBytes s.params hs.params s.params.startCode addr t p
    (checksum s.params.csumLenMode t (lengthField p) p) hl
  obtain ⟨k, hsame, hrun⟩ := hs.run_wholeFrame h0 hw
  rw [hsame.finish_free hd] at hrun
  refine ⟨_, _, _, _, _, exec_encode_valid addr (encodeRefusal_none hl ht), rfl, fun n hn => ?_, hrun, rfl,
    recFull_ok rfl, rfl, exec_decode hw.decodeBytes, rfl, rfl⟩
  obtain ⟨w, hrunw, hsamew⟩ := hs.run_prefix h0 hw hn
  exact ⟨w, hrunw, hsamew.done.trans hd⟩

end Sys2Proof.Machine
end

section
/-! SUPPORT. The cycle: the exact states of `TICK`, `TAKE`, `ARM` and `RESET`, ticks and bytes in any order while a cycle waits,
and what comes after a timeout or a refused header. -/

namespace Sys2Proof.Machine

/-! ### One tick, one take -/

/-- A counted tick adds one to the register. -/
theorem Block.countTick_succ (k : Block) :
    k.countTick (k.wdtCount.toNat + 1) = { k with wdtCount := k.wdtCount + 1 } := by
  have hinc : (BitVec.ofNat 32 (k.wdtCount.toNat + 1) : Word32) = k.wdtCount + 1 := by
    apply BitVec.eq_of_toNat_eq
    simp
  rw [Block.countTick, hinc]

section Exec

variable {s : State}

/-- A tick short of the limit (R190). -/
theorem exec_tick_counts (hw : s.block.waiting = true) (hl : s.block.wdtCount.toNat + 1 < s.block.wdtLimit.toNat) :
    exec .tick s = .next (s.finishOp (s.block.countTick (s.block.wdtCount.toNat + 1)) .nothing) :=
  congrArg (fun k => Host.Outcome.next (s.finishOp k .nothing)) (Block.tick_counts hw hl)

/-- The block after the tick that reaches the limit: the count stored, the partial frame lost, the timeout in the slot. -/
def Block.timedOut (k : Block) : Block :=
  (k.countTick (k.wdtCount.toNat + 1)).emptyBuffer.deliver (recEmpty .framingTimeout)

/-- The tick that reaches the limit of a waiting cycle, whose slot is empty (R190, R42). -/
theorem State.Inv.exec_tick_expires (hs : s.Inv) (hw : s.block.waiting = true)
    (hl : s.block.wdtLimit.toNat ≤ s.block.wdtCount.toNat + 1) :
    exec .tick s = .next (s.finishOp s.block.timedOut .nothing) := by
  have hd : (s.block.countTick (s.block.wdtCount.toNat + 1)).done = false := hs.block.watchdog.waitingMeansEmpty hw
  exact congrArg (fun k => Host.Outcome.next (s.finishOp k .nothing))
    ((Block.tick_expires hw hl).trans (Block.finish_free hd))

/-- A tick while no cycle waits (R190). -/
theorem exec_tick_idle (hw : s.block.waiting = false) : exec .tick s = .next (s.finishOp s.block .nothing) :=
  congrArg (fun k => Host.Outcome.next (s.finishOp k .nothing)) (Block.tick_idle hw)

/-- `ARM` is done at every state (R189). -/
theorem exec_arm (s : State) (limit : Word32) :
    exec (.arm limit) s = .next (s.finishOp (s.block.arm limit) .nothing) := rfl

/-- `TAKE` with nothing latched (R191). -/
theorem exec_take_empty (hd : s.block.done = false) :
    exec .take s = .next (s.finishOp s.block (.record (recEmpty .none))) :=
  (s.doneOrFault_eq_next _ _).mpr ⟨_, if_neg (by simp [hd]), rfl⟩

/-- A run whose first instruction answers a state goes on from it. -/
theorem runInstrs_cons {i : Instr} {is : List Instr} {t : State} (h : exec i s = .next t) :
    runInstrs (i :: is) s = runInstrs is t := by
  rw [runInstrs, h]

end Exec

/-- A run of instructions keeps the invariant. -/
theorem State.Inv.of_runInstrs {is : List Instr} : ∀ {s t : State}, s.Inv → runInstrs is s = .next t → t.Inv := by
  induction is with
  | nil =>
    intro s t hs h
    cases h
    exact hs
  | cons i is ih =>
    intro s t hs h
    rw [runInstrs] at h
    split at h
    · next u hu => exact ih (hs.of_exec hu) h
    · cases h
    · cases h

/-! ### A waiting cycle -/

/-- A cycle of `s` that still waits in `t`, after `n` more ticks. -/
structure State.StillWaits (s t : State) (n : Nat) : Prop where
  inv : t.Inv
  params : t.params = s.params
  waiting : t.block.waiting = true
  wdtLimit : t.block.wdtLimit = s.block.wdtLimit
  wdtCount : t.block.wdtCount.toNat = s.block.wdtCount.toNat + n

theorem State.StillWaits.refl {s : State} (hs : s.Inv) (hw : s.block.waiting = true) : s.StillWaits s 0 :=
  ⟨hs, rfl, hw, rfl, rfl⟩

theorem State.StillWaits.trans {s t u : State} {m n : Nat} (a : s.StillWaits t m) (b : t.StillWaits u n) :
    s.StillWaits u (m + n) where
  inv := b.inv
  params := b.params.trans a.params
  waiting := b.waiting
  wdtLimit := b.wdtLimit.trans a.wdtLimit
  wdtCount := by rw [b.wdtCount, a.wdtCount, Nat.add_assoc]

/-- The result slot of a waiting cycle is empty (R42). -/
theorem State.StillWaits.done {s t : State} {n : Nat} (h : s.StillWaits t n) : t.block.done = false :=
  h.inv.block.watchdog.waitingMeansEmpty h.waiting

/-- A tick short of the bound leaves the cycle waiting, with one tick more. -/
theorem State.Inv.tick_stillWaits {s : State} (hs : s.Inv) (hw : s.block.waiting = true)
    (hl : s.block.wdtCount.toNat + 1 < max s.block.wdtLimit.toNat 1) :
    ∃ t, exec .tick s = .next t ∧ s.StillWaits t 1 ∧ t.block.rxCount = s.block.rxCount ∧
      ∀ f, s.block.Holds f → t.block.Holds f := by
  have h := exec_tick_counts hw (by omega)
  exact ⟨_, h, ⟨hs.of_exec h, rfl, hw, rfl, hs.block.watchdog.stored_tick hw⟩, rfl, fun f hf => ⟨hf.count, hf.bytes⟩⟩

/-- Ticks that stay short of the bound leave the cycle waiting and the partial frame held (R190). -/
theorem State.Inv.run_ticks {s : State} (n : Nat) (hs : s.Inv) (hw : s.block.waiting = true)
    (hl : s.block.wdtCount.toNat + n < max s.block.wdtLimit.toNat 1) :
    ∃ t, runInstrs (List.replicate n .tick) s = .next t ∧ s.StillWaits t n ∧ t.block.rxCount = s.block.rxCount := by
  induction n with
  | zero => exact ⟨s, rfl, .refl hs hw, rfl⟩
  | succ n ih =>
    obtain ⟨t, hrun, hwaits, hcount⟩ := ih (by omega)
    obtain ⟨u, hu, hwaits', hcount', _⟩ := hwaits.inv.tick_stillWaits hwaits.waiting
      (by rw [hwaits.wdtCount, hwaits.wdtLimit]; omega)
    refine ⟨u, ?_, hwaits.trans hwaits', hcount'.trans hcount⟩
    rw [List.replicate_succ', runInstrs_append _ _ s t hrun, runInstrs_cons hu]
    rfl

/-- Ticks short of the bound and a whole frame's bytes without its last ones, in any order, leave the cycle waiting (R197). -/
theorem State.Inv.run_interleaved {h : FrameHeader} {pl : List Byte} {c : Half} {rest : List Byte} (hrest : rest ≠ [])
    (ops : List Instr) : ∀ {s : State} {g f : List Byte}, s.Inv → s.block.waiting = true → s.block.Holds g →
    WholeFrame s.params (g ++ f ++ rest) h pl c → (∀ i ∈ ops, i = .tick ∨ ∃ b, i = .rxByte b) →
    ops.filter (fun i => i.receives) = f.map .rxByte →
    s.block.wdtCount.toNat + ops.count .tick < max s.block.wdtLimit.toNat 1 →
    ∃ t, runInstrs ops s = .next t ∧ s.StillWaits t (ops.count .tick) := by
  induction ops with
  | nil =>
    intro s g f hs hw _ _ _ _ _
    exact ⟨s, rfl, .refl hs hw⟩
  | cons i ops ih =>
    intro s g f hs hw hg hframe hops hfilter hlimit
    obtain ⟨hi, hops'⟩ := List.forall_mem_cons.mp hops
    rcases hi with rfl | ⟨b, rfl⟩
    · rw [List.count_cons_self] at hlimit ⊢
      obtain ⟨t, ht, hwaits, _, hholds⟩ := hs.tick_stillWaits hw (by omega)
      obtain ⟨u, hrun, hwaits'⟩ := ih hwaits.inv hwaits.waiting (hholds g hg) (hwaits.params ▸ hframe) hops' hfilter
        (by rw [hwaits.wdtCount, hwaits.wdtLimit]; omega)
      exact ⟨u, (runInstrs_cons ht).trans hrun, Nat.add_comm 1 _ ▸ hwaits.trans hwaits'⟩
    · rw [List.count_cons_of_ne (by simp)] at hlimit ⊢
      cases f with
      | nil => simp [Instr.receives] at hfilter
      | cons b' f =>
        rw [List.filter_cons_of_pos (by rfl), List.map_cons, List.cons.injEq, Instr.rxByte.injEq] at hfilter
        obtain ⟨rfl, hfilter⟩ := hfilter
        obtain ⟨k, hk, hinv, hholds, hsame⟩ := hs.block.rxByte_inside hs.params g (f ++ rest) b h pl c hg
          (by simpa using hframe) (by simp [hrest])
        have hwaits : s.StillWaits (s.finishOp k .nothing) 0 :=
          ⟨⟨hs.params, hinv⟩, rfl, hsame.waiting.trans hw, hsame.wdtLimit, congrArg BitVec.toNat hsame.wdtCount⟩
        obtain ⟨u, hrun, hwaits'⟩ := ih (f := f) hwaits.inv hwaits.waiting hholds (by simpa using hframe) hops' hfilter
          (by rw [hwaits.wdtCount, hwaits.wdtLimit]; omega)
        exact ⟨u, (runInstrs_cons (exec_rxByte hk)).trans hrun, by simpa using hwaits.trans hwaits'⟩

/-- A whole frame whose checksum is right, received into an empty buffer and a free slot, latches `OK`. -/
theorem State.Inv.run_goodFrame {s : State} (hs : s.Inv) (h0 : s.block.rxCount = 0) (hd : s.block.done = false)
    (sc : Half) (a : Word32) (t : Byte) {p : List Byte} (hl : p.length ≤ s.params.maxPayload) :
    ∃ u r, runInstrs ((frameBytes sc a t p (checksum s.params.csumLenMode t (lengthField p) p)).map .rxByte) s =
        .next u ∧ u.block.slot = r ∧ u.block.done = true ∧ u.block.overrun = s.block.overrun ∧ r.result = .ok ∧
      r.startCode = sc ∧ r.address = a ∧ r.ptype = t ∧ r.length = lengthField p ∧ r.payload = p := by
  have hw := wholeFrame_frameBytes s.params hs.params sc a t p (checksum s.params.csumLenMode t (lengthField p) p) hl
  obtain ⟨k, hsame, hrun⟩ := hs.run_wholeFrame h0 hw
  rw [hsame.finish_free hd] at hrun
  exact ⟨_, _, hrun, rfl, rfl, rfl, recFull_ok rfl, rfl, rfl, rfl, rfl, rfl⟩

/-- A cycle that is armed, given a whole frame's bytes without its last ones and as many ticks as its limit, a tick last, times
out with those bytes lost (R197). -/
theorem State.Inv.run_cutShort {s : State} {limit : Word32} {ops : List Instr} {f whole pl : List Byte}
    {h : FrameHeader} {c : Half} (hs : s.Inv) (hframe : WholeFrame s.params whole h pl c)
    (hops : ∀ i ∈ ops, i = .tick ∨ ∃ b, i = .rxByte b) (hfilter : ops.filter (fun i => i.receives) = f.map .rxByte)
    (hprefix : f <+: whole) (hshort : f.length < whole.length) (hticks : ops.count .tick + 1 = max limit.toNat 1) :
    ∃ u, runInstrs (.arm limit :: ops ++ [.tick]) s = .next u ∧ u.params = s.params ∧ u.block.done = true ∧
      u.block.slot.result = .framingTimeout ∧ u.block.rxCount = 0 ∧ u.block.waiting = false := by
  obtain ⟨rest, rfl⟩ := hprefix
  have hrest : rest ≠ [] := by
    rintro rfl
    simp at hshort
  have harm := exec_arm s limit
  obtain ⟨t, hrun, hwaits⟩ := (hs.of_exec harm).run_interleaved hrest ops (g := []) (f := f) rfl (Block.holds_nil _ rfl)
    hframe hops hfilter (show 0 + _ < max limit.toNat 1 by omega)
  have hcount : t.block.wdtCount.toNat = 0 + ops.count .tick := hwaits.wdtCount
  have hlimit : t.block.wdtLimit = limit := hwaits.wdtLimit
  have htick := hwaits.inv.exec_tick_expires hwaits.waiting (by rw [hcount, hlimit]; omega)
  refine ⟨t.finishOp t.block.timedOut .nothing, ?_, hwaits.params, rfl, rfl, rfl, rfl⟩
  rw [List.cons_append, runInstrs_cons harm, runInstrs_append _ _ _ t hrun, runInstrs_cons htick]
  rfl

/-- Where a result is untaken, `TAKE`, `ARM` and a whole frame whose checksum is right latch `OK`, whatever was in flight. -/
theorem State.Inv.run_nextCycle {s : State} (hs : s.Inv) (hd : s.block.done = true) (limit : Word32) (sc : Half)
    (a : Word32) (t : Byte) {p : List Byte} (hl : p.length ≤ s.params.maxPayload) :
    ∃ u, runInstrs (.take :: .arm limit ::
        (frameBytes sc a t p (checksum s.params.csumLenMode t (lengthField p) p)).map .rxByte) s = .next u ∧
      u.block.done = true ∧ u.block.slot.result = .ok ∧ u.block.slot.payload = p ∧ u.block.overrun = false := by
  have htake := exec_take_untaken hs.block.slot hd
  have harm := exec_arm (s.finishOp s.block.clearSlot (.record s.block.slot)) limit
  obtain ⟨u, r, hrun, rfl, hdone, hoverrun, hok, _, _, _, _, hpayload⟩ :=
    ((hs.of_exec htake).of_exec harm).run_goodFrame rfl rfl sc a t hl
  exact ⟨u, (runInstrs_cons htake).trans ((runInstrs_cons harm).trans hrun), hdone, hok, hpayload, hoverrun⟩

/-! ## The statements of 42_reassembler.md and 60_exceptions.md on the cycle -/

/-- Settles O19: the latch by the slot it finds. -/
theorem resultLatch : Obligations.ResultLatch :=
  fun _ _ => ⟨fun hd => Block.finish_free hd, fun hd => Block.finish_full hd⟩

/-- Settles O29: `ARM` is the updates it is made of. -/
theorem armStartsACycle : Obligations.ArmStartsACycle := fun s limit => exec_arm s limit

/-- Settles O30: `RESET` is the updates it is made of. -/
theorem resetWritesEveryElement : Obligations.ResetWritesEveryElement := fun s => exec_reset s

/-- Settles O32: the two exact states, compared element by element. -/
theorem armAndResetDiffer : Obligations.ArmAndResetDiffer := by
  intro s limit
  refine ⟨_, _, exec_arm s limit, exec_reset s, rfl, rfl, rfl, rfl, fun t ht => ?_⟩
  rcases List.mem_pair.mp ht with rfl | rfl <;> exact ⟨rfl, rfl, rfl, rfl, rfl, rfl, rfl, rfl⟩

/-- Settles O33: the three cases of a tick, the expiring one finding the slot empty. -/
theorem tickCountsAndExpires : Obligations.TickCountsAndExpires := by
  intro s hs
  refine ⟨exec_tick_idle, fun hw hl => ?_, fun hw hl => ?_⟩
  · rw [exec_tick_counts hw hl, Block.countTick_succ]
  · rw [hs.exec_tick_expires hw hl, Block.timedOut, Block.countTick_succ]
    rfl

/-- Settles O34: `TAKE` by what it finds; after it the slot is empty. -/
theorem takeReturnsTheResultOnce : Obligations.TakeReturnsTheResultOnce := by
  intro s
  refine ⟨exec_take_empty, fun hs hd => ⟨_, rfl, exec_take_untaken hs.block.slot hd, ?_⟩⟩
  exact ⟨_, _, exec_take_empty rfl, rfl, rfl, rfl⟩

/-- Settles O36: the ticks short of the bound are counted, and the one that reaches it expires. -/
theorem watchdogExpiresExactly : Obligations.WatchdogExpiresExactly := by
  intro s n hs hw
  refine ⟨fun hl => ?_, fun hl => ?_⟩
  · obtain ⟨t, hrun, hwaits, hcount⟩ := hs.run_ticks n hw hl
    exact ⟨t, hrun, hwaits.done, hwaits.waiting, hwaits.wdtCount, hcount⟩
  · have hbelow := hs.block.watchdog.countBelow hw
    obtain ⟨m, rfl⟩ : ∃ m, n = m + 1 := Nat.exists_eq_succ_of_ne_zero (by omega)
    obtain ⟨t, hrun, hwaits, _⟩ := hs.run_ticks m hw (by omega)
    have hlast := hwaits.inv.exec_tick_expires hwaits.waiting (by rw [hwaits.wdtCount, hwaits.wdtLimit]; omega)
    have hexpired : runInstrs (List.replicate (m + 1) .tick) s = .next (t.finishOp t.block.timedOut .nothing) := by
      rw [List.replicate_succ', runInstrs_append _ _ s t hrun, runInstrs_cons hlast]
      rfl
    exact ⟨_, hexpired, rfl, rfl, rfl, rfl⟩

/-- Settles O37: the byte first completes a whole frame and ends the wait, so that the tick is idle; the tick first empties the
buffer, so that the byte is the first of a header. -/
theorem lastByteAgainstExpiringTick : Obligations.LastByteAgainstExpiringTick := by
  intro s b hs hw h9 he hl
  have hd := hs.block.watchdog.waitingMeansEmpty hw
  refine ⟨?_, ?_⟩
  · obtain ⟨f, hf⟩ := s.block.holds_of_written hs.block.buffer.written
    obtain ⟨h, pl, c, hframe⟩ := hs.block.wholeFrame_of_last hf h9 he b
    have hbyte := hs.block.rxByte_ends f b h pl c hf hframe
    rw [(s.block.stored_sameOutside b).finish_free hd] at hbyte
    exact ⟨_, _, exec_rxByte hbyte, exec_tick_idle rfl, rfl, rfl, recFull_result _ _ _ _, rfl, rfl, rfl⟩
  · have htick := hs.exec_tick_expires hw hl
    have hinv := (hs.of_exec htick).block
    have hbyte := Block.rxByte_header s.params s.block.timedOut b hinv.phase.not_complete hinv.phase.room
      (by simp [Block.timedOut])
    exact ⟨_, _, htick, exec_rxByte hbyte, rfl, rfl, rfl, rfl, Memory.lookup_insert_same _ _ _, rfl, rfl⟩

/-- Settles O39: the header is refused at its ninth byte; what follows finds the slot emptied by `TAKE`, or full. -/
theorem desynchronisationRecovery : Obligations.DesynchronisationRecovery := by
  intro s sc sc' a a' t t' len p hs h0 hd hc hl
  have hh := parseHeader_fields sc a t len []
  rw [List.append_nil] at hh
  obtain ⟨k, hsame, hrun⟩ := hs.run_nine h0 rfl hh
  rw [Block.headerDone_tooLarge k hc, hsame.finish_free hd] at hrun
  have hs1 := hs.of_runInstrs hrun
  have htake := exec_take_untaken hs1.block.slot rfl
  obtain ⟨u, r, hu, hslot, hdone, _, hok, hsc, ha, ht, hlen, hp⟩ := (hs1.of_exec htake).run_goodFrame rfl rfl sc' a' t' hl
  obtain ⟨k', hsame', hrun'⟩ := hs1.run_wholeFrame rfl (wholeFrame_frameBytes _ hs1.params sc' a' t' p
    (checksum s.params.csumLenMode t' (lengthField p) p) hl)
  rw [hsame'.finish_full rfl] at hrun'
  subst hslot
  exact ⟨_, u, _, hrun, rfl, rfl, rfl, (runInstrs_cons htake).trans hu, hok, hsc, ha, ht, hlen, hp, hdone, hrun', rfl, rfl,
    rfl, rfl⟩

/-- Settles O40: the cut-short response times out, and the result taken leaves the next cycle as it would be. -/
theorem timeoutRecovery : Obligations.TimeoutRecovery := by
  intro s limit limit' ops f sc sc' a a' t t' p p' c hs hl hl' hops hfilter hprefix hshort hticks
  have hframe := wholeFrame_frameBytes s.params hs.params sc a t p c hl
  obtain ⟨s1, hrun1, hparams, hdone1, htimeout, hcount, hwaiting⟩ :=
    hs.run_cutShort hframe hops hfilter hprefix hshort hticks
  obtain ⟨s2, hrun2, hdone2, hok, hpayload, hoverrun⟩ :=
    (hs.of_runInstrs hrun1).run_nextCycle hdone1 limit' sc' a' t' (p := p') (by rwa [hparams])
  rw [hparams] at hrun2
  exact ⟨s1, s2, hrun1, hdone1, htimeout, hcount, hwaiting, hrun2, hdone2, hok, hpayload, hoverrun⟩

end Sys2Proof.Machine
end

section
/-! SUPPORT. The checksum as a sum: its terms and bounds, what flipping one bit does to a term, and the two readings of the
length. -/

namespace Sys2Proof.Machine

/-! ### The sum and its terms -/

/-- The checksum is the sum modulo 2^16 (R161). -/
theorem checksum_toNat (mode : CsumLenMode) (t : Byte) (len : Half) (p : List Byte) :
    (checksum mode t len p).toNat = checksumSum mode t len p % 65536 :=
  BitVec.toNat_ofNat _ _

/-- The bytes' sum is the library's sum of their values. -/
theorem sumBytes_eq_sum (p : List Byte) : sumBytes p = (p.map BitVec.toNat).sum := by
  induction p with
  | nil => rfl
  | cons b p ih => rw [sumBytes, ih, List.map_cons, List.sum_cons]

/-- Every byte adds at most 255. -/
theorem sumBytes_le (p : List Byte) : sumBytes p ≤ 255 * p.length := by
  induction p with
  | nil => exact le_rfl
  | cons b p ih =>
    have hb := b.isLt
    rw [sumBytes, List.length_cons]
    omega

/-- Replacing a byte replaces its value in the sum. -/
theorem sumBytes_set {p : List Byte} {j : Nat} {b : Byte} (h : p[j]? = some b) (b' : Byte) :
    sumBytes (p.set j b') + b.toNat = sumBytes p + b'.toNat := by
  induction p generalizing j with
  | nil => simp at h
  | cons a p ih =>
    cases j with
    | zero =>
      obtain rfl : a = b := by simpa using h
      rw [List.set_cons_zero, sumBytes, sumBytes]
      omega
    | succ j =>
      have hset := ih (j := j) (by simpa using h)
      rw [List.set_cons_succ, sumBytes, sumBytes]
      omega

/-- The high byte of a field, as the checksum divides it off. -/
theorem highByte_toNat (v : Half) : (v.extractLsb' 8 8).toNat = v.toNat / 256 := by
  have hv := v.isLt
  simp only [BitVec.extractLsb'_toNat, Nat.shiftRight_eq_div_pow]
  omega

/-- The low byte of a field, as the checksum takes its remainder. -/
theorem lowByte_toNat (v : Half) : (v.extractLsb' 0 8).toNat = v.toNat % 256 := by
  simp only [BitVec.extractLsb'_toNat, Nat.shiftRight_zero]

/-- The length as its two bytes enter the sum (R13). -/
theorem lengthTerm_byteSum (len : Half) :
    lengthTerm .byteSum len = (len.extractLsb' 8 8).toNat + (len.extractLsb' 0 8).toNat := by
  rw [highByte_toNat, lowByte_toNat]
  rfl

/-- The two readings of a length differ by 255 times its high byte (R167). -/
theorem lengthTerm_value16 (len : Half) : lengthTerm .value16 len = lengthTerm .byteSum len + 255 * (len.toNat / 256) := by
  simp only [lengthTerm]
  omega

/-- `CHECKSUM` returns the checksum and writes nothing (R162). -/
theorem exec_checksum (s : State) (t : Byte) (len : Half) (p : List Byte) :
    exec (.checksum t len p) s = .next (s.finishOp s.block (.sum (checksum s.params.csumLenMode t len p))) := rfl

/-! ### One bit flipped -/

/-- Where two sequences have no bit in common, either has the bits that one of them has. -/
theorem xor_eq_or_of_and_eq_zero {w : Nat} {x y : BitVec w} (h : x &&& y = 0#w) : x ^^^ y = x ||| y := by
  apply BitVec.eq_of_getLsbD_eq
  intro i _
  have hi := congrArg (BitVec.getLsbD · i) h
  simp only [BitVec.getLsbD_and, BitVec.getLsbD_zero] at hi
  rw [BitVec.getLsbD_xor, BitVec.getLsbD_or]
  cases hx : x.getLsbD i <;> simp_all

/-- Setting a clear bit adds its weight. -/
theorem toNat_flip_of_clear {w k : Nat} {v : BitVec w} (hk : k < w) (hb : v.getLsbD k = false) :
    (v ^^^ BitVec.twoPow w k).toNat = v.toNat + 2 ^ k := by
  have h0 : v &&& BitVec.twoPow w k = 0#w := by rw [BitVec.and_twoPow, hb, if_neg Bool.false_ne_true]
  rw [xor_eq_or_of_and_eq_zero h0, ← BitVec.add_eq_or_of_and_eq_zero _ _ h0, BitVec.toNat_add_of_and_eq_zero h0,
    BitVec.toNat_twoPow_of_lt hk]

/-- Flipping a bit adds its weight or takes it away. -/
theorem toNat_flip {w k : Nat} (v : BitVec w) (hk : k < w) :
    (v ^^^ BitVec.twoPow w k).toNat = v.toNat + 2 ^ k ∨ v.toNat = (v ^^^ BitVec.twoPow w k).toNat + 2 ^ k := by
  cases hb : v.getLsbD k with
  | false => exact .inl (toNat_flip_of_clear hk hb)
  | true =>
    have hclear : (v ^^^ BitVec.twoPow w k).getLsbD k = false := by
      simp [hb, hk]
    have hback := toNat_flip_of_clear hk hclear
    rw [BitVec.xor_assoc, BitVec.xor_self, BitVec.xor_zero] at hback
    exact .inr hback

/-- A flipped bit of a field of at most 16 bits moves its value by less than 2^16, and by something. -/
theorem toNat_flip_near {w k : Nat} (v : BitVec w) (hk : k < w) (hw : w ≤ 16) :
    (v ^^^ BitVec.twoPow w k).toNat ≠ v.toNat ∧ (v ^^^ BitVec.twoPow w k).toNat < v.toNat + 65536 ∧
      v.toNat < (v ^^^ BitVec.twoPow w k).toNat + 65536 := by
  have hpos : 0 < 2 ^ k := Nat.two_pow_pos k
  have hlt : 2 ^ k < 2 ^ 16 := Nat.pow_lt_pow_right (by omega) (by omega)
  rcases toNat_flip v hk with h | h <;> omega

/-- A flipped bit of the length changes its value in the sum: read as two bytes, the value keeps the length modulo 255, and no
bit's weight is a multiple of 255. -/
theorem lengthTerm_flip_ne (mode : CsumLenMode) (len : Half) {k : Nat} (hk : k < 16) :
    lengthTerm mode (len ^^^ BitVec.twoPow 16 k) ≠ lengthTerm mode len := by
  cases mode with
  | value16 =>
    obtain ⟨hne, _⟩ := toNat_flip_near len hk le_rfl
    exact hne
  | byteSum =>
    have hweight : ∀ k < 16, 2 ^ k % 255 ≠ 0 := by decide
    have hk255 := hweight k hk
    simp only [lengthTerm]
    rcases toNat_flip len hk with h | h <;> omega

/-- The length's value in the sum is below 2^16. -/
theorem lengthTerm_lt (mode : CsumLenMode) (len : Half) : lengthTerm mode len < 65536 := by
  have hlen := len.isLt
  cases mode <;> simp only [lengthTerm] <;> omega

/-- Sums that differ by something less than 2^16 have different checksums. -/
theorem checksum_ne {mode mode' : CsumLenMode} {t t' : Byte} {len len' : Half} {p p' : List Byte}
    (hne : checksumSum mode t len p ≠ checksumSum mode' t' len' p')
    (hlt : checksumSum mode t len p < checksumSum mode' t' len' p' + 65536)
    (hgt : checksumSum mode' t' len' p' < checksumSum mode t len p + 65536) :
    checksum mode t len p ≠ checksum mode' t' len' p' := by
  intro h
  have hmod := congrArg BitVec.toNat h
  rw [checksum_toNat, checksum_toNat] at hmod
  omega

/-- A flipped bit of the type changes the checksum (R165). -/
theorem checksum_flip_type (mode : CsumLenMode) (t : Byte) (len : Half) (p : List Byte) {k : Nat} (hk : k < 8) :
    checksum mode (t ^^^ BitVec.twoPow 8 k) len p ≠ checksum mode t len p := by
  obtain ⟨hne, hlt, hgt⟩ := toNat_flip_near t hk (by omega)
  apply checksum_ne <;> simp only [checksumSum] <;> omega

/-- A flipped bit of the length changes the checksum, in either mode (R165). -/
theorem checksum_flip_length (mode : CsumLenMode) (t : Byte) (len : Half) (p : List Byte) {k : Nat} (hk : k < 16) :
    checksum mode t (len ^^^ BitVec.twoPow 16 k) p ≠ checksum mode t len p := by
  have hne := lengthTerm_flip_ne mode len hk
  have hlt := lengthTerm_lt mode (len ^^^ BitVec.twoPow 16 k)
  have hlt' := lengthTerm_lt mode len
  apply checksum_ne <;> simp only [checksumSum] <;> omega

/-- A flipped bit of a payload byte changes the checksum (R165). -/
theorem checksum_flip_payload (mode : CsumLenMode) (t : Byte) (len : Half) {p : List Byte} {j k : Nat} {b : Byte}
    (hk : k < 8) (hb : p[j]? = some b) :
    checksum mode t len (p.set j (b ^^^ BitVec.twoPow 8 k)) ≠ checksum mode t len p := by
  obtain ⟨hne, hlt, hgt⟩ := toNat_flip_near b hk (by omega)
  have hset := sumBytes_set hb (b ^^^ BitVec.twoPow 8 k)
  apply checksum_ne <;> simp only [checksumSum] <;> omega

/-- The verdict is the comparison (R163). -/
theorem exec_verify_iff {s : State} {st : Half} {a : Word32} {t : Byte} {len : Half} {p : List Byte} {c : Half} {v : Bool} :
    exec (.verify st a t len p c) s = .next (s.finishOp s.block (.verdict v)) ↔
      decide (checksum s.params.csumLenMode t len p = c) = v := by
  rw [exec_verify]
  simp [State.finishOp]

/-! ## The statements of 41_checksum_validator.md on the sum -/

/-- Settles O11: the value returned is the checksum, and its terms are those of the sum. -/
theorem checksumIsTheSum : Obligations.ChecksumIsTheSum := by
  intro s st a t len p c
  refine ⟨checksum s.params.csumLenMode t len p, ?_, exec_checksum s t len p, exec_verify s st a t len p c⟩
  rw [checksum_toNat, checksumSum, sumBytes_eq_sum]
  cases s.params.csumLenMode with
  | value16 => rfl
  | byteSum => rw [lengthTerm_byteSum]

/-- Settles O13: a bit flipped in what is summed, or in what is compared, makes the two differ; the start code and the address
are in neither. -/
theorem checksumSingleBitSensitivity : Obligations.ChecksumSingleBitSensitivity := by
  intro s st a t len p c h
  have hmatch := exec_verify_iff.mp h
  obtain rfl := of_decide_eq_true hmatch
  refine ⟨fun k hk => ?_, fun j k b hk hb => ?_, fun k hk => ?_, fun k hk => ?_, fun k _ => h, fun k _ => h⟩
  · exact exec_verify_iff.mpr (decide_eq_false (checksum_flip_type _ t len p hk))
  · exact exec_verify_iff.mpr (decide_eq_false (checksum_flip_payload _ t len hk hb))
  · exact exec_verify_iff.mpr (decide_eq_false (checksum_flip_length _ t len p hk))
  · obtain ⟨hne, _⟩ := toNat_flip_near (checksum s.params.csumLenMode t len p) hk le_rfl
    exact exec_verify_iff.mpr (decide_eq_false fun he => hne (congrArg BitVec.toNat he.symm))

/-- Settles O14: 255 for the type, the length's value, and 255 for each of at most 254 payload bytes. -/
theorem acceptedSumsNeverWrap : Obligations.AcceptedSumsNeverWrap := by
  refine ⟨fun t p hp => ?_, ?_, by decide⟩
  · have ht := t.isLt
    have hsum := sumBytes_le p
    have hlen := count_toNat (p.length + 2) (by omega)
    simp only [checksumSum, lengthTerm, hlen]
    omega
  · rw [checksumSum, sumBytes_eq_sum, List.map_replicate, List.sum_replicate]
    rfl

/-- Settles O15: the sums differ by 255 times the high byte, which is less than 2^16. -/
theorem checksumModesAgreeBelow256 : Obligations.ChecksumModesAgreeBelow256 := by
  intro t len p
  have hterm := lengthTerm_value16 len
  have hlen := len.isLt
  have hagree : checksum .value16 t len p = checksum .byteSum t len p ↔ len.toNat < 256 := by
    refine ⟨fun h => ?_, fun h => ?_⟩
    · by_contra hge
      refine checksum_ne ?_ ?_ ?_ h <;> simp only [checksumSum] <;> omega
    · rw [checksum, checksum, checksumSum, checksumSum, hterm, Nat.div_eq_of_lt h, Nat.mul_zero, Nat.add_zero]
  refine ⟨hagree, ?_, fun hle hne => ?_⟩
  · rw [highByte_toNat, checksumSum, checksumSum, hterm]
    omega
  · have hge := mt hagree.mpr hne
    exact BitVec.eq_of_toNat_eq (show len.toNat = 256 by omega)

end Sys2Proof.Machine
end

section
/-! SUPPORT. The frame that is sent and the record it decodes to; the catalog's commands as requests to send; the decoders of
responses. -/

namespace Sys2Proof.Machine

/-! ### The frame codec -/

/-- The two bytes of the length field are the payload's length and 2, high byte first (R100, R102). -/
theorem lengthField_bytes {p : List Byte} (h : p.length ≤ 65533) :
    ((lengthField p).extractLsb' 8 8).toNat * 256 + ((lengthField p).extractLsb' 0 8).toNat = p.length + 2 := by
  rw [highByte_toNat, lowByte_toNat, lengthField_toNat p h]
  omega

/-- A sequence of fewer than 9 bytes has no header (R101). -/
theorem parseHeader_short {bs : List Byte} (h : bs.length < 9) : parseHeader bs = none := by
  cases hh : parseHeader bs with
  | none => rfl
  | some hb =>
    have hl := parseHeader_length hh
    omega

/-! ## The statements of 40_frame_codec.md -/

/-- Settles O7: the request is valid, and the frame's fields are written out as R100 has them. -/
theorem encodeEmitsItsFrame : Obligations.EncodeEmitsItsFrame := by
  intro s addr t p hp hl ht
  have hfits : p.length ≤ 65533 := by
    have hp' : s.params.maxPayload ≤ 65524 := hp
    omega
  exact ⟨encodeFrame s.params addr t p, _, _, exec_encode_valid addr (encodeRefusal_none hl ht), rfl,
    lengthField_bytes hfits, frameBytes_length _ _ _ _ _⟩

/-- Settles O9: each clause is a check of `DECODE` that holds where those before it do not. -/
theorem decodeReportsByItsChecks : Obligations.DecodeReportsByItsChecks := by
  intro s bs
  refine ⟨fun hshort => exec_decode (by simp only [decodeBytes, parseHeader_short hshort]; rfl),
    fun sc addr t len body hbs => ?_⟩
  have hh : parseHeader bs = some ({ startCode := sc, address := addr, ptype := t, length := len }, body) :=
    hbs ▸ parseHeader_fields sc addr t len body
  refine ⟨fun hmalformed => ?_, fun h2 hc => exec_decode (decodeBytes_tooLarge hh h2 hc), fun p c hbody hl hc => ?_⟩
  · rcases Nat.lt_or_ge len.toNat 2 with h2 | h2
    · exact exec_decode (decodeBytes_lengthBelowTwo hh h2)
    · obtain ⟨hc, hb⟩ := hmalformed.resolve_left (Nat.not_lt.mpr h2)
      exact exec_decode (decodeBytes_otherBodyLength hh h2 (Nat.add_comm 9 _ ▸ hc) hb)
  · subst hbody
    exact exec_decode ((decodeBytes_frame hh hl.symm hc).trans (congrArg Except.ok (recFull_of_length hl.symm)))

/-- Settles O10: the frame sent is whole, and its checksum is the one computed. -/
theorem encodeDecodeRoundTrip : Obligations.EncodeDecodeRoundTrip := by
  intro s addr t p hp hl ht
  have hp' : s.params.maxPayload ≤ 65524 := hp
  have hw := wholeFrame_frameBytes s.params hp s.params.startCode addr t p
    (checksum s.params.csumLenMode t (lengthField p) p) hl
  have hdecode := hw.decodeBytes
  rw [recFull_of_length hw.length] at hdecode
  exact ⟨_, _, _, _, exec_encode_valid addr (encodeRefusal_none hl ht), rfl, exec_decode hdecode, rfl, if_pos rfl, rfl, rfl,
    rfl, hw.length, count_toNat _ (by omega), rfl, rfl⟩

/-! ### The catalog -/

/-- A command whose payload fits sends its Command frame and returns it (R241). -/
theorem State.sendCommand_valid {s : State} (addr : Word32) {pl : List Byte} (hl : pl.length ≤ s.params.maxPayload) :
    s.sendCommand addr pl = .next (s.finishOp (s.block.emit (encodeFrame s.params addr 0x01 pl))
      (.encoded (encodeFrame s.params addr 0x01 pl))) :=
  exec_encode_valid addr (encodeRefusal_none hl (by decide))

/-- The status of a response to one of the eleven simple confirmations is its decode (R222). -/
theorem decodeByOpcode_confirmation {op : Byte} (h : op ∈ confirmationOpcodes) (st : Byte) (rest : List Byte) :
    decodeByOpcode op (st :: rest) = .ok (.confirmation st) := by
  have hother : ∀ op ∈ confirmationOpcodes, op ≠ 0x04 ∧ op ≠ 0x0F ∧ op ≠ 0x1D := by decide
  obtain ⟨hsearch, hparams, hcount⟩ := hother op h
  rw [decodeByOpcode, if_neg hsearch, if_neg hparams, if_neg hcount, if_pos h]
  rfl

/-- The request's opcode picks the decoder of its response (R241 step 5). -/
theorem CommandRequest.decodeResponse_eq {c : CommandRequest} {op : Byte} {args : List Byte} (h : c.payload = op :: args)
    (payload : List Byte) : c.decodeResponse payload = decodeByOpcode op payload := by
  rw [CommandRequest.decodeResponse, h]

/-- A taken Acknowledge is a success or a device status, by its status byte (R242). -/
theorem CommandRequest.result_ack (c : CommandRequest) {r : Record} {st : Byte} {rest : List Byte} (hok : r.result = .ok)
    (hack : r.ptype = 0x07) (hp : r.payload = st :: rest) :
    c.result r = some (if st = 0 then .success (c.decodeResponse r.payload)
      else .deviceStatus st (c.decodeResponse r.payload)) := by
  simp only [CommandRequest.result, hok, hack, hp, if_true]

/-- A taken transport-level result is the command's transport error (R242). -/
theorem CommandRequest.result_transport (c : CommandRequest) {r : Record}
    (h : r.result ∈ [.checksumMismatch, .frameTooLarge, .framingTimeout, .frameMalformed]) :
    c.result r = some (.transportError r.result) := by
  simp only [List.mem_cons, List.not_mem_nil, or_false] at h
  rcases h with h | h | h | h <;> simp only [CommandRequest.result, h]

/-- The 17 bytes of a parameters response with status 0x00 are read field by field (R231, R238). -/
theorem decodeSensorParameters_fields (st sy lc sl pc bm : Half) (addr : Word32) :
    decodeSensorParameters ([0x00] ++ bytes16 st ++ bytes16 sy ++ bytes16 lc ++ bytes16 sl ++ bytes32 addr ++ bytes16 pc ++
      bytes16 bm) =
    .ok { statusRegister := st, systemId := sy, libraryCapacity := lc, securityLevel := sl, deviceAddress := addr,
          packetSizeCode := pc, baudMultiplier := bm } := by
  simp [bytes16, bytes32, decodeSensorParameters]

/-! ## The statements of 43_command_catalog.md -/

/-- Settles O41: each row sends its one-byte payload. -/
theorem commandsWithoutArgumentsSend : Obligations.CommandsWithoutArgumentsSend := by
  intro s addr hl row hrow
  have hrun : exec row.1 s = s.sendCommand addr [row.2] := by
    simp only [List.mem_cons, List.not_mem_nil, or_false] at hrow
    rcases hrow with rfl | rfl | rfl | rfl | rfl | rfl | rfl <;> rfl
  exact ⟨encodeFrame s.params addr 0x01 [row.2], by simp [encodeFrame, frameBytes, lengthField, bytes16],
    hrun.trans (State.sendCommand_valid addr hl)⟩

/-- Settles O42: each row sends its payload, which has at most 6 bytes. -/
theorem commandsWithArgumentsSend : Obligations.CommandsWithArgumentsSend := by
  intro s addr slot x y pw hl row hrow
  have hrun : exec row.1 s = s.sendCommand addr row.2 ∧ row.2.length ≤ 6 := by
    simp only [List.mem_cons, List.not_mem_nil, or_false] at hrow
    rcases hrow with rfl | rfl | rfl | rfl | rfl | rfl | rfl <;> exact ⟨rfl, by simp⟩
  obtain ⟨hsend, hsize⟩ := hrun
  exact ⟨encodeFrame s.params addr 0x01 row.2, rfl, hsend.trans (State.sendCommand_valid addr (hsize.trans hl))⟩

/-- Settles O44: the fields of the two responses in their places, the decoder by the opcode, and the result by what was
taken. -/
theorem countAndParametersDecode : Obligations.CountAndParametersDecode := by
  refine ⟨fun _ _ => rfl, rfl, fun st sy lc sl pc bm addr => ?_, fun c op args r hop => ?_⟩
  · refine ⟨_, decodeSensorParameters_fields st sy lc sl pc bm addr, rfl, rfl, rfl, rfl, rfl, ?_, ?_, ?_, ?_,
      fun h => if_neg (Nat.not_le.mpr h), rfl⟩ <;>
    · rintro rfl
      rfl
  · rw [CommandRequest.decodeResponse_eq hop]
    refine ⟨fun h => h ▸ rfl, fun h => h ▸ rfl, fun h => h ▸ rfl, fun st rest hmem hp => ?_,
      fun st rest hok hack hp => ?_, fun h => ?_⟩
    · rw [hp]
      exact decodeByOpcode_confirmation hmem st rest
    · rw [CommandRequest.returned, CommandRequest.result_ack c hok hack hp, CommandRequest.decodeResponse_eq hop]
      refine ⟨fun h0 => ?_, fun h0 => ?_⟩
      · rw [if_pos h0]
        rfl
      · rw [if_neg h0]
        rfl
    · rw [CommandRequest.returned, CommandRequest.result_transport c h]
      rfl

end Sys2Proof.Machine
end
